-- ==== Sys2Proof/Word.lean ====
section
/-!
DEFINITION. The word types of the FRC core (spec 00_scope.md rule R5): every one is a fixed width the spec names.
-/

namespace Sys2Proof

/-- A byte of META or RAW (rule R14). -/
abbrev Byte := BitVec 8

/-- A packed word of RAW, WORD_BITS = 32 (rule R5, 30_encoding.md rule R91). -/
abbrev PackedWord := BitVec 32

/-- A raw sample, SAMPLE_BITS = 10, unsigned (rule R5). -/
abbrev Sample := BitVec 10

/-- A value of LUT, GRID or OUT, CELL_BITS = 16, unsigned (rule R5, 30_encoding.md rule R99). -/
abbrev Cell16 := BitVec 16

end Sys2Proof
end

