-- ==== Sys2Proof/Config.lean ====
section
/-!
DEFINITION. What is fixed for the machine: the constants of spec 00_scope.md rule R5, and the one open parameter that no rule
reads (rule R7). The gains, the other open parameters, are host-loaded registers of State (10_state.md rule R24).
-/

namespace Sys2Proof

/-- The order in which a consumer would cut a 16-bit value into bytes (00_scope.md rule R7, 92_eei_decisions.md D15). -/
inductive ByteOrder
  | little
  | big
deriving DecidableEq, Repr, Inhabited

namespace Config

/-- `OUT_BYTE_ORDER` (rule R7): left open by the spec, so it has no body here; no rule of the spec reads it. -/
opaque outByteOrder : ByteOrder

/-- LUT_ENTRIES (rule R5). -/
abbrev lutEntries : Nat := 1024

/-- TAG_WIDTH_OFFSET (rule R5). -/
abbrev tagWidthOffset : Nat := 0xA

/-- TAG_HEIGHT_OFFSET (rule R5). -/
abbrev tagHeightOffset : Nat := 0xE

/-- The least blob that holds byte 0xF (60_exceptions.md rule R201). -/
abbrev tagBytes : Nat := 16

/-- CMD code of START (30_encoding.md rule R101). -/
abbrev startCode : BitVec 8 := 0x01#8

end Config

end Sys2Proof
end

