-- ==== Sys2Proof/Machine/State.lean ====
section
/-!
DEFINITION. The architectural state of the FRC core (spec 10_state.md), the reasons a step can stop, and the state after reset
(rule R41). State is plain data; registers of one role stand together in one structure.
-/

namespace Sys2Proof.Machine

/-! ### Enumerations the spec closes -/

/-- PHASE, the sequencer's program counter (10_state.md rule R35); only the twelve legal codes can be represented
(92_eei_decisions.md D24). -/
inductive Phase
  | idle | ldgeom | chksize | gsel | lutbld | gclr | remap | fill | crop | emit | done | error
deriving DecidableEq, Repr

/-- STATUS.ERRCODE (10_state.md rule R38): 0 no error, 1 MetadataUnavailable, 2 SizeMismatch; 3 is never produced. -/
inductive ErrCode
  | none | metadataUnavailable | sizeMismatch
deriving DecidableEq, Repr

/-- NF, the field count: 1, 2, 4 or 8, "No other value is ever stored" (10_state.md rule R27; log 5). -/
inductive FieldCount
  | one | two | four | eight
deriving DecidableEq, Repr

/-! ### Memories -/

/-- A memory of `w`-bit values: (index, value) pairs with strictly rising indices. An index that is not listed holds no value
(rule R41, "unspecified"; log 6). `Mem 8` is a list of `Host.Cell`. -/
abbrev Mem (w : Nat) := List (Nat × BitVec w)

/-- The five address spaces (20_memory.md rule R60). -/
inductive Space
  | metadata | raw | lut | grid | out
deriving DecidableEq, Repr

/-! ### Registers, by role -/

/-- STATUS (10_state.md rule R38). Bits [7:5] read as zero and are not held (30_encoding.md rule R102). -/
structure Status where
  busy : Bool
  done : Bool
  err : Bool
  errcode : ErrCode
deriving DecidableEq, Repr

/-- A gain: a non-negative rational in lowest terms (10_state.md rule R24, 93_implementation_defined.md U8; log 12). -/
structure Gain where
  num : Nat
  den : Nat
  den_pos : 0 < den
  reduced : Nat.Coprime num den
deriving DecidableEq, Repr

/-- GAIN_R, GAIN_G, GAIN_B (10_state.md rule R24). -/
structure Gains where
  red : Gain
  green : Gain
  blue : Gain
deriving DecidableEq, Repr

/-- WIDTH, HEIGHT, WPR, FIELD_BYTES, NF (10_state.md rules R25, R26, R27). -/
structure Geometry where
  width : BitVec 16
  height : BitVec 16
  wpr : BitVec 15
  fieldBytes : BitVec 35
  nf : FieldCount
deriving DecidableEq, Repr

/-- The profile registers (10_state.md rule R28); XOFF and YOFF are two's complement. -/
structure ProfileRegs where
  scale : BitVec 2
  xcrop : BitVec 1
  ycrop : BitVec 1
  xoff : BitVec 2
  yoff : BitVec 2
  xshift : Vector (BitVec 2) 8
  yshift : Vector (BitVec 2) 8
deriving DecidableEq, Repr

/-- WOUT, HOUT, CC, OUT_W, OUT_H (10_state.md rule R29). -/
structure Canvas where
  wout : BitVec 17
  hout : BitVec 18
  cc : BitVec 3
  outW : BitVec 17
  outH : BitVec 18
deriving DecidableEq, Repr

/-- LUT[0], LUT[1], LUT[2] (10_state.md rule R31). -/
structure Tables where
  red : Mem 16
  green : Mem 16
  blue : Mem 16
deriving DecidableEq, Repr

/-- The loop counters of the stage operations (10_state.md rule R36). -/
structure Counters where
  fi : BitVec 4
  sy : BitVec 16
  sx : BitVec 16
  fy : BitVec 18
  fx : BitVec 17
  fc : BitVec 2
  cy : BitVec 18
  cx : BitVec 17
  cch : BitVec 2
  lt : BitVec 2
  li : BitVec 10
  lin : BitVec 38
deriving DecidableEq, Repr

/-- The datapath registers (10_state.md rule R37); XP and YP are two's complement. -/
structure Datapath where
  w32 : PackedWord
  samples : Vector Sample 4
  xp : BitVec 18
  yp : BitVec 19
  inb : Bool
  tones : Vector Cell16 4
  na : Cell16
  nb : Cell16
  av : Cell16
deriving DecidableEq, Repr

/-! ### The state -/

/-- Everything the spec gives the machine (10_state.md rule R20), and the consumer's side of EMIT. -/
structure State where
  /-- PHASE (rule R35). -/
  phase : Phase
  /-- STATUS (rule R38). -/
  status : Status
  /-- CMD, the pending command (rule R30, 30_encoding.md rule R101; log 2). -/
  cmd : BitVec 8
  /-- CFG: bit 0 MODE, bit 1 CH4, bit 2 META_PRESENT (30_encoding.md rule R100). -/
  cfg : BitVec 3
  /-- META_LEN (rule R21). -/
  metaLen : BitVec 32
  /-- DUMP_LEN (rule R22). -/
  dumpLen : BitVec 64
  /-- The gains (rule R24). -/
  gains : Gains
  /-- META (rule R21). -/
  metaBlob : Mem 8
  /-- RAW (rule R22). -/
  raw : Mem 8
  /-- WIDTH to NF (rules R25 to R27). -/
  geom : Geometry
  /-- The profile registers (rule R28). -/
  prof : ProfileRegs
  /-- WOUT to OUT_H (rule R29). -/
  canvas : Canvas
  /-- LUT (rule R31). -/
  lut : Tables
  /-- GRID by linear index (rule R33, 20_memory.md rule R66). -/
  grid : Mem 16
  /-- OUT by linear index (rule R34, 20_memory.md rule R67). -/
  out : Mem 16
  /-- Loop counters (rule R36). -/
  ctr : Counters
  /-- Datapath registers (rule R37). -/
  dp : Datapath
  /-- The model's own: the values EMIT has presented to the consumer, oldest first (46_setup_and_output.md rule R189; log 14). -/
  emitted : List Cell16
deriving DecidableEq, Repr

/-! ### Reasons to stop -/

/-- A step that stops the machine. None is reached in a run whose inputs are loaded (60_exceptions.md rule R203). -/
inductive Fault
  /-- Raised by a memory read of a location that nothing has written: "a model should treat a read before that write as a fault of
  the model, never as zero" (10_state.md rule R41; log 6). Safe. -/
  | unwritten (sp : Space) (index : Nat)
  /-- Raised by an access to a location that does not exist: a META byte at or beyond META_LEN, a RAW word beyond DUMP_LEN, a GRID or
  OUT value outside its raster (20_memory.md rule R73, 93_implementation_defined.md U4). Safe. -/
  | noSuchLocation (sp : Space) (index : Nat)
  /-- Raised by the step when the code it fetched is reserved: "a model should have no step from them" (30_encoding.md rule R105).
  PHASE is an enumeration, so no state raises it. Safe. -/
  | invalidCode
deriving DecidableEq, Repr

/-- A request the model gives no meaning. -/
inductive Refusal
  /-- An operation with no meaning in this model yet. Safe. -/
  | notModelled (mnemonic : String)
  /-- Raised by UNPK, XFORM, RSITE, FILLC, CMOV for operands outside the ranges of the operation's rule: "a model should ... refuse
  outside them" (40_sample_unpacker.md rule R122, 93_implementation_defined.md U7; log 7). Safe. -/
  | operandRange (mnemonic : String)
  /-- Raised by a host write to an input while PHASE is not IDLE: the model's host has no such move (10_state.md rule R42,
  93_implementation_defined.md U9; log 15). -/
  | hostMoveDenied
  /-- Raised by a host read that 10_state.md rule R42 does not allow (log 16). Safe. -/
  | hostReadDenied
deriving DecidableEq, Repr

/-! ### Reset -/

/-- The gain 0, the reset value of the three gain registers (log 4). -/
def Gain.zero : Gain := ⟨0, 1, by decide, by decide⟩

/-- The machine right after reset (10_state.md rule R41, 70_reset_and_hazards.md rule R230): PHASE IDLE, STATUS and CMD zero. Every
other register is "unspecified" there and holds the value logs 4 and 5 name; no memory holds a value (log 6). -/
def State.reset : State where
  phase := .idle
  status := ⟨false, false, false, .none⟩
  cmd := 0
  cfg := 0
  metaLen := 0
  dumpLen := 0
  gains := ⟨Gain.zero, Gain.zero, Gain.zero⟩
  metaBlob := []
  raw := []
  geom := ⟨0, 0, 0, 0, .one⟩
  prof := ⟨0, 0, 0, 0, 0, Vector.replicate 8 0, Vector.replicate 8 0⟩
  canvas := ⟨0, 0, 0, 0, 0⟩
  lut := ⟨[], [], []⟩
  grid := []
  out := []
  ctr := ⟨0, 0, 0, 0, 0, 0, 0, 0, 0, 0, 0, 0⟩
  dp := ⟨0, Vector.replicate 4 0, 0, 0, false, Vector.replicate 4 0, 0, 0, 0⟩
  emitted := []

end Sys2Proof.Machine
end

