-- ==== Sys2Proof/Machine/Operands.lean ====
section
/-!
DEFINITION. The operand forms and formulas of the FRC core: how a sample, a word number, a cell index and a canvas position are
formed, and how the coded registers are read. Pure functions, each from the rule it cites.
-/

namespace Sys2Proof.Machine

/-! ### Coded registers -/

/-- The code of PHASE (30_encoding.md rule R103). -/
def phaseCode : Phase → BitVec 4
  | .idle => 0
  | .ldgeom => 1
  | .chksize => 2
  | .gsel => 3
  | .lutbld => 4
  | .gclr => 5
  | .remap => 6
  | .fill => 7
  | .crop => 8
  | .emit => 9
  | .done => 10
  | .error => 11

/-- The phase a code names; codes 12 to 15 name none (rules R103, R105). -/
def phaseOfCode (code : BitVec 4) : Option Phase :=
  match code.toNat with
  | 0 => some .idle
  | 1 => some .ldgeom
  | 2 => some .chksize
  | 3 => some .gsel
  | 4 => some .lutbld
  | 5 => some .gclr
  | 6 => some .remap
  | 7 => some .fill
  | 8 => some .crop
  | 9 => some .emit
  | 10 => some .done
  | 11 => some .error
  | _ => none

/-- NF as a number (10_state.md rule R27). -/
def fieldCountNat : FieldCount → Nat
  | .one => 1
  | .two => 2
  | .four => 4
  | .eight => 8

/-- MODE: true is logarithmic density (10_state.md rule R23, 30_encoding.md rule R100). -/
def modeLog (cfg : BitVec 3) : Bool := cfg.getLsbD 0

/-- CH4: true is four channels (rules R23, R100). -/
def channels4 (cfg : BitVec 3) : Bool := cfg.getLsbD 1

/-- META_PRESENT (rules R21, R100). -/
def metaPresent (cfg : BitVec 3) : Bool := cfg.getLsbD 2

/-- CC = 3 + CH4 (10_state.md rule R29). -/
def channelCount (cfg : BitVec 3) : BitVec 3 := if channels4 cfg then 4 else 3

/-! ### Bytes to words -/

/-- `{hi, lo}`: a big-endian pair of metadata bytes (20_memory.md rule R61). -/
def bigEndian (hi lo : Byte) : BitVec 16 := hi ++ lo

/-- A packed word from its bytes in address order: the lowest address holds bits [7:0] (20_memory.md rule R62). -/
def littleEndian (b0 b1 b2 b3 : Byte) : PackedWord := b3 ++ b2 ++ b1 ++ b0

/-! ### Raw dump: word numbers and samples -/

/-- `WPR = ceil(WIDTH / 3)` (10_state.md rule R26, 46_setup_and_output.md rule R187). -/
def wordsPerRow (width : Nat) : Nat := (width + 2) / 3

/-- `FIELD_BYTES = 4 × HEIGHT × (4 × WPR)` (rules R26, R187). -/
def fieldBytesOf (height wpr : Nat) : Nat := 4 * height * (4 * wpr)

/-- `WordIndex(i, p, y, x)` (20_memory.md rule R64). -/
def wordIndex (height wpr i p y x : Nat) : Nat := ((i * 4 + p) * height + y) * wpr + x / 3

/-- `Extract(w, x)` (30_encoding.md rule R92). -/
def extractSample (w : PackedWord) (x : Nat) : Sample :=
  ((w >>> ((x % 3) * 10)) &&& 0x3FF#32).setWidth 10

/-- The plane that feeds an output channel (00_scope.md rule R13): channel `c` takes plane `3 − c`. -/
def planeOfChannel (c : BitVec 2) : BitVec 2 := 3#2 - c

/-- The table that serves an output channel: `min(c, 2)`, so infrared reads the blue table (41_tone_curve.md rule R135). -/
def tableOfChannel (c : BitVec 2) : Nat := min c.toNat 2

/-! ### Canvas positions -/

/-- `GridIndex` and `OutIndex`: row-major, channel-interleaved (20_memory.md rules R66, R67). -/
def cellIndex (rowCells channels x y c : Nat) : Nat := (y * rowCells + x) * channels + c

/-- The shift register of a field: XSHIFT[i] or YSHIFT[i] (10_state.md rule R28). Field indices are below 8. -/
def shiftOf (shifts : Vector (BitVec 2) 8) (i : BitVec 4) : Nat :=
  (shifts[(i.setWidth 3).toNat]'(i.setWidth 3).isLt).toNat

/-- Step 1 of the transform (43_field_remapper.md rule R156): the `mod 2` applies to `x + 1` alone. -/
def transformY (scale yshift : Nat) (yoff : Int) (y x : Nat) : Int :=
  (scale * (2 * y + (x + 1) % 2) + yshift : Nat) + yoff

/-- Step 2 of the transform (rule R156). -/
def transformX (scale xshift : Nat) (xoff : Int) (x : Nat) : Int :=
  (scale * x + xshift : Nat) + xoff

/-- Step 3 of the transform: is the position on the canvas (rules R156, R157)? -/
def onCanvas (wout hout : Nat) (xp yp : Int) : Bool :=
  decide (0 ≤ xp) && decide (xp < wout) && decide (0 ≤ yp) && decide (yp < hout)

/-! ### Cell values -/

/-- The truncating average, summed in 17 bits (44_gap_filler.md rule R174). -/
def average (a b : Cell16) : Cell16 :=
  ((a.setWidth 17 + b.setWidth 17) >>> 1).setWidth 16

/-- The bytes of a value in the order a consumer chose (20_memory.md rule R78); no rule of the spec uses it. -/
def cellBytes (o : ByteOrder) (v : Cell16) : List Byte :=
  match o with
  | .little => [v.setWidth 8, (v >>> 8).setWidth 8]
  | .big => [(v >>> 8).setWidth 8, v.setWidth 8]

end Sys2Proof.Machine
end

