-- ==== Sys2Proof/Machine/Flags.lean ====
section
/-!
DEFINITION. STATUS: its bits, and the three places that write it (spec 10_state.md rule R38): acceptance of START, entry of DONE,
trap entry. No data operation sets a flag.
-/

namespace Sys2Proof.Machine

/-- The two bits of ERRCODE (30_encoding.md rule R102, 60_exceptions.md rule R200). -/
def errCodeBits : ErrCode → BitVec 2
  | .none => 0
  | .metadataUnavailable => 1
  | .sizeMismatch => 2

/-- STATUS as read: bit 0 BUSY, bit 1 DONE, bit 2 ERR, bits [4:3] ERRCODE, bits [7:5] zero (30_encoding.md rule R102). -/
def statusBits (st : Status) : BitVec 8 :=
  0#3 ++ errCodeBits st.errcode ++ BitVec.ofBool st.err ++ BitVec.ofBool st.done ++ BitVec.ofBool st.busy

/-- STATUS after START is accepted (46_setup_and_output.md rule R185). -/
def startStatus : Status := ⟨true, false, false, .none⟩

/-- STATUS after DONE is entered: BUSY and DONE are written, ERR and ERRCODE are not (46_setup_and_output.md rule R190). -/
def doneStatus (st : Status) : Status := { st with busy := false, done := true }

/-- STATUS after trap entry: ERRCODE, ERR and BUSY are written, DONE is not (60_exceptions.md rule R205). -/
def trapStatus (code : ErrCode) (st : Status) : Status := { st with busy := false, err := true, errcode := code }

end Sys2Proof.Machine
end

