-- ==== Sys2Proof/Machine/Ops.lean ====
section
/-!
DEFINITION. The named operations over memories and registers that the meanings are written with: results and their sequencing, counted
loops, memory reads and writes, the five address spaces, and taking an exception.
-/

namespace Sys2Proof.Machine

/-! ### Results and sequencing -/

/-- What an operation answers: a value, a fault or a refusal. -/
abbrev Result (α : Type) := Host.Outcome α Fault Refusal

/-- Go on with the value of `r`, or stop as `r` stops. -/
def andThen {α β : Type} (r : Result α) (k : α → Result β) : Result β :=
  match r with
  | .next a => k a
  | .fault e => .fault e
  | .refused e => .refused e

/-- A counted loop (00_scope.md rule R14): the body for each member in order. -/
def forEach {α : Type} : List α → (α → State → Result State) → State → Result State
  | [], _, s => .next s
  | a :: l, body, s => andThen (body a s) (forEach l body)

/-- The range of `for v from n downto 1`. -/
def downTo1 : Nat → List Nat
  | 0 => []
  | n + 1 => (n + 1) :: downTo1 n

/-! ### Memories -/

/-- The value at an index, if something has written it. -/
def memRead {w : Nat} : Mem w → Nat → Option (BitVec w)
  | [], _ => none
  | (b, v) :: m, a => if b = a then some v else memRead m a

/-- Write one value, keeping the indices strictly rising. -/
def memWrite {w : Nat} : Mem w → Nat → BitVec w → Mem w
  | [], a, v => [(a, v)]
  | (b, u) :: m, a, v =>
    if a < b then (a, v) :: (b, u) :: m
    else if a = b then (a, v) :: m
    else (b, u) :: memWrite m a v

/-- The canonical form: strictly rising indices. -/
def memWf {w : Nat} : Mem w → Bool
  | [] => true
  | (a, _) :: m => m.all (fun c => decide (a < c.1)) && memWf m

/-- Write `v` to indices `0` to `n − 1` and touch nothing else. -/
def memFill {w : Nat} (n : Nat) (v : BitVec w) (m : Mem w) : Mem w :=
  (List.range n).map (fun a => (a, v)) ++ m.filter (fun c => decide (n ≤ c.1))

/-- The memory that holds `f a` at each index `a` below `n`, and nothing else. -/
def memTable {w : Nat} (n : Nat) (f : Nat → BitVec w) : Mem w :=
  (List.range' 0 n).map fun a => (a, f a)

/-- Read a location of an address space; one that nothing has written faults (10_state.md rule R41; log 6). -/
def load {w : Nat} (sp : Space) (m : Mem w) (a : Nat) : Result (BitVec w) :=
  match memRead m a with
  | some v => .next v
  | none => .fault (.unwritten sp a)

/-! ### Register updates -/

def State.setPhase (s : State) (p : Phase) : State := { s with phase := p }

def State.setStatus (s : State) (st : Status) : State := { s with status := st }

def State.setGeom (s : State) (g : Geometry) : State := { s with geom := g }

def State.setProf (s : State) (p : ProfileRegs) : State := { s with prof := p }

def State.setCanvas (s : State) (c : Canvas) : State := { s with canvas := c }

def State.setLut (s : State) (t : Tables) : State := { s with lut := t }

def State.setGrid (s : State) (m : Mem 16) : State := { s with grid := m }

def State.setOut (s : State) (m : Mem 16) : State := { s with out := m }

def State.setCtr (s : State) (c : Counters) : State := { s with ctr := c }

def State.setDp (s : State) (d : Datapath) : State := { s with dp := d }

def State.setEmitted (s : State) (l : List Cell16) : State := { s with emitted := l }

/-! ### META -/

/-- `META[a]`; a byte at or beyond META_LEN does not exist (10_state.md rule R21, 93_implementation_defined.md U4). -/
def readMeta (a : Nat) (s : State) : Result Byte :=
  if a < s.metaLen.toNat then load .metadata s.metaBlob a else .fault (.noSuchLocation .metadata a)

/-- `Be16(a)` (20_memory.md rule R61). -/
def readBe16 (a : Nat) (s : State) : Result (BitVec 16) :=
  andThen (readMeta a s) fun hi => andThen (readMeta (a + 1) s) fun lo => .next (bigEndian hi lo)

/-! ### RAW -/

/-- `RAW[a]`; a byte at or beyond DUMP_LEN does not exist (10_state.md rule R22, 93_implementation_defined.md U4). -/
def readRaw (a : Nat) (s : State) : Result Byte :=
  if a < s.dumpLen.toNat then load .raw s.raw a else .fault (.noSuchLocation .raw a)

/-- `RawWord(k)`, only with `4k + 3 < DUMP_LEN` (10_state.md rule R22, 20_memory.md rule R62). -/
def readRawWord (k : Nat) (s : State) : Result PackedWord :=
  if 4 * k + 3 < s.dumpLen.toNat then
    andThen (load .raw s.raw (4 * k)) fun b0 =>
    andThen (load .raw s.raw (4 * k + 1)) fun b1 =>
    andThen (load .raw s.raw (4 * k + 2)) fun b2 =>
    andThen (load .raw s.raw (4 * k + 3)) fun b3 => .next (littleEndian b0 b1 b2 b3)
  else .fault (.noSuchLocation .raw (4 * k))

/-! ### LUT -/

/-- `LUT[t]`, `t` in 0 to 2 (20_memory.md rule R68). -/
def tableAt (t : Tables) (n : Nat) : Mem 16 :=
  match n with
  | 0 => t.red
  | 1 => t.green
  | _ => t.blue

/-- `LUT[t][smp]` (20_memory.md rule R68). -/
def readLut (t : Nat) (smp : Sample) (s : State) : Result Cell16 :=
  load .lut (tableAt s.lut t) smp.toNat

/-! ### GRID and OUT -/

/-- The linear index of `GRID[x, y, c]` on the current canvas (20_memory.md rule R66). -/
def gridIndex (s : State) (x y c : Nat) : Nat := cellIndex s.canvas.wout.toNat s.canvas.cc.toNat x y c

/-- Does `GRID[x, y, c]` exist (rule R66)? -/
def gridHas (s : State) (x y c : Nat) : Bool :=
  decide (x < s.canvas.wout.toNat) && decide (y < s.canvas.hout.toNat) && decide (c < s.canvas.cc.toNat)

/-- The number of values of GRID, `WOUT × HOUT × CC` (10_state.md rule R33). -/
def gridSize (s : State) : Nat := s.canvas.wout.toNat * s.canvas.hout.toNat * s.canvas.cc.toNat

/-- `GRID[x, y, c]`. -/
def readGrid (x y c : Nat) (s : State) : Result Cell16 :=
  if gridHas s x y c then load .grid s.grid (gridIndex s x y c)
  else .fault (.noSuchLocation .grid (gridIndex s x y c))

/-- `GRID[x, y, c] <- v`. -/
def writeGrid (x y c : Nat) (v : Cell16) (s : State) : Result State :=
  if gridHas s x y c then .next (s.setGrid (memWrite s.grid (gridIndex s x y c) v))
  else .fault (.noSuchLocation .grid (gridIndex s x y c))

/-- The linear index of `OUT[x, y, c]` (20_memory.md rule R67). -/
def outIndex (s : State) (x y c : Nat) : Nat := cellIndex s.canvas.outW.toNat s.canvas.cc.toNat x y c

/-- Does `OUT[x, y, c]` exist (rule R67)? -/
def outHas (s : State) (x y c : Nat) : Bool :=
  decide (x < s.canvas.outW.toNat) && decide (y < s.canvas.outH.toNat) && decide (c < s.canvas.cc.toNat)

/-- The number of values of OUT, `OUT_W × OUT_H × CC` (10_state.md rule R34). -/
def outSize (s : State) : Nat := s.canvas.outW.toNat * s.canvas.outH.toNat * s.canvas.cc.toNat

/-- `OUT[x, y, c]`. -/
def readOut (x y c : Nat) (s : State) : Result Cell16 :=
  if outHas s x y c then load .out s.out (outIndex s x y c)
  else .fault (.noSuchLocation .out (outIndex s x y c))

/-- `OUT[x, y, c] <- v`. -/
def writeOut (x y c : Nat) (v : Cell16) (s : State) : Result State :=
  if outHas s x y c then .next (s.setOut (memWrite s.out (outIndex s x y c) v))
  else .fault (.noSuchLocation .out (outIndex s x y c))

/-- Value number `n` of OUT in increasing linear index (46_setup_and_output.md rule R189). -/
def readOutNumber (n : Nat) (s : State) : Result Cell16 :=
  if n < outSize s then load .out s.out n else .fault (.noSuchLocation .out n)

/-! ### Taking an exception, and the end of a run -/

/-- Trap entry (60_exceptions.md rule R205): nothing is saved, no handler is entered, PHASE becomes ERROR. There is no return from
a trap (rule R206); only reset leaves ERROR. -/
def raise (code : ErrCode) (s : State) : Result State :=
  .next ((s.setStatus (trapStatus code s.status)).setPhase .error)

/-- Entry of DONE (46_setup_and_output.md rule R190), with the phase change (10_state.md rule R38; log 3). -/
def enterDone (s : State) : Result State :=
  .next ((s.setStatus (doneStatus s.status)).setPhase .done)

end Sys2Proof.Machine
end

