-- ==== Sys2Proof/Machine/Crop.lean ====
section
/-!
DEFINITION. The border cropper: CMOV, CROP (spec 45_cropper.md).
-/

namespace Sys2Proof.Machine

/-- `CMOV x, y, c` (rule R181): `OUT[x, y, c] <- GRID[x + 1, y + 1, c]`; refused outside the ranges (log 7). -/
def execCmov (x : BitVec 17) (y : BitVec 18) (c : BitVec 2) (s : State) : Result State :=
  if outHas s x.toNat y.toNat c.toNat then
    andThen (readGrid (x.toNat + 1) (y.toNat + 1) c.toNat s) fun v => writeOut x.toNat y.toNat c.toNat v s
  else .refused (.operandRange "CMOV")

/-- The values `(x, y, c)` of OUT in increasing index: rows, then columns, then channels (rule R180). -/
def cropValues (outW outH cc : Nat) : List (Nat × Nat × Nat) :=
  (List.range outH).flatMap fun y => (List.range outW).flatMap fun x => (List.range cc).map fun c => (x, y, c)

/-- One pass of CROP's loop body. -/
def cropValue (v : Nat × Nat × Nat) (s : State) : Result State :=
  let ctr : Counters := { s.ctr with
    cx := BitVec.ofNat 17 v.1, cy := BitVec.ofNat 18 v.2.1, cch := BitVec.ofNat 2 v.2.2 }
  execCmov ctr.cx ctr.cy ctr.cch (s.setCtr ctr)

/-- `CROP` (rule R180). -/
def execCrop (s : State) : Result State :=
  andThen (forEach (cropValues s.canvas.outW.toNat s.canvas.outH.toNat s.canvas.cc.toNat) cropValue s) fun t =>
    .next (t.setPhase .emit)

end Sys2Proof.Machine
end

