-- ==== Sys2Proof/Machine/Fill.lean ====
section
/-!
DEFINITION. The neighbourhood averaging fill engine: AVG2, FILLC, FILL (spec 44_gap_filler.md).
-/

namespace Sys2Proof.Machine

/-- `AVG2 AV, a, b` (rule R174). -/
def execAvg2 (a b : Cell16) (s : State) : Result State :=
  .next (s.setDp { s.dp with av := average a b })

/-- Is channel `c` of `(x, y)` a gap cell of the canvas: `1 ≤ x < WOUT`, `1 ≤ y < HOUT`, `x + y` even, `c < CC` (rules R172, R173)? -/
def isGapCell (s : State) (x y c : Nat) : Bool :=
  decide (1 ≤ x) && decide (1 ≤ y) && decide ((x + y) % 2 = 0) && gridHas s x y c

/-- `FILLC x, y, c` (rule R173): the cell above, the cell to the left, their average; refused outside the ranges (log 7). -/
def execFillc (x : BitVec 17) (y : BitVec 18) (c : BitVec 2) (s : State) : Result State :=
  if isGapCell s x.toNat y.toNat c.toNat then
    andThen (readGrid x.toNat (y.toNat - 1) c.toNat s) fun above =>
    andThen (readGrid (x.toNat - 1) y.toNat c.toNat s) fun left =>
    andThen (execAvg2 above left (s.setDp { s.dp with na := above, nb := left })) fun s =>
      writeGrid x.toNat y.toNat c.toNat s.dp.av s
  else .refused (.operandRange "FILLC")

/-- The cells `(x, y)` FILL visits, in its order: rows from `HOUT − 1` down to 1, columns from `WOUT − 1` down to 1 (rules R170, R171). -/
def fillVisits (wout hout : Nat) : List (Nat × Nat) :=
  (downTo1 (hout - 1)).flatMap fun y => (downTo1 (wout - 1)).map fun x => (x, y)

/-- One channel of a visited gap cell. -/
def fillChannel (c : Nat) (s : State) : Result State :=
  let ctr : Counters := { s.ctr with fc := BitVec.ofNat 2 c }
  execFillc ctr.fx ctr.fy ctr.fc (s.setCtr ctr)

/-- One visit of FILL: a gap cell, by position, has every channel filled; another cell is left alone (rules R170, R172). -/
def fillVisit (cell : Nat × Nat) (s : State) : Result State :=
  let t := s.setCtr { s.ctr with fx := BitVec.ofNat 17 cell.1, fy := BitVec.ofNat 18 cell.2 }
  if (cell.1 + cell.2) % 2 = 0 then forEach (List.range s.canvas.cc.toNat) fillChannel t else .next t

/-- `FILL` (rule R170). -/
def execFill (s : State) : Result State :=
  andThen (forEach (fillVisits s.canvas.wout.toNat s.canvas.hout.toNat) fillVisit s) fun t => .next (t.setPhase .crop)

end Sys2Proof.Machine
end

