-- ==== Sys2Proof/Machine/Profile.lean ====
section
/-!
DEFINITION. The geometry profile: the ROM of spec 42_geometry_profile.md rule R146 and the operation GSEL (rule R145).
-/

namespace Sys2Proof.Machine

/-- One row of the profile table (rule R146): the offsets in two's complement, the shift pairs `(xShift, yShift)` by field. -/
structure ProfileRow where
  scale : BitVec 2
  xCrop : BitVec 1
  yCrop : BitVec 1
  xOffset : BitVec 2
  yOffset : BitVec 2
  shifts : List (BitVec 2 × BitVec 2)
deriving DecidableEq, Repr

/-- The profile table, keyed by NF: exactly four rows (rule R146). -/
def profileRow : FieldCount → ProfileRow
  | .one => ⟨1, 0, 0, 0, 0, [(0, 0)]⟩
  | .two => ⟨1, 0, 0, 0, 0, [(0, 0), (0, 1)]⟩
  | .four => ⟨2, 1, 1, -1, -1, [(1, 0), (0, 1), (1, 2), (2, 1)]⟩
  | .eight => ⟨2, 1, 0, -1, 0, [(2, 0), (1, 0), (0, 1), (1, 1), (2, 1), (3, 1), (2, 2), (1, 2)]⟩

/-- Write a list of shifts to registers `k`, `k + 1`, ...; the others are left as they were (rule R145). -/
def loadShifts : Nat → List (BitVec 2) → Vector (BitVec 2) 8 → Vector (BitVec 2) 8
  | _, [], v => v
  | k, b :: l, v => loadShifts (k + 1) l (v.setIfInBounds k b)

/-- The profile registers after GSEL (rule R145). -/
def selectProfile (nf : FieldCount) (old : ProfileRegs) : ProfileRegs where
  scale := (profileRow nf).scale
  xcrop := (profileRow nf).xCrop
  ycrop := (profileRow nf).yCrop
  xoff := (profileRow nf).xOffset
  yoff := (profileRow nf).yOffset
  xshift := loadShifts 0 ((profileRow nf).shifts.map Prod.fst) old.xshift
  yshift := loadShifts 0 ((profileRow nf).shifts.map Prod.snd) old.yshift

/-- `WOUT = SCALE × WIDTH − XCROP` (rule R147), an integer before the register takes it (log 11). -/
def canvasWidth (p : ProfileRegs) (width : Nat) : Int := (p.scale.toNat * width : Nat) - (p.xcrop.toNat : Int)

/-- `HOUT = SCALE × HEIGHT × 2 − YCROP` (rule R147). -/
def canvasHeight (p : ProfileRegs) (height : Nat) : Int := (p.scale.toNat * height * 2 : Nat) - (p.ycrop.toNat : Int)

/-- The size registers after GSEL (rules R145, R147; 45_cropper.md rule R182). -/
def sizeCanvas (p : ProfileRegs) (width height : Nat) (cfg : BitVec 3) : Canvas where
  wout := BitVec.ofInt 17 (canvasWidth p width)
  hout := BitVec.ofInt 18 (canvasHeight p height)
  cc := channelCount cfg
  outW := BitVec.ofInt 17 (canvasWidth p width) - 1
  outH := BitVec.ofInt 18 (canvasHeight p height) - 1

/-- `GSEL` (rule R145). -/
def execGsel (s : State) : Result State :=
  let p := selectProfile s.geom.nf s.prof
  .next (((s.setProf p).setCanvas (sizeCanvas p s.geom.width.toNat s.geom.height.toNat s.cfg)).setPhase .lutbld)

end Sys2Proof.Machine
end

