-- ==== Sys2Proof/Machine/LogTable.lean ====
section
/-!
DEFINITION. The logarithmic-density table as printed in spec 47_log_curve_table.md rule R139: entry `s` is `LogDensity(s)` of
41_tone_curve.md rule R133 (log 13).
-/

namespace Sys2Proof.Machine

/-- Entries 0 to 63. -/
def logRows0 : List Nat :=
  [65535, 65234, 64934, 64636, 64339, 64043, 63749, 63456, 63165, 62874, 62585, 62298, 62012, 61727, 61443, 61161,
   60880, 60600, 60322, 60045, 59769, 59494, 59221, 58949, 58678, 58408, 58140, 57873, 57607, 57342, 57079, 56816,
   56555, 56295, 56037, 55779, 55523, 55268, 55014, 54761, 54510, 54259, 54010, 53762, 53515, 53269, 53024, 52780,
   52538, 52297, 52056, 51817, 51579, 51342, 51106, 50871, 50638, 50405, 50173, 49943, 49713, 49485, 49258, 49031]

/-- Entries 64 to 127. -/
def logRows1 : List Nat :=
  [48806, 48582, 48359, 48136, 47915, 47695, 47476, 47258, 47041, 46825, 46609, 46395, 46182, 45970, 45759, 45548,
   45339, 45131, 44923, 44717, 44512, 44307, 44104, 43901, 43699, 43498, 43299, 43100, 42902, 42704, 42508, 42313,
   42119, 41925, 41732, 41541, 41350, 41160, 40971, 40782, 40595, 40409, 40223, 40038, 39854, 39671, 39489, 39307,
   39127, 38947, 38768, 38590, 38413, 38236, 38060, 37886, 37711, 37538, 37366, 37194, 37023, 36853, 36684, 36515]

/-- Entries 128 to 191. -/
def logRows2 : List Nat :=
  [36347, 36180, 36014, 35849, 35684, 35520, 35357, 35194, 35033, 34872, 34711, 34552, 34393, 34235, 34078, 33921,
   33766, 33610, 33456, 33302, 33149, 32997, 32845, 32694, 32544, 32395, 32246, 32098, 31950, 31803, 31657, 31512,
   31367, 31223, 31079, 30937, 30795, 30653, 30512, 30372, 30232, 30094, 29955, 29818, 29681, 29544, 29409, 29273,
   29139, 29005, 28872, 28739, 28607, 28476, 28345, 28215, 28085, 27956, 27827, 27700, 27572, 27446, 27320, 27194]

/-- Entries 192 to 255. -/
def logRows3 : List Nat :=
  [27069, 26945, 26821, 26698, 26575, 26453, 26331, 26210, 26090, 25970, 25851, 25732, 25614, 25496, 25379, 25262,
   25146, 25031, 24916, 24801, 24687, 24574, 24461, 24349, 24237, 24125, 24014, 23904, 23794, 23685, 23576, 23468,
   23360, 23253, 23146, 23040, 22934, 22828, 22723, 22619, 22515, 22412, 22309, 22206, 22104, 22003, 21901, 21801,
   21701, 21601, 21502, 21403, 21305, 21207, 21109, 21012, 20916, 20820, 20724, 20629, 20534, 20440, 20346, 20252]

/-- Entries 256 to 319. -/
def logRows4 : List Nat :=
  [20159, 20067, 19974, 19883, 19791, 19700, 19610, 19520, 19430, 19341, 19252, 19163, 19075, 18988, 18901, 18814,
   18727, 18641, 18556, 18470, 18385, 18301, 18217, 18133, 18050, 17967, 17884, 17802, 17720, 17639, 17558, 17477,
   17397, 17317, 17237, 17158, 17079, 17001, 16923, 16845, 16768, 16691, 16614, 16538, 16462, 16386, 16311, 16236,
   16161, 16087, 16013, 15939, 15866, 15793, 15721, 15649, 15577, 15505, 15434, 15363, 15292, 15222, 15152, 15082]

/-- Entries 320 to 383. -/
def logRows5 : List Nat :=
  [15013, 14944, 14876, 14807, 14739, 14671, 14604, 14537, 14470, 14404, 14337, 14272, 14206, 14141, 14076, 14011,
   13947, 13883, 13819, 13755, 13692, 13629, 13567, 13504, 13442, 13381, 13319, 13258, 13197, 13136, 13076, 13016,
   12956, 12897, 12837, 12778, 12720, 12661, 12603, 12545, 12487, 12430, 12373, 12316, 12260, 12203, 12147, 12091,
   12036, 11980, 11925, 11871, 11816, 11762, 11708, 11654, 11600, 11547, 11494, 11441, 11389, 11336, 11284, 11232]

/-- Entries 384 to 447. -/
def logRows6 : List Nat :=
  [11181, 11129, 11078, 11027, 10977, 10926, 10876, 10826, 10776, 10727, 10678, 10629, 10580, 10531, 10483, 10435,
   10387, 10339, 10291, 10244, 10197, 10150, 10104, 10057, 10011, 9965, 9919, 9874, 9828, 9783, 9738, 9693,
   9649, 9604, 9560, 9516, 9473, 9429, 9386, 9343, 9300, 9257, 9215, 9172, 9130, 9088, 9046, 9005,
   8963, 8922, 8881, 8840, 8800, 8759, 8719, 8679, 8639, 8600, 8560, 8521, 8482, 8443, 8404, 8365]

/-- Entries 448 to 511. -/
def logRows7 : List Nat :=
  [8327, 8288, 8250, 8212, 8175, 8137, 8100, 8063, 8026, 7989, 7952, 7915, 7879, 7843, 7807, 7771,
   7735, 7700, 7664, 7629, 7594, 7559, 7524, 7490, 7455, 7421, 7387, 7353, 7319, 7286, 7252, 7219,
   7186, 7153, 7120, 7087, 7055, 7022, 6990, 6958, 6926, 6894, 6862, 6831, 6799, 6768, 6737, 6706,
   6675, 6645, 6614, 6584, 6554, 6523, 6493, 6464, 6434, 6404, 6375, 6346, 6316, 6287, 6259, 6230]

/-- Entries 512 to 575. -/
def logRows8 : List Nat :=
  [6201, 6173, 6144, 6116, 6088, 6060, 6032, 6004, 5977, 5949, 5922, 5895, 5868, 5841, 5814, 5787,
   5761, 5734, 5708, 5682, 5656, 5630, 5604, 5578, 5552, 5527, 5501, 5476, 5451, 5426, 5401, 5376,
   5351, 5327, 5302, 5278, 5254, 5230, 5206, 5182, 5158, 5134, 5111, 5087, 5064, 5040, 5017, 4994,
   4971, 4948, 4926, 4903, 4881, 4858, 4836, 4814, 4792, 4770, 4748, 4726, 4704, 4682, 4661, 4640]

/-- Entries 576 to 639. -/
def logRows9 : List Nat :=
  [4618, 4597, 4576, 4555, 4534, 4513, 4492, 4472, 4451, 4431, 4410, 4390, 4370, 4350, 4330, 4310,
   4290, 4270, 4251, 4231, 4212, 4193, 4173, 4154, 4135, 4116, 4097, 4078, 4060, 4041, 4022, 4004,
   3985, 3967, 3949, 3931, 3913, 3895, 3877, 3859, 3841, 3824, 3806, 3789, 3771, 3754, 3737, 3719,
   3702, 3685, 3668, 3652, 3635, 3618, 3601, 3585, 3568, 3552, 3536, 3519, 3503, 3487, 3471, 3455]

/-- Entries 640 to 703. -/
def logRows10 : List Nat :=
  [3439, 3424, 3408, 3392, 3377, 3361, 3346, 3330, 3315, 3300, 3285, 3269, 3254, 3239, 3225, 3210,
   3195, 3180, 3166, 3151, 3137, 3122, 3108, 3094, 3079, 3065, 3051, 3037, 3023, 3009, 2996, 2982,
   2968, 2954, 2941, 2927, 2914, 2901, 2887, 2874, 2861, 2848, 2834, 2821, 2808, 2796, 2783, 2770,
   2757, 2745, 2732, 2719, 2707, 2694, 2682, 2670, 2658, 2645, 2633, 2621, 2609, 2597, 2585, 2573]

/-- Entries 704 to 767. -/
def logRows11 : List Nat :=
  [2561, 2550, 2538, 2526, 2515, 2503, 2492, 2480, 2469, 2457, 2446, 2435, 2424, 2413, 2401, 2390,
   2379, 2368, 2358, 2347, 2336, 2325, 2315, 2304, 2293, 2283, 2272, 2262, 2252, 2241, 2231, 2221,
   2210, 2200, 2190, 2180, 2170, 2160, 2150, 2140, 2130, 2121, 2111, 2101, 2092, 2082, 2072, 2063,
   2053, 2044, 2035, 2025, 2016, 2007, 1997, 1988, 1979, 1970, 1961, 1952, 1943, 1934, 1925, 1916]

/-- Entries 768 to 831. -/
def logRows12 : List Nat :=
  [1908, 1899, 1890, 1881, 1873, 1864, 1856, 1847, 1839, 1830, 1822, 1813, 1805, 1797, 1788, 1780,
   1772, 1764, 1756, 1748, 1740, 1732, 1724, 1716, 1708, 1700, 1692, 1685, 1677, 1669, 1661, 1654,
   1646, 1639, 1631, 1624, 1616, 1609, 1601, 1594, 1587, 1579, 1572, 1565, 1558, 1551, 1543, 1536,
   1529, 1522, 1515, 1508, 1501, 1494, 1488, 1481, 1474, 1467, 1460, 1454, 1447, 1440, 1434, 1427]

/-- Entries 832 to 895. -/
def logRows13 : List Nat :=
  [1421, 1414, 1408, 1401, 1395, 1388, 1382, 1376, 1369, 1363, 1357, 1350, 1344, 1338, 1332, 1326,
   1320, 1314, 1308, 1302, 1296, 1290, 1284, 1278, 1272, 1266, 1260, 1255, 1249, 1243, 1237, 1232,
   1226, 1220, 1215, 1209, 1204, 1198, 1193, 1187, 1182, 1176, 1171, 1165, 1160, 1155, 1149, 1144,
   1139, 1134, 1128, 1123, 1118, 1113, 1108, 1103, 1098, 1093, 1088, 1083, 1078, 1073, 1068, 1063]

/-- Entries 896 to 959. -/
def logRows14 : List Nat :=
  [1058, 1053, 1048, 1043, 1039, 1034, 1029, 1024, 1020, 1015, 1010, 1006, 1001, 996, 992, 987,
   983, 978, 974, 969, 965, 960, 956, 952, 947, 943, 939, 934, 930, 926, 921, 917,
   913, 909, 905, 900, 896, 892, 888, 884, 880, 876, 872, 868, 864, 860, 856, 852,
   848, 844, 840, 837, 833, 829, 825, 821, 817, 814, 810, 806, 803, 799, 795, 792]

/-- Entries 960 to 1023. -/
def logRows15 : List Nat :=
  [788, 784, 781, 777, 774, 770, 766, 763, 759, 756, 752, 749, 746, 742, 739, 735,
   732, 729, 725, 722, 719, 715, 712, 709, 705, 702, 699, 696, 693, 689, 686, 683,
   680, 677, 674, 671, 668, 664, 661, 658, 655, 652, 649, 646, 643, 640, 637, 635,
   632, 629, 626, 623, 620, 617, 614, 612, 609, 606, 603, 600, 598, 595, 592, 589]

/-- The 1024 values of rule R139, in order, in blocks of 64. -/
def logBlocks : List (List Nat) :=
  [logRows0, logRows1, logRows2, logRows3, logRows4, logRows5, logRows6, logRows7,
   logRows8, logRows9, logRows10, logRows11, logRows12, logRows13, logRows14, logRows15]

/-- `LogDensity(s)` (rules R133, R139). -/
def logDensity (smp : Sample) : Cell16 :=
  BitVec.ofNat 16 (((logBlocks.getD (smp.toNat / 64) []).getD (smp.toNat % 64)) 0)

end Sys2Proof.Machine
end

