-- ==== Sys2Proof/Machine/ToneCurve.lean ====
section
/-!
DEFINITION. The tone-curve LUT array: the two curves, LUTBLD and LUTRD (spec 41_tone_curve.md).
-/

namespace Sys2Proof.Machine

/-- `Linear(g, s) = min(65535, floor(g × s × 65535 / 1023 + 1/2))`, exactly (rule R131, 00_scope.md rule R11). -/
def linear (g : Gain) (smp : Sample) : Cell16 :=
  BitVec.ofNat 16 (min 65535 ((2 * g.num * smp.toNat * 65535 + 1023 * g.den) / (2 * 1023 * g.den)))

/-- The curve a table holds (rule R130): the gain is read in linear mode only. -/
def curve (cfg : BitVec 3) (g : Gain) (smp : Sample) : Cell16 :=
  if modeLog cfg then logDensity smp else linear g smp

/-- One table of 1024 entries (rule R130, 10_state.md rule R31). -/
def buildTable (cfg : BitVec 3) (g : Gain) : Mem 16 :=
  memTable Config.lutEntries fun n => curve cfg g (BitVec.ofNat 10 n)

/-- The three tables (rules R130, R137): a function of MODE and the gains alone. -/
def buildTables (cfg : BitVec 3) (g : Gains) : Tables :=
  ⟨buildTable cfg g.red, buildTable cfg g.green, buildTable cfg g.blue⟩

/-- `LUTBLD` (rule R130): every entry of the three tables is written; the counters end at the last entry (log 10, log 19). -/
def execLutbld (s : State) : Result State :=
  .next (((s.setLut (buildTables s.cfg s.gains)).setCtr { s.ctr with lt := 2, li := 1023 }).setPhase .gclr)

/-- `LUTRD T[c], c, smp` (rule R136). -/
def execLutrd (c : BitVec 2) (smp : Sample) (s : State) : Result State :=
  andThen (readLut (tableOfChannel c) smp s) fun v =>
    .next (s.setDp { s.dp with tones := s.dp.tones.set c.toNat v c.isLt })

end Sys2Proof.Machine
end

