-- ==== Sys2Proof/Machine/Unpack.lean ====
section
/-!
DEFINITION. The sample unpacker, UNPK (spec 40_sample_unpacker.md).
-/

namespace Sys2Proof.Machine

/-- Is `(i, y, x)` a site of this run: `i < NF`, `y < HEIGHT`, `x < WIDTH` (rule R121, 43_field_remapper.md rule R156)? -/
def isSite (s : State) (i : BitVec 4) (y x : BitVec 16) : Bool :=
  decide (i.toNat < fieldCountNat s.geom.nf) && decide (y.toNat < s.geom.height.toNat) &&
    decide (x.toNat < s.geom.width.toNat)

/-- The number of the word that holds the sample (20_memory.md rule R64). -/
def sampleWord (s : State) (i : BitVec 4) (p : BitVec 2) (y x : BitVec 16) : Nat :=
  wordIndex s.geom.height.toNat s.geom.wpr.toNat i.toNat p.toNat y.toNat x.toNat

/-- `UNPK S[p], i, p, y, x` (rule R121); refused outside the operand ranges (rule R122). -/
def execUnpk (i : BitVec 4) (p : BitVec 2) (y x : BitVec 16) (s : State) : Result State :=
  if isSite s i y x then
    andThen (readRawWord (sampleWord s i p y x) s) fun w =>
      .next (s.setDp { s.dp with w32 := w, samples := s.dp.samples.set p.toNat (extractSample w x.toNat) p.isLt })
  else .refused (.operandRange "UNPK")

end Sys2Proof.Machine
end

