-- ==== Sys2Proof/Machine/Remap.lean ====
section
/-!
DEFINITION. The coordinate transform and field remapper: XFORM, RSITE, REMAP (spec 43_field_remapper.md).
-/

namespace Sys2Proof.Machine

/-- The canvas row of a site under the profile registers (rule R156, step 1). -/
def siteY (p : ProfileRegs) (i : BitVec 4) (y x : BitVec 16) : Int :=
  transformY p.scale.toNat (shiftOf p.yshift i) p.yoff.toInt y.toNat x.toNat

/-- The canvas column of a site under the profile registers (rule R156, step 2). -/
def siteX (p : ProfileRegs) (i : BitVec 4) (x : BitVec 16) : Int :=
  transformX p.scale.toNat (shiftOf p.xshift i) p.xoff.toInt x.toNat

/-- Is the site's position on the canvas (rule R156, step 3)? -/
def siteOnCanvas (s : State) (i : BitVec 4) (y x : BitVec 16) : Bool :=
  onCanvas s.canvas.wout.toNat s.canvas.hout.toNat (siteX s.prof i x) (siteY s.prof i y x)

/-- `XFORM i, y, x` (rule R156); refused outside the operand ranges (log 7). -/
def execXform (i : BitVec 4) (y x : BitVec 16) (s : State) : Result State :=
  if isSite s i y x then
    .next (s.setDp { s.dp with
      xp := BitVec.ofInt 18 (siteX s.prof i x)
      yp := BitVec.ofInt 19 (siteY s.prof i y x)
      inb := siteOnCanvas s i y x })
  else .refused (.operandRange "XFORM")

/-- `LUTRD T[c], c, S[3 − c]`: one lane of a site (41_tone_curve.md rule R138). -/
def toneLane (c : BitVec 2) (s : State) : Result State :=
  execLutrd c (s.dp.samples[(planeOfChannel c).toNat]'(planeOfChannel c).isLt) s

/-- `GRID[XP, YP, c] <- T[c]` (rule R158). -/
def storeTone (c : BitVec 2) (s : State) : Result State :=
  writeGrid s.dp.xp.toInt.toNat s.dp.yp.toInt.toNat c.toNat (s.dp.tones[c.toNat]'c.isLt) s

/-- The part of RSITE that runs for a site on the canvas (rule R158). -/
def writeSite (i : BitVec 4) (y x : BitVec 16) (s : State) : Result State :=
  andThen (forEach [0#2, 1#2, 2#2, 3#2] (fun p => execUnpk i p y x) s) fun s =>
  andThen (forEach [0#2, 1#2, 2#2] toneLane s) fun s =>
  andThen (forEach [0#2, 1#2, 2#2] storeTone s) fun s =>
    if s.canvas.cc = 4 then andThen (toneLane 3 s) (storeTone 3) else .next s

/-- `RSITE i, y, x` (rule R158); an off-canvas site writes nothing further (rule R157). -/
def execRsite (i : BitVec 4) (y x : BitVec 16) (s : State) : Result State :=
  andThen (execXform i y x s) fun s => if s.dp.inb then writeSite i y x s else .next s

/-- The sites `(i, y, x)` in the order of rule R155: field outermost, column innermost. -/
def remapSites (nf height width : Nat) : List (Nat × Nat × Nat) :=
  (List.range nf).flatMap fun i => (List.range height).flatMap fun y => (List.range width).map fun x => (i, y, x)

/-- One pass of REMAP's loop body: the counters take the site and RSITE reads them (10_state.md rule R36). -/
def remapSite (site : Nat × Nat × Nat) (s : State) : Result State :=
  let ctr : Counters := { s.ctr with
    fi := BitVec.ofNat 4 site.1, sy := BitVec.ofNat 16 site.2.1, sx := BitVec.ofNat 16 site.2.2 }
  execRsite ctr.fi ctr.sy ctr.sx (s.setCtr ctr)

/-- The phase after REMAP, the only data-dependent branch between stages (rule R155, 46_setup_and_output.md rule R192). -/
def afterRemap : FieldCount → Phase
  | .one => .fill
  | .two => .crop
  | .four => .fill
  | .eight => .crop

/-- `REMAP` (rule R155). -/
def execRemap (s : State) : Result State :=
  andThen (forEach (remapSites (fieldCountNat s.geom.nf) s.geom.height.toNat s.geom.width.toNat) remapSite s) fun t =>
    .next (t.setPhase (afterRemap s.geom.nf))

end Sys2Proof.Machine
end

