-- ==== Sys2Proof/Machine/Sequencer.lean ====
section
/-!
DEFINITION. Start, setup, output and the ends of a run: START, IDLE, LDGEOM, CHKSIZE, GCLR, EMIT, DONE (spec 46_setup_and_output.md)
and ERROR (60_exceptions.md rule R205).
-/

namespace Sys2Proof.Machine

/-- `START` (rule R185): accepted in IDLE; ignored in every other phase. -/
def execStart (s : State) : Result State :=
  if s.phase = .idle then .next ((s.setStatus startStatus).setPhase .ldgeom) else .next s

/-- `IDLE` (rule R185): "In IDLE the sequencer does nothing by itself". -/
def execIdle (s : State) : Result State := .next s

/-- Is there no usable metadata blob (60_exceptions.md rule R201)? -/
def metadataMissing (s : State) : Bool := !metaPresent s.cfg || decide (s.metaLen.toNat < Config.tagBytes)

/-- `LDGEOM` (rule R186). -/
def execLdgeom (s : State) : Result State :=
  if metadataMissing s then raise .metadataUnavailable s
  else
    andThen (readBe16 Config.tagWidthOffset s) fun w =>
    andThen (readBe16 Config.tagHeightOffset s) fun h =>
      .next ((s.setGeom { s.geom with width := w, height := h }).setPhase .chksize)

/-- The field count a dump length selects (30_encoding.md rule R98): none unless `FIELD_BYTES > 0` and the length is 1, 2, 4 or 8
fields. -/
def inferFieldCount (dumpLen fieldBytes : Nat) : Option FieldCount :=
  if fieldBytes = 0 then none
  else if dumpLen = 1 * fieldBytes then some .one
  else if dumpLen = 2 * fieldBytes then some .two
  else if dumpLen = 4 * fieldBytes then some .four
  else if dumpLen = 8 * fieldBytes then some .eight
  else none

/-- `CHKSIZE` (rule R187): WPR and FIELD_BYTES are written before the check, NF only when it passes. -/
def execChksize (s : State) : Result State :=
  let wpr := BitVec.ofNat 15 (wordsPerRow s.geom.width.toNat)
  let fb := BitVec.ofNat 35 (fieldBytesOf s.geom.height.toNat wpr.toNat)
  let t := s.setGeom { s.geom with wpr := wpr, fieldBytes := fb }
  match inferFieldCount s.dumpLen.toNat fb.toNat with
  | some nf => .next ((t.setGeom { t.geom with nf := nf }).setPhase .gsel)
  | none => raise .sizeMismatch t

/-- Where the linear index counter LIN ends after a loop over `n` values (10_state.md rule R36; log 10). -/
def afterLinear (n : Nat) (ctr : Counters) : Counters :=
  if n = 0 then ctr else { ctr with lin := BitVec.ofNat 38 (n - 1) }

/-- `GCLR` (rule R188): the first `WOUT × HOUT × CC` values become zero (log 19). -/
def execGclr (s : State) : Result State :=
  .next (((s.setGrid (memFill (gridSize s) 0 s.grid)).setCtr (afterLinear (gridSize s) s.ctr)).setPhase .remap)

/-- Present one value to the consumer (rule R189; log 14). -/
def presentValue (n : Nat) (s : State) : Result State :=
  andThen (readOutNumber n s) fun v =>
    .next ((s.setCtr { s.ctr with lin := BitVec.ofNat 38 n }).setEmitted (s.emitted ++ [v]))

/-- `EMIT` (rule R189): the values of OUT in increasing linear index, then DONE is entered (rule R190). -/
def execEmit (s : State) : Result State :=
  andThen (forEach (List.range (outSize s)) presentValue s) enterDone

/-- `DONE` (rule R190): terminal. The entry action holds already in a run, so the state stays as it is (log 3). -/
def execDone (s : State) : Result State := enterDone s

/-- `ERROR` (60_exceptions.md rules R205, R206): terminal. The trap entry with the code STATUS holds; in a run the state stays as it is
(log 3). -/
def execError (s : State) : Result State := raise s.status.errcode s

end Sys2Proof.Machine
end

