-- ==== Sys2Proof/Syntax.lean ====
section
/-!
DEFINITION. The operations of the FRC core: one constructor per row of spec/opcode_table.json. The command and the stage
operations take no operands (30_encoding.md rules R101, R103); the primitives take the operands of rule R104 in its order, each
as wide as the register that carries it (10_state.md rules R36, R37). The destination of a primitive is fixed by the design
(rule R106), so it is no operand.
-/

namespace Sys2Proof

inductive Instr
  /-- Host command START (46_setup_and_output.md rule R185). -/
  | start
  /-- Stage 0 (rule R185). -/
  | idle
  /-- Stage 1 (rule R186). -/
  | ldgeom
  /-- Stage 2 (rule R187). -/
  | chksize
  /-- Stage 3 (42_geometry_profile.md rule R145). -/
  | gsel
  /-- Stage 4 (41_tone_curve.md rule R130). -/
  | lutbld
  /-- Stage 5 (46_setup_and_output.md rule R188). -/
  | gclr
  /-- Stage 6 (43_field_remapper.md rule R155). -/
  | remap
  /-- Stage 7 (44_gap_filler.md rule R170). -/
  | fill
  /-- Stage 8 (45_cropper.md rule R180). -/
  | crop
  /-- Stage 9 (46_setup_and_output.md rule R189). -/
  | emit
  /-- Stage 10 (rule R190). -/
  | done
  /-- Stage 11 (60_exceptions.md rule R205). -/
  | error
  /-- Primitive 1, `UNPK S[p], i, p, y, x` (40_sample_unpacker.md rule R121). -/
  | unpk (i : BitVec 4) (p : BitVec 2) (y x : BitVec 16)
  /-- Primitive 2, `XFORM i, y, x` (43_field_remapper.md rule R156). -/
  | xform (i : BitVec 4) (y x : BitVec 16)
  /-- Primitive 3, `LUTRD T[c], c, s` (41_tone_curve.md rule R136). -/
  | lutrd (c : BitVec 2) (smp : Sample)
  /-- Primitive 4, `RSITE i, y, x` (43_field_remapper.md rule R158). -/
  | rsite (i : BitVec 4) (y x : BitVec 16)
  /-- Primitive 5, `AVG2 AV, a, b` (44_gap_filler.md rule R174). -/
  | avg2 (a b : Cell16)
  /-- Primitive 6, `FILLC x, y, c` (44_gap_filler.md rule R173). -/
  | fillc (x : BitVec 17) (y : BitVec 18) (c : BitVec 2)
  /-- Primitive 7, `CMOV x, y, c` (45_cropper.md rule R181). -/
  | cmov (x : BitVec 17) (y : BitVec 18) (c : BitVec 2)
deriving DecidableEq, Repr

end Sys2Proof
end

