-- ==== Sys2Proof/Machine/Dispatch.lean ====
section
/-!
DEFINITION. One arm per operation of spec/opcode_table.json: the meaning of each.
-/

namespace Sys2Proof.Machine

def exec (i : Instr) (s : State) : Host.Outcome State Fault Refusal :=
  match i with
  | .start => Sys2Proof.Machine.execStart s
  | .idle => Sys2Proof.Machine.execIdle s
  | .ldgeom => Sys2Proof.Machine.execLdgeom s
  | .chksize => Sys2Proof.Machine.execChksize s
  | .gsel => Sys2Proof.Machine.execGsel s
  | .lutbld => Sys2Proof.Machine.execLutbld s
  | .gclr => Sys2Proof.Machine.execGclr s
  | .remap => Sys2Proof.Machine.execRemap s
  | .fill => Sys2Proof.Machine.execFill s
  | .crop => Sys2Proof.Machine.execCrop s
  | .emit => Sys2Proof.Machine.execEmit s
  | .done => Sys2Proof.Machine.execDone s
  | .error => Sys2Proof.Machine.execError s
  | .unpk f p y x => Sys2Proof.Machine.execUnpk f p y x s
  | .xform f y x => Sys2Proof.Machine.execXform f y x s
  | .lutrd c smp => Sys2Proof.Machine.execLutrd c smp s
  | .rsite f y x => Sys2Proof.Machine.execRsite f y x s
  | .avg2 a b => Sys2Proof.Machine.execAvg2 a b s
  | .fillc x y c => Sys2Proof.Machine.execFillc x y c s
  | .cmov x y c => Sys2Proof.Machine.execCmov x y c s

end Sys2Proof.Machine
end

