-- ==== Sys2Proof/WellFormed.lean ====
section
/-!
DEFINITION. Which operations are well formed whatever the run: the operand ranges of the primitives' rules, with the largest
sizes of spec 00_scope.md rule R8 (height and width at most 65535, canvas at most 131069 by 262140, output at most 131068 by
262139, field index below 8). The ranges that depend on the run's registers are checked by the meanings.
-/

namespace Sys2Proof

/-- A field index below the largest field count and a sensor position below the largest sensor (rules R5, R6, R121). -/
def siteInRange (i : BitVec 4) (y x : BitVec 16) : Bool :=
  decide (i.toNat < 8) && decide (y.toNat < 65535) && decide (x.toNat < 65535)

/-- A gap cell inside the largest canvas: `1 ≤ x`, `1 ≤ y`, `x + y` even (44_gap_filler.md rule R173, 00_scope.md rule R8). -/
def gapCellInRange (x : BitVec 17) (y : BitVec 18) : Bool :=
  decide (1 ≤ x.toNat) && decide (x.toNat < 131069) && decide (1 ≤ y.toNat) && decide (y.toNat < 262140) &&
    decide ((x.toNat + y.toNat) % 2 = 0)

/-- An output cell inside the largest output raster (45_cropper.md rule R181, 00_scope.md rule R8). -/
def outCellInRange (x : BitVec 17) (y : BitVec 18) : Bool :=
  decide (x.toNat < 131068) && decide (y.toNat < 262139)

def Instr.wellFormed : Instr → Bool
  | .start => true
  | .idle => true
  | .ldgeom => true
  | .chksize => true
  | .gsel => true
  | .lutbld => true
  | .gclr => true
  | .remap => true
  | .fill => true
  | .crop => true
  | .emit => true
  | .done => true
  | .error => true
  | .unpk i _ y x => siteInRange i y x
  | .xform i y x => siteInRange i y x
  | .lutrd _ _ => true
  | .rsite i y x => siteInRange i y x
  | .avg2 _ _ => true
  | .fillc x y _ => gapCellInRange x y
  | .cmov x y _ => outCellInRange x y

end Sys2Proof
end

