-- ==== Sys2Proof/Decode.lean ====
section
/-!
DEFINITION. Decoding and encoding of the core's three code spaces (spec 30_encoding.md rules R101, R103, R104, R105). The place a
code is found in says its format: CMD holds an 8-bit command (format C), PHASE a 4-bit stage code (format S), the datapath select a
4-bit function code (format P) with the operands in lanes. The spec gives operands no bits; a lane of 18 bits, the widest operand,
each is the model's own (log 8). Reserved codes are rejected by name.
-/

namespace Sys2Proof

/-- A code together with the place it is found in (30_encoding.md rule R90). -/
inductive CodeWord
  /-- Format C: the content of CMD. -/
  | command (v : BitVec 8)
  /-- Format S: the content of PHASE. -/
  | stage (code : BitVec 4)
  /-- Format P: a function code and its operand lanes in the order of rule R104 (log 8). -/
  | primitive (code : BitVec 4) (lanes : List (BitVec 18))
deriving DecidableEq, Repr

/-- Why a code word stands for no operation (rule R105). -/
inductive DecodeError
  /-- CMD codes 0x00 and 0x02 to 0xFF (rule R101). -/
  | reservedCommand
  /-- Stage codes 12 to 15 (rule R103). -/
  | reservedStage
  /-- Function codes 0 and 8 to 15 (rule R104). -/
  | reservedPrimitive
  /-- A function code with the wrong number of operands. -/
  | operandCount
  /-- An operand value that its register cannot hold. -/
  | operandWidth
  /-- Operands outside the largest ranges of the operation's rule. -/
  | operandRange
deriving DecidableEq, Repr

/-- An operand read from a lane: it must fit the operand's width. -/
def fromLane (w : Nat) (v : BitVec 18) : Option (BitVec w) :=
  if v.toNat < 2 ^ w then some (v.setWidth w) else none

/-- Accept a decoded operation only when it is well formed. -/
def checked : Option Instr → Except DecodeError Instr
  | some i => if i.wellFormed then .ok i else .error .operandRange
  | none => .error .operandWidth

/-- Format C (rule R101). -/
def decodeCommand (v : BitVec 8) : Except DecodeError Instr :=
  if v = Config.startCode then .ok .start else .error .reservedCommand

/-- Format S (rule R103). -/
def decodeStage (code : BitVec 4) : Except DecodeError Instr :=
  match code.toNat with
  | 0 => .ok .idle
  | 1 => .ok .ldgeom
  | 2 => .ok .chksize
  | 3 => .ok .gsel
  | 4 => .ok .lutbld
  | 5 => .ok .gclr
  | 6 => .ok .remap
  | 7 => .ok .fill
  | 8 => .ok .crop
  | 9 => .ok .emit
  | 10 => .ok .done
  | 11 => .ok .error
  | _ => .error .reservedStage

/-- `UNPK` lanes `i, p, y, x`. -/
def unpkOfLanes (i p y x : BitVec 18) : Option Instr :=
  match fromLane 4 i, fromLane 2 p, fromLane 16 y, fromLane 16 x with
  | some i, some p, some y, some x => some (.unpk i p y x)
  | _, _, _, _ => none

/-- `XFORM` lanes `i, y, x`. -/
def xformOfLanes (i y x : BitVec 18) : Option Instr :=
  match fromLane 4 i, fromLane 16 y, fromLane 16 x with
  | some i, some y, some x => some (.xform i y x)
  | _, _, _ => none

/-- `LUTRD` lanes `c, s`. -/
def lutrdOfLanes (c s : BitVec 18) : Option Instr :=
  match fromLane 2 c, fromLane 10 s with
  | some c, some s => some (.lutrd c s)
  | _, _ => none

/-- `RSITE` lanes `i, y, x`. -/
def rsiteOfLanes (i y x : BitVec 18) : Option Instr :=
  match fromLane 4 i, fromLane 16 y, fromLane 16 x with
  | some i, some y, some x => some (.rsite i y x)
  | _, _, _ => none

/-- `AVG2` lanes `a, b`. -/
def avg2OfLanes (a b : BitVec 18) : Option Instr :=
  match fromLane 16 a, fromLane 16 b with
  | some a, some b => some (.avg2 a b)
  | _, _ => none

/-- `FILLC` lanes `x, y, c`; the row fills its lane. -/
def fillcOfLanes (x y c : BitVec 18) : Option Instr :=
  match fromLane 17 x, fromLane 2 c with
  | some x, some c => some (.fillc x y c)
  | _, _ => none

/-- `CMOV` lanes `x, y, c`; the row fills its lane. -/
def cmovOfLanes (x y c : BitVec 18) : Option Instr :=
  match fromLane 17 x, fromLane 2 c with
  | some x, some c => some (.cmov x y c)
  | _, _ => none

/-- Format P (rule R104). -/
def decodePrimitive (code : BitVec 4) (lanes : List (BitVec 18)) : Except DecodeError Instr :=
  match code.toNat, lanes with
  | 1, [i, p, y, x] => checked (unpkOfLanes i p y x)
  | 2, [i, y, x] => checked (xformOfLanes i y x)
  | 3, [c, s] => checked (lutrdOfLanes c s)
  | 4, [i, y, x] => checked (rsiteOfLanes i y x)
  | 5, [a, b] => checked (avg2OfLanes a b)
  | 6, [x, y, c] => checked (fillcOfLanes x y c)
  | 7, [x, y, c] => checked (cmovOfLanes x y c)
  | n, _ => if 1 ≤ n ∧ n ≤ 7 then .error .operandCount else .error .reservedPrimitive

/-- The decoder: total, rejecting by name. -/
def decode : CodeWord → Except DecodeError Instr
  | .command v => decodeCommand v
  | .stage code => decodeStage code
  | .primitive code lanes => decodePrimitive code lanes

/-- The encoder, from the tables of rules R101, R103 and R104. -/
def encode : Instr → CodeWord
  | .start => .command 0x01#8
  | .idle => .stage 0#4
  | .ldgeom => .stage 1#4
  | .chksize => .stage 2#4
  | .gsel => .stage 3#4
  | .lutbld => .stage 4#4
  | .gclr => .stage 5#4
  | .remap => .stage 6#4
  | .fill => .stage 7#4
  | .crop => .stage 8#4
  | .emit => .stage 9#4
  | .done => .stage 10#4
  | .error => .stage 11#4
  | .unpk i p y x => .primitive 1#4 [i.setWidth 18, p.setWidth 18, y.setWidth 18, x.setWidth 18]
  | .xform i y x => .primitive 2#4 [i.setWidth 18, y.setWidth 18, x.setWidth 18]
  | .lutrd c s => .primitive 3#4 [c.setWidth 18, s.setWidth 18]
  | .rsite i y x => .primitive 4#4 [i.setWidth 18, y.setWidth 18, x.setWidth 18]
  | .avg2 a b => .primitive 5#4 [a.setWidth 18, b.setWidth 18]
  | .fillc x y c => .primitive 6#4 [x.setWidth 18, y, c.setWidth 18]
  | .cmov x y c => .primitive 7#4 [x.setWidth 18, y, c.setWidth 18]

/-- Where a word numbered as spec/opcode_table.json numbers it is found (log 9). The table's formats C, S and P use the same numbers
and a word carries no format: up to 4 bits it is a stage code; a whole byte is the command START when it is 0x01, a stage code when it
is another number below 16, and a (reserved) command otherwise. A function code cannot be told from a stage code. -/
def tableCodeWord (nbits w : Nat) : Option CodeWord :=
  if 256 ≤ w then none
  else if w = 1 ∧ 4 < nbits then some (.command 0x01#8)
  else if w < 16 then some (.stage (BitVec.ofNat 4 w))
  else some (.command (BitVec.ofNat 8 w))

/-- The operation the decoder reads from a word of spec/opcode_table.json's numbering. -/
def decodeTableWord (nbits w : Nat) : Option Instr :=
  match tableCodeWord nbits w with
  | some cw =>
    match decode cw with
    | .ok i => some i
    | .error _ => none
  | none => none

end Sys2Proof
end

