-- ==== Sys2Proof/Machine/Fetch.lean ====
section
/-!
DEFINITION. Where the next operation is found (spec 10_state.md rule R35, 30_encoding.md rules R101, R107): in IDLE a pending START in CMD, otherwise the
code of PHASE. There is no instruction memory (20_memory.md rule R79).
-/

namespace Sys2Proof.Machine

/-- The code word the step decodes. -/
def fetchWord (s : State) : CodeWord :=
  if s.phase = .idle ∧ s.cmd = Config.startCode then .command s.cmd else .stage (phaseCode s.phase)

/-- Make a code word the one that is fetched next: a command is pending in IDLE, a stage code is PHASE. In IDLE as a stage no command
is pending. A function code is found in neither place (30_encoding.md rule R104), nor is a reserved stage code. -/
def placeCode (s : State) : CodeWord → State
  | .command v => { s with phase := .idle, cmd := v }
  | .stage code =>
    match phaseOfCode code with
    | some .idle => { s with phase := .idle, cmd := 0 }
    | some p => { s with phase := p }
    | none => s
  | .primitive _ _ => s

end Sys2Proof.Machine
end

