-- ==== Sys2Proof/Machine/Step.lean ====
section
/-!
DEFINITION. One step of the sequencer: one operation of the fixed sequence, its whole effect at once (spec 30_encoding.md rule R107; log 1).
-/

namespace Sys2Proof.Machine

/-- One step: fetch a code, decode it, run the operation. Each operation names its own successor (46_setup_and_output.md rule R192), so the
step adds nothing around it. -/
def step (s : State) : Host.Outcome State Fault Refusal :=
  match decode (fetchWord s) with
  | .ok i => exec i s
  | .error _ => .fault .invalidCode

/-- `s` with the operation of a word of spec/opcode_table.json's numbering placed where the step fetches its next one (log 9). -/
def State.withFetchWord (s : State) (nbits w : Nat) : State :=
  match tableCodeWord nbits w with
  | some cw => placeCode s cw
  | none => s

end Sys2Proof.Machine
end

