-- ==== Sys2Proof/Machine/Port.lean ====
section
/-!
DEFINITION. The host's side: the control registers by number (spec 10_state.md rule R30), what the host may write and read and when
(rule R42), and reset (70_reset_and_hazards.md rule R230). The host acts between steps (log 15).
-/

namespace Sys2Proof.Machine

/-! ### Control registers -/

/-- The registers of rule R30, the three gains included; a shift array is one register per entry. When the host may read its own registers
is the model's choice (log 16), and so is that it may read META and RAW, which are no registers (log 23). -/
inductive CtlReg
  | cmd | status | cfg | metaLen | dumpLen | width | height | wpr | fieldBytes | nf | scale | xcrop | ycrop | xoff | yoff
  | xshift (k : Fin 8)
  | yshift (k : Fin 8)
  | wout | hout | cc | outW | outH | phase | gainR | gainG | gainB
deriving DecidableEq, Repr

/-- What a register holds: bits as an unsigned number, or a rational (rule R30: "rational, no format"). -/
inductive CtlValue
  | bits (n : Nat)
  | rational (g : Gain)
deriving DecidableEq, Repr

/-- The number of a register, CR0 to CR22; the gains have none (rule R30). -/
def ctlNumber : CtlReg → Option Nat
  | .cmd => some 0
  | .status => some 1
  | .cfg => some 2
  | .metaLen => some 3
  | .dumpLen => some 4
  | .width => some 5
  | .height => some 6
  | .wpr => some 7
  | .fieldBytes => some 8
  | .nf => some 9
  | .scale => some 10
  | .xcrop => some 11
  | .ycrop => some 12
  | .xoff => some 13
  | .yoff => some 14
  | .xshift _ => some 15
  | .yshift _ => some 16
  | .wout => some 17
  | .hout => some 18
  | .cc => some 19
  | .outW => some 20
  | .outH => some 21
  | .phase => some 22
  | .gainR => none
  | .gainG => none
  | .gainB => none

/-- The content of a register; XOFF and YOFF give their two's complement bits. -/
def ctlValue (s : State) : CtlReg → CtlValue
  | .cmd => .bits s.cmd.toNat
  | .status => .bits ((statusBits s.status).toNat)
  | .cfg => .bits s.cfg.toNat
  | .metaLen => .bits s.metaLen.toNat
  | .dumpLen => .bits s.dumpLen.toNat
  | .width => .bits s.geom.width.toNat
  | .height => .bits s.geom.height.toNat
  | .wpr => .bits s.geom.wpr.toNat
  | .fieldBytes => .bits s.geom.fieldBytes.toNat
  | .nf => .bits (fieldCountNat s.geom.nf)
  | .scale => .bits s.prof.scale.toNat
  | .xcrop => .bits s.prof.xcrop.toNat
  | .ycrop => .bits s.prof.ycrop.toNat
  | .xoff => .bits s.prof.xoff.toNat
  | .yoff => .bits s.prof.yoff.toNat
  | .xshift k => .bits s.prof.xshift[k].toNat
  | .yshift k => .bits s.prof.yshift[k].toNat
  | .wout => .bits s.canvas.wout.toNat
  | .hout => .bits s.canvas.hout.toNat
  | .cc => .bits s.canvas.cc.toNat
  | .outW => .bits s.canvas.outW.toNat
  | .outH => .bits s.canvas.outH.toNat
  | .phase => .bits ((phaseCode s.phase).toNat)
  | .gainR => .rational s.gains.red
  | .gainG => .rational s.gains.green
  | .gainB => .rational s.gains.blue

/-! ### Reads -/

/-- Registers SizeMismatch leaves written (60_exceptions.md rules R200, R202). -/
def writtenBeforeSizeMismatch : CtlReg → Bool
  | .width => true
  | .height => true
  | .wpr => true
  | .fieldBytes => true
  | _ => false

/-- The host's own registers, STATUS and PHASE: readable at any time (rules R30, R42; log 16). -/
def readableAlways : CtlReg → Bool
  | .cmd => true
  | .status => true
  | .cfg => true
  | .metaLen => true
  | .dumpLen => true
  | .phase => true
  | .gainR => true
  | .gainG => true
  | .gainB => true
  | _ => false

/-- May the host read this register now (rule R42)? -/
def mayReadCtl (s : State) (r : CtlReg) : Bool :=
  readableAlways r || decide (s.phase = .done) ||
    (decide (s.phase = .error) && decide (s.status.errcode = .sizeMismatch) && writtenBeforeSizeMismatch r)

/-- A host read of a control register; it changes nothing (20_memory.md rule R71). -/
def hostReadCtl (r : CtlReg) (s : State) : Result CtlValue :=
  if mayReadCtl s r then .next (ctlValue s r) else .refused .hostReadDenied

/-- A host read of `LUT[t][smp]`, at DONE only (rule R42). -/
def hostReadLut (t : Fin 3) (smp : Sample) (s : State) : Result Cell16 :=
  if s.phase = .done then readLut t.val smp s else .refused .hostReadDenied

/-- A host read of `GRID[x, y, c]`, at DONE only (rule R42). -/
def hostReadGrid (x y c : Nat) (s : State) : Result Cell16 :=
  if s.phase = .done then readGrid x y c s else .refused .hostReadDenied

/-- A host read of `OUT[x, y, c]`, at DONE only (rules R34, R42). -/
def hostReadOut (x y c : Nat) (s : State) : Result Cell16 :=
  if s.phase = .done then readOut x y c s else .refused .hostReadDenied

/-- A host read of `META[a]`, at DONE only (46_setup_and_output.md rule R190; log 23). -/
def hostReadMeta (a : Nat) (s : State) : Result Byte :=
  if s.phase = .done then readMeta a s else .refused .hostReadDenied

/-- A host read of `RAW[a]`, at DONE only (46_setup_and_output.md rule R190; log 23). -/
def hostReadRaw (a : Nat) (s : State) : Result Byte :=
  if s.phase = .done then readRaw a s else .refused .hostReadDenied

/-! ### Writes and reset -/

/-- What the host can do to the core. -/
inductive HostMove
  | writeCmd (v : BitVec 8)
  | writeCfg (v : BitVec 3)
  | writeMetaLen (v : BitVec 32)
  | writeDumpLen (v : BitVec 64)
  | writeGains (g : Gains)
  | loadMeta (a : BitVec 32) (b : Byte)
  | loadRaw (a : BitVec 64) (b : Byte)
  | reset
deriving DecidableEq, Repr

/-- A host write of CMD (46_setup_and_output.md rule R185): START in IDLE is accepted; every other write changes no state. -/
def hostWriteCmd (v : BitVec 8) (s : State) : Result State :=
  if s.phase = .idle ∧ v = Config.startCode then execStart { s with cmd := v } else .next s

/-- A host write of an input, in IDLE only (rule R42; 93_implementation_defined.md U9: "refuse"). -/
def hostWriteInput (s t : State) : Result State :=
  if s.phase = .idle then .next t else .refused .hostMoveDenied

/-- One move of the host. After reset everything but PHASE, STATUS and CMD is unspecified (rule R230); the model takes the values of
`State.reset` (logs 4 to 6). -/
def hostMove (m : HostMove) (s : State) : Result State :=
  match m with
  | .writeCmd v => hostWriteCmd v s
  | .writeCfg v => hostWriteInput s { s with cfg := v }
  | .writeMetaLen v => hostWriteInput s { s with metaLen := v }
  | .writeDumpLen v => hostWriteInput s { s with dumpLen := v }
  | .writeGains g => hostWriteInput s { s with gains := g }
  | .loadMeta a b => hostWriteInput s { s with metaBlob := memWrite s.metaBlob a.toNat b }
  | .loadRaw a b => hostWriteInput s { s with raw := memWrite s.raw a.toNat b }
  | .reset => .next State.reset

/-! ### A byte view of the output -/

/-- The presented values as bytes in the open order `OUT_BYTE_ORDER` (00_scope.md rule R7, 20_memory.md rule R78). -/
def emittedBytes (s : State) : List Byte := s.emitted.flatMap (cellBytes Config.outByteOrder)

end Sys2Proof.Machine
end

