-- ==== Sys2Proof/Machine/Run.lean ====
section
/-!
DEFINITION. The pseudo-operation RUN (spec 30_encoding.md rule R106, 46_setup_and_output.md rule R191): a write of START and then the fixed
sequence to its end.
-/

namespace Sys2Proof.Machine

/-- `n` steps of the sequencer. -/
def runSteps : Nat → State → Result State
  | 0, s => .next s
  | n + 1, s => andThen (step s) (runSteps n)

/-- `RUN`: START, then nine operations (LDGEOM, CHKSIZE, GSEL, LUTBLD, GCLR, REMAP, FILL, CROP, EMIT); a run that ends sooner rests in its
terminal phase (30_encoding.md rule R107). -/
def execRun (s : State) : Result State := andThen (hostWriteCmd Config.startCode s) (runSteps 9)

end Sys2Proof.Machine
end

