-- ==== Sys2Proof/Safety.lean ====
section
/-!
DEFINITION. What a sound run is, in the terms the statements use: the duties of the host before START, the invariant every step keeps, the end of
a run, and the values a run must produce as functions of its inputs alone (spec 46_setup_and_output.md rule R191).
-/

namespace Sys2Proof.Machine

/-! ### Runs -/

/-- The end of a run (70_reset_and_hazards.md rule R240). -/
def Ended (s : State) : Prop := s.phase = .done ∨ s.phase = .error

/-- The host's duties of 70_reset_and_hazards.md rule R232: when there is a usable blob, the four bytes LDGEOM reads and every byte of the
dump are loaded; when there is none, nothing need be. -/
def InputsLoaded (s : State) : Prop :=
  metadataMissing s = false →
    (∀ a ∈ [0xA, 0xB, 0xE, 0xF], (memRead s.metaBlob a).isSome) ∧ ∀ a < s.dumpLen.toNat, (memRead s.raw a).isSome

/-- The inputs the host owns are as they were (10_state.md rules R20, R42). -/
def SameInputs (s t : State) : Prop :=
  t.cmd = s.cmd ∧ t.cfg = s.cfg ∧ t.metaLen = s.metaLen ∧ t.dumpLen = s.dumpLen ∧ t.gains = s.gains ∧ t.metaBlob = s.metaBlob ∧ t.raw = s.raw

/-! ### The invariant -/

/-- Has a run got to the operation with code `n` without an exception (30_encoding.md rule R107)? -/
def reached (p : Phase) (n : Nat) : Bool := decide (n ≤ (phaseCode p).toNat) && decide ((phaseCode p).toNat ≤ 10)

/-- STATUS goes with PHASE: BUSY exactly while a run is under way, DONE exactly in DONE, ERR and a code exactly in ERROR (10_state.md
rule R38; values of 95_test_vectors.md V60.1). -/
def StatusFits (s : State) : Prop :=
  match s.phase with
  | .idle => s.status = ⟨false, false, false, .none⟩
  | .done => s.status = ⟨false, true, false, .none⟩
  | .error => s.status = ⟨false, false, true, .metadataUnavailable⟩ ∨ s.status = ⟨false, false, true, .sizeMismatch⟩
  | .ldgeom => s.status = startStatus
  | .chksize => s.status = startStatus
  | .gsel => s.status = startStatus
  | .lutbld => s.status = startStatus
  | .gclr => s.status = startStatus
  | .remap => s.status = startStatus
  | .fill => s.status = startStatus
  | .crop => s.status = startStatus
  | .emit => s.status = startStatus

/-- The five memories have their canonical form. -/
def MemoriesWf (s : State) : Prop :=
  memWf s.metaBlob = true ∧ memWf s.raw = true ∧
    (memWf s.lut.red = true ∧ memWf s.lut.green = true ∧ memWf s.lut.blue = true) ∧ memWf s.grid = true ∧ memWf s.out = true

/-- WPR, FIELD_BYTES and NF are what CHKSIZE infers (46_setup_and_output.md rule R187). -/
def SizesInferred (s : State) : Prop :=
  s.geom.wpr.toNat = wordsPerRow s.geom.width.toNat ∧
    s.geom.fieldBytes.toNat = fieldBytesOf s.geom.height.toNat s.geom.wpr.toNat ∧
      inferFieldCount s.dumpLen.toNat s.geom.fieldBytes.toNat = some s.geom.nf

/-- The profile and size registers are those of NF's row (42_geometry_profile.md rules R145 to R147). -/
def ProfileSelected (s : State) : Prop :=
  s.prof = selectProfile s.geom.nf s.prof ∧
    s.canvas = sizeCanvas s.prof s.geom.width.toNat s.geom.height.toNat s.cfg

/-- The tables are those of the mode and the gains (41_tone_curve.md rule R130). -/
def TablesBuilt (s : State) : Prop := s.lut = buildTables s.cfg s.gains

/-- Every value of GRID has been written (46_setup_and_output.md rule R188). -/
def GridWritten (s : State) : Prop := ∀ n < gridSize s, (memRead s.grid n).isSome

/-- Every value of OUT has been written (45_cropper.md rule R183). -/
def OutWritten (s : State) : Prop := ∀ n < outSize s, (memRead s.out n).isSome

/-- The invariant of the machine. -/
structure Inv (s : State) : Prop where
  memories : MemoriesWf s
  status : StatusFits s
  /-- LDGEOM has found a usable blob (46_setup_and_output.md rule R186). -/
  blob : reached s.phase 2 = true → metadataMissing s = false
  sizes : reached s.phase 3 = true → SizesInferred s
  profile : reached s.phase 4 = true → ProfileSelected s
  tables : reached s.phase 5 = true → TablesBuilt s
  grid : reached s.phase 6 = true → GridWritten s
  out : reached s.phase 9 = true → OutWritten s
  /-- FILL runs for one or four fields only (44_gap_filler.md rule R177). -/
  fill : s.phase = .fill → s.geom.nf = .one ∨ s.geom.nf = .four

/-! ### What a run must produce, as functions of its inputs -/

/-- The word of the dump with number `k`, where its bytes are loaded (20_memory.md rule R62). -/
def dumpWord (raw : Mem 8) (k : Nat) : Option PackedWord :=
  match memRead raw (4 * k), memRead raw (4 * k + 1), memRead raw (4 * k + 2), memRead raw (4 * k + 3) with
  | some b0, some b1, some b2, some b3 => some (littleEndian b0 b1 b2 b3)
  | _, _, _, _ => none

/-- The sample of field `i`, plane `p`, row `y`, column `x` of a dump of `width × height` fields (40_sample_unpacker.md rule R121). -/
def dumpSample (raw : Mem 8) (width height i p y x : Nat) : Option Sample :=
  (dumpWord raw (wordIndex height (wordsPerRow width) i p y x)).map fun w => extractSample w x

/-- The gain that belongs to a table (41_tone_curve.md rule R130). -/
def gainAt (g : Gains) (t : Nat) : Gain :=
  match t with
  | 0 => g.red
  | 1 => g.green
  | _ => g.blue

/-- The tone-mapped value of channel `c` for a raw sample (rules R130, R136). -/
def toneOf (cfg : BitVec 3) (g : Gains) (c : Nat) (smp : Sample) : Cell16 := curve cfg (gainAt g (min c 2)) smp

/-- Where a site lands under the profile of a field count (43_field_remapper.md rule R156). -/
def siteTarget (nf : FieldCount) (i y x : Nat) : Int × Int :=
  let row := profileRow nf
  let shift := row.shifts.getD i (0, 0)
  (transformX row.scale.toNat shift.1.toNat row.xOffset.toInt x, transformY row.scale.toNat shift.2.toNat row.yOffset.toInt y x)

/-- The first site that lands on canvas cell `(X, Y)`, if one does. -/
def siteOf (nf : FieldCount) (width height X Y : Nat) : Option (Nat × Nat × Nat) :=
  (remapSites (fieldCountNat nf) height width).find? fun site =>
    decide (siteTarget nf site.1 site.2.1 site.2.2 = ((X : Int), (Y : Int)))

/-- `G1[X, Y, c]` of rule R191: the tone-mapped sample of the site that lands there, zero where none does. -/
def remappedValue (s : State) (nf : FieldCount) (width height X Y c : Nat) : Option Cell16 :=
  match siteOf nf width height X Y with
  | some site => (dumpSample s.raw width height site.1 (3 - c) site.2.1 site.2.2).map (toneOf s.cfg s.gains c)
  | none => some 0

/-- Does a run with this field count fill (rule R191, 44_gap_filler.md rule R170)? -/
def fills : FieldCount → Bool
  | .one => true
  | .two => false
  | .four => true
  | .eight => false

/-- `G2[X, Y, c]` of rule R191: a gap cell takes the average of the cell above and the cell to the left, another cell stays. -/
def finalValue (s : State) (nf : FieldCount) (width height X Y c : Nat) : Option Cell16 :=
  if fills nf ∧ 1 ≤ X ∧ 1 ≤ Y ∧ (X + Y) % 2 = 0 then
    match remappedValue s nf width height X (Y - 1) c, remappedValue s nf width height (X - 1) Y c with
    | some a, some b => some (average a b)
    | _, _ => none
  else remappedValue s nf width height X Y c

end Sys2Proof.Machine
end

