-- ==== Sys2Proof/Certificates/Slice0/Obligations.lean ====
section
/-!
DEFINITION. The statements about the FRC core, each from the rules of spec/ its docstring cites. Numbers that the spec prints in a
table are written out here again, not taken from the model's definitions.
-/

open Sys2Proof Sys2Proof.Machine

namespace Sys2Proof.Claims

/-- The profile table of 42_geometry_profile.md rule R146, written out: scale, crops, offsets, shift pairs. -/
def profileTable : FieldCount → Nat × (Nat × Nat) × (Int × Int) × List (Nat × Nat)
  | .one => (1, (0, 0), (0, 0), [(0, 0)])
  | .two => (1, (0, 0), (0, 0), [(0, 0), (0, 1)])
  | .four => (2, (1, 1), (-1, -1), [(1, 0), (0, 1), (1, 2), (2, 1)])
  | .eight => (2, (1, 0), (-1, 0), [(2, 0), (1, 0), (0, 1), (1, 1), (2, 1), (3, 1), (2, 2), (1, 2)])

/-- WOUT of rule R147's table. -/
def canvasColumns (nf : FieldCount) (width : Nat) : Nat :=
  match nf with
  | .one => width
  | .two => width
  | .four => 2 * width - 1
  | .eight => 2 * width - 1

/-- HOUT of rule R147's table. -/
def canvasRows (nf : FieldCount) (height : Nat) : Nat :=
  match nf with
  | .one => 2 * height
  | .two => 2 * height
  | .four => 4 * height - 1
  | .eight => 4 * height

/-- A site of a run with these sizes (00_scope.md rule R15). -/
def Site (nf : FieldCount) (width height i y x : Nat) : Prop := i < fieldCountNat nf ∧ y < height ∧ x < width

/-- The primitives: format P of 30_encoding.md rule R104. -/
def isPrimitive : Instr → Bool
  | .unpk _ _ _ _ => true
  | .xform _ _ _ => true
  | .lutrd _ _ => true
  | .rsite _ _ _ => true
  | .avg2 _ _ => true
  | .fillc _ _ _ => true
  | .cmov _ _ _ => true
  | _ => false

end Sys2Proof.Claims

open Sys2Proof.Claims

/-! ### Codes -/

/-- Decode and encode agree on every well-formed operation (30_encoding.md rules R101, R103, R104; the operand lanes are the
model's, log 8). -/
def Obligations.DecodeInvertsEncode : Prop :=
  ∀ i : Instr, i.wellFormed = true → decode (encode i) = .ok i

/-- Each code word has one meaning: what decodes is the encoding of a well-formed operation (rules R101, R103, R104; log 8). -/
def Obligations.EncodeInvertsDecode : Prop :=
  ∀ (w : CodeWord) (i : Instr), decode w = .ok i → encode i = w ∧ i.wellFormed = true

/-- The codes of rules R101 and R103, and one operand list for each function code of rule R104 (lanes: log 8). -/
def Obligations.PrintedCodesDecode : Prop :=
  decode (.command 0x01#8) = .ok .start ∧
  decode (.stage 0#4) = .ok .idle ∧ decode (.stage 1#4) = .ok .ldgeom ∧ decode (.stage 2#4) = .ok .chksize ∧
  decode (.stage 3#4) = .ok .gsel ∧ decode (.stage 4#4) = .ok .lutbld ∧ decode (.stage 5#4) = .ok .gclr ∧
  decode (.stage 6#4) = .ok .remap ∧ decode (.stage 7#4) = .ok .fill ∧ decode (.stage 8#4) = .ok .crop ∧
  decode (.stage 9#4) = .ok .emit ∧ decode (.stage 10#4) = .ok .done ∧ decode (.stage 11#4) = .ok .error ∧
  decode (.primitive 1#4 [1, 3, 0, 3]) = .ok (.unpk 1 3 0 3) ∧
  decode (.primitive 2#4 [2, 0, 1]) = .ok (.xform 2 0 1) ∧
  decode (.primitive 3#4 [3, 1023]) = .ok (.lutrd 3 1023) ∧
  decode (.primitive 4#4 [1, 0, 1]) = .ok (.rsite 1 0 1) ∧
  decode (.primitive 5#4 [65535, 0]) = .ok (.avg2 65535 0) ∧
  decode (.primitive 6#4 [1, 1, 0]) = .ok (.fillc 1 1 0) ∧
  decode (.primitive 7#4 [1, 0, 2]) = .ok (.cmov 1 0 2)

/-- Reserved codes are no operation (30_encoding.md rule R105, items e and f). -/
def Obligations.ReservedCodesDecodeToNothing : Prop :=
  (∀ v : BitVec 8, v ≠ 0x01#8 → decode (.command v) = .error .reservedCommand) ∧
  (∀ c : BitVec 4, 12 ≤ c.toNat → decode (.stage c) = .error .reservedStage) ∧
  (∀ (c : BitVec 4) (lanes : List (BitVec 18)), c.toNat = 0 ∨ 8 ≤ c.toNat →
    decode (.primitive c lanes) = .error .reservedPrimitive)

/-- A step runs the decoded operation (30_encoding.md rule R107). Two points are the model's choice, not the spec's words: that in IDLE with
CMD = 0x01 it is START that is fetched, where rules R35 and R103 name IDLE for code 0 (log 2), and that DONE and ERROR have an operation to
run, where rules R190 and R206 say "no step" (log 3). Otherwise the code of PHASE is fetched, and a state always has an operation to run. -/
def Obligations.StepRunsFetchedOperation : Prop :=
  (∀ (s : State) (i : Instr), decode (fetchWord s) = .ok i → step s = exec i s) ∧
  (∀ s : State, s.phase = .idle → s.cmd = 0x01#8 → decode (fetchWord s) = .ok .start) ∧
  (∀ s : State, ¬(s.phase = .idle ∧ s.cmd = 0x01#8) →
    ∃ i, decode (fetchWord s) = .ok i ∧ encode i = .stage (phaseCode s.phase))

/-- The bits of STATUS (30_encoding.md rule R102). -/
def Obligations.StatusBitLayout : Prop :=
  ∀ st : Status, (statusBits st).getLsbD 0 = st.busy ∧ (statusBits st).getLsbD 1 = st.done ∧ (statusBits st).getLsbD 2 = st.err ∧
    (statusBits st).toNat / 8 % 4 = (match st.errcode with | .none => 0 | .metadataUnavailable => 1 | .sizeMismatch => 2) ∧
    (statusBits st).toNat < 32

/-! ### Start, setup and the two exceptions -/

/-- START and IDLE (46_setup_and_output.md rule R185, 30_encoding.md rule R101). What CMD itself holds after an accepted write is left
open here. -/
def Obligations.StartIsAcceptedInIdleOnly : Prop :=
  ∀ s : State,
    (s.phase = .idle →
      (∃ v, hostWriteCmd 0x01#8 s = .next { s with cmd := v, status := ⟨true, false, false, .none⟩, phase := .ldgeom }) ∧
      exec .start s = .next { s with status := ⟨true, false, false, .none⟩, phase := .ldgeom }) ∧
    (s.phase ≠ .idle → exec .start s = .next s) ∧
    (∀ v : BitVec 8, ¬(s.phase = .idle ∧ v = 0x01#8) → hostWriteCmd v s = .next s) ∧
    exec .idle s = .next s

/-- Byte orders: `Be16(a)` and `RawWord(k)` (20_memory.md rules R61, R62). -/
def Obligations.WordsAssembleInTheirByteOrder : Prop :=
  (∀ (s : State) (a : Nat) (hi lo : Byte), a + 1 < s.metaLen.toNat → memRead s.metaBlob a = some hi →
    memRead s.metaBlob (a + 1) = some lo →
    ∃ v, readBe16 a s = .next v ∧ v.toNat = hi.toNat * 256 + lo.toNat) ∧
  (∀ (s : State) (k : Nat) (b0 b1 b2 b3 : Byte), 4 * k + 3 < s.dumpLen.toNat → memRead s.raw (4 * k) = some b0 →
    memRead s.raw (4 * k + 1) = some b1 → memRead s.raw (4 * k + 2) = some b2 → memRead s.raw (4 * k + 3) = some b3 →
    ∃ w, readRawWord k s = .next w ∧
      w.toNat = b0.toNat + b1.toNat * 2 ^ 8 + b2.toNat * 2 ^ 16 + b3.toNat * 2 ^ 24)

/-- LDGEOM: the two big-endian fields, or MetadataUnavailable before anything is written (46_setup_and_output.md rule R186,
60_exceptions.md rules R201, R205). -/
def Obligations.LdgeomReadsGeometryOrTraps : Prop :=
  ∀ s : State,
    (s.cfg.getLsbD 2 = false ∨ s.metaLen.toNat < 16 →
      exec .ldgeom s = .next { s with status := ⟨false, s.status.done, true, .metadataUnavailable⟩, phase := .error }) ∧
    (∀ wh wl hh hl : Byte, s.cfg.getLsbD 2 = true → 16 ≤ s.metaLen.toNat →
      memRead s.metaBlob 0xA = some wh → memRead s.metaBlob 0xB = some wl →
      memRead s.metaBlob 0xE = some hh → memRead s.metaBlob 0xF = some hl →
      exec .ldgeom s = .next { s with geom := { s.geom with width := wh ++ wl, height := hh ++ hl }, phase := .chksize })

/-- CHKSIZE: WPR and FIELD_BYTES are written; a length of 1, 2, 4 or 8 fields gives NF, any other length, or a field of no bytes, is a
SizeMismatch with NF unwritten (46_setup_and_output.md rule R187, 30_encoding.md rule R98, 60_exceptions.md rules R202, R205). -/
def Obligations.ChksizeInfersFieldCountOrTraps : Prop :=
  ∀ s : State,
    let wpr := (s.geom.width.toNat + 2) / 3
    let fb := 16 * s.geom.height.toNat * wpr
    ∃ (w : BitVec 15) (f : BitVec 35), w.toNat = wpr ∧ f.toNat = fb ∧
      (∀ nf : FieldCount, fb ≠ 0 → s.dumpLen.toNat = fieldCountNat nf * fb →
        exec .chksize s = .next { s with geom := { s.geom with wpr := w, fieldBytes := f, nf := nf }, phase := .gsel }) ∧
      (fb = 0 ∨ (∀ nf : FieldCount, s.dumpLen.toNat ≠ fieldCountNat nf * fb) →
        exec .chksize s = .next { s with
          geom := { s.geom with wpr := w, fieldBytes := f }
          status := ⟨false, s.status.done, true, .sizeMismatch⟩
          phase := .error })

/-- A step enters ERROR from LDGEOM or CHKSIZE only, with the code of the one exception each raises; BUSY falls, and nothing that a
later operation writes has been written (60_exceptions.md rules R200, R204, R205). -/
def Obligations.OnlySetupRaisesExceptions : Prop :=
  ∀ s t : State, step s = .next t → t.phase = .error → s.phase ≠ .error →
    ((s.phase = .ldgeom ∧ t.status.errcode = .metadataUnavailable ∧ t.geom = s.geom) ∨
      (s.phase = .chksize ∧ t.status.errcode = .sizeMismatch ∧ t.geom.nf = s.geom.nf)) ∧
    t.status.err = true ∧ t.status.busy = false ∧
    t = { s with geom := t.geom, status := t.status, phase := .error }

/-! ### Geometry -/

/-- GSEL: the row of the printed profile table, the shift registers at or beyond NF as they were, the sizes of rule R147, and nothing
else (42_geometry_profile.md rules R145, R146, R147). -/
def Obligations.GselLoadsPrintedProfile : Prop :=
  ∀ s : State, 1 ≤ s.geom.width.toNat → 1 ≤ s.geom.height.toNat →
    ∃ t, exec .gsel s = .next t ∧
      t = { s with prof := t.prof, canvas := t.canvas, phase := .lutbld } ∧
      t.prof.scale.toNat = (profileTable s.geom.nf).1 ∧
      t.prof.xcrop.toNat = (profileTable s.geom.nf).2.1.1 ∧ t.prof.ycrop.toNat = (profileTable s.geom.nf).2.1.2 ∧
      t.prof.xoff.toInt = (profileTable s.geom.nf).2.2.1.1 ∧ t.prof.yoff.toInt = (profileTable s.geom.nf).2.2.1.2 ∧
      (∀ i : Fin 8,
        (i.val < fieldCountNat s.geom.nf →
          (profileTable s.geom.nf).2.2.2[i.val]? = some (t.prof.xshift[i].toNat, t.prof.yshift[i].toNat)) ∧
        (fieldCountNat s.geom.nf ≤ i.val → t.prof.xshift[i] = s.prof.xshift[i] ∧ t.prof.yshift[i] = s.prof.yshift[i])) ∧
      t.canvas.wout.toNat = canvasColumns s.geom.nf s.geom.width.toNat ∧
      t.canvas.hout.toNat = canvasRows s.geom.nf s.geom.height.toNat ∧
      t.canvas.cc.toNat = (if s.cfg.getLsbD 1 then 4 else 3) ∧
      t.canvas.outW.toNat + 1 = t.canvas.wout.toNat ∧ t.canvas.outH.toNat + 1 = t.canvas.hout.toNat

/-- Nothing but WIDTH, HEIGHT and NF enters the canvas and output sizes, and CH4 alone enters CC (42_geometry_profile.md rule R148). -/
def Obligations.CanvasSizeDependsOnGeometryOnly : Prop :=
  ∀ s s' t t' : State, exec .gsel s = .next t → exec .gsel s' = .next t' →
    (s.geom.width = s'.geom.width → s.geom.height = s'.geom.height → s.geom.nf = s'.geom.nf →
      t.canvas.wout = t'.canvas.wout ∧ t.canvas.hout = t'.canvas.hout ∧ t.canvas.outW = t'.canvas.outW ∧
        t.canvas.outH = t'.canvas.outH) ∧
    (s.cfg.getLsbD 1 = s'.cfg.getLsbD 1 → t.canvas.cc = t'.canvas.cc)

/-! ### Tone curves -/

/-- The linear curve in exact rationals (41_tone_curve.md rule R131, 00_scope.md rule R11). -/
def Obligations.LinearCurveIsRoundedRational : Prop :=
  ∀ (g : Gain) (smp : Sample),
    (linear g smp).toNat = min 65535 ⌊((g.num : ℚ) / g.den) * smp.toNat * 65535 / 1023 + 1 / 2⌋₊

/-- The linear curve does not decrease (41_tone_curve.md rule R132). -/
def Obligations.LinearCurveDoesNotDecrease : Prop :=
  ∀ (g : Gain) (a b : Sample), a.toNat ≤ b.toNat → (linear g a).toNat ≤ (linear g b).toNat

/-- Logarithmic mode: the curve is the rounded real power, the three tables are equal, and the gains are not read (41_tone_curve.md rule
R133, 00_scope.md rule R11). -/
def Obligations.LogCurveIsRoundedPower : Prop :=
  (∀ smp : Sample, (logDensity smp).toNat = ⌊65535 * (10 : ℝ) ^ (-(smp.toNat : ℝ) / 500) + 1 / 2⌋₊) ∧
  ∀ (s t : State), s.cfg.getLsbD 0 = true → exec .lutbld s = .next t →
    t.lut.red = t.lut.green ∧ t.lut.green = t.lut.blue ∧
    (∀ smp : Sample, memRead t.lut.red smp.toNat = some (logDensity smp)) ∧
    ∀ (g : Gains) (t' : State), exec .lutbld { s with gains := g } = .next t' → t'.lut = t.lut

/-- The logarithmic curve falls at every step, by at most 301 (entry 0 to 1) and at least 2 (first from entry 1006 to 1007)
(41_tone_curve.md rule R134). -/
def Obligations.LogCurveFalls : Prop :=
  (∀ n < 1023,
    let d := ((logDensity (BitVec.ofNat 10 n)).toNat : Int) - (logDensity (BitVec.ofNat 10 (n + 1))).toNat
    2 ≤ d ∧ d ≤ 301 ∧ (n < 1006 → 3 ≤ d)) ∧
  (logDensity 0).toNat = (logDensity 1).toNat + 301 ∧ (logDensity 1006).toNat = (logDensity 1007).toNat + 2

/-- LUTBLD: all 3072 entries from the mode and the gains, and nothing else but the loop counters (41_tone_curve.md rule R130). -/
def Obligations.LutbldWritesEveryEntry : Prop :=
  ∀ s : State, ∃ t, exec .lutbld s = .next t ∧
    t = { s with lut := t.lut, ctr := t.ctr, phase := .gclr } ∧
    ∀ smp : Sample,
      memRead t.lut.red smp.toNat = some (if s.cfg.getLsbD 0 then logDensity smp else linear s.gains.red smp) ∧
      memRead t.lut.green smp.toNat = some (if s.cfg.getLsbD 0 then logDensity smp else linear s.gains.green smp) ∧
      memRead t.lut.blue smp.toNat = some (if s.cfg.getLsbD 0 then logDensity smp else linear s.gains.blue smp)

/-- The tables are a function of MODE and the gains alone: no other part of the state enters them (41_tone_curve.md rule R137). -/
def Obligations.TablesDependOnModeAndGainsOnly : Prop :=
  ∀ s s' t t' : State, exec .lutbld s = .next t → exec .lutbld s' = .next t' →
    s.cfg.getLsbD 0 = s'.cfg.getLsbD 0 → s.gains = s'.gains → t.lut = t'.lut

/-- LUTRD: channel 0 reads the red table, 1 the green, 2 and 3 the blue; T[c] alone changes (41_tone_curve.md rules R135, R136). -/
def Obligations.LutrdReadsItsTable : Prop :=
  ∀ (s : State) (c : BitVec 2) (smp : Sample) (v : Cell16),
    memRead (if c = 0 then s.lut.red else if c = 1 then s.lut.green else s.lut.blue) smp.toNat = some v →
    ∃ t, exec (.lutrd c smp) s = .next t ∧ t = { s with dp := { s.dp with tones := t.dp.tones } } ∧
      ∀ d : Fin 4, t.dp.tones[d] = if d.val = c.toNat then v else s.dp.tones[d]

/-! ### The unpacker -/

/-- UNPK: the word of the printed formula, the ten bits of the column, in W32 and S[p] alone (40_sample_unpacker.md rule R121,
20_memory.md rules R62, R64, 30_encoding.md rule R92). -/
def Obligations.UnpkExtractsSample : Prop :=
  ∀ (s : State) (i : BitVec 4) (p : BitVec 2) (y x : BitVec 16) (b0 b1 b2 b3 : Byte),
    i.toNat < fieldCountNat s.geom.nf → y.toNat < s.geom.height.toNat → x.toNat < s.geom.width.toNat →
    let k := ((i.toNat * 4 + p.toNat) * s.geom.height.toNat + y.toNat) * s.geom.wpr.toNat + x.toNat / 3
    4 * k + 3 < s.dumpLen.toNat →
    memRead s.raw (4 * k) = some b0 → memRead s.raw (4 * k + 1) = some b1 →
    memRead s.raw (4 * k + 2) = some b2 → memRead s.raw (4 * k + 3) = some b3 →
    ∃ t, exec (.unpk i p y x) s = .next t ∧
      t = { s with dp := { s.dp with w32 := t.dp.w32, samples := t.dp.samples } } ∧
      t.dp.w32.toNat = b0.toNat + b1.toNat * 2 ^ 8 + b2.toNat * 2 ^ 16 + b3.toNat * 2 ^ 24 ∧
      ∀ q : Fin 4,
        if q.val = p.toNat then t.dp.samples[q].toNat = t.dp.w32.toNat / 2 ^ (x.toNat % 3 * 10) % 1024
        else t.dp.samples[q] = s.dp.samples[q]

/-- The same extraction on bytes (40_sample_unpacker.md rule R124). -/
def Obligations.SampleOnBytes : Prop :=
  ∀ (b0 b1 b2 b3 : Byte) (x : Nat),
    (x % 3 = 0 → (extractSample (littleEndian b0 b1 b2 b3) x).toNat = b0.toNat + b1.toNat % 4 * 256) ∧
    (x % 3 = 1 → (extractSample (littleEndian b0 b1 b2 b3) x).toNat = b1.toNat / 4 + b2.toNat % 16 * 64) ∧
    (x % 3 = 2 → (extractSample (littleEndian b0 b1 b2 b3) x).toNat = b2.toNat / 16 + b3.toNat % 64 * 16)

/-- Bits [31:30] of a packed word reach no sample (30_encoding.md rule R93). -/
def Obligations.UnusedWordBitsReachNoSample : Prop :=
  ∀ (v w : PackedWord) (x : Nat), v.toNat % 2 ^ 30 = w.toNat % 2 ^ 30 → extractSample v x = extractSample w x

/-- Outside the operand ranges of its rule a primitive is refused by name (40_sample_unpacker.md rule R122 for UNPK). The extension to XFORM,
RSITE, FILLC and CMOV is the model's choice, log 7, and so is that the refusal of an RSITE carries the name of XFORM, its first part. -/
def Obligations.OperandsOutsideRangesAreRefused : Prop :=
  (∀ (s : State) (i : BitVec 4) (p : BitVec 2) (y x : BitVec 16),
    ¬(i.toNat < fieldCountNat s.geom.nf ∧ y.toNat < s.geom.height.toNat ∧ x.toNat < s.geom.width.toNat) →
    exec (.unpk i p y x) s = .refused (.operandRange "UNPK") ∧ exec (.xform i y x) s = .refused (.operandRange "XFORM") ∧
      exec (.rsite i y x) s = .refused (.operandRange "XFORM")) ∧
  (∀ (s : State) (x : BitVec 17) (y : BitVec 18) (c : BitVec 2),
    (¬(1 ≤ x.toNat ∧ x.toNat < s.canvas.wout.toNat ∧ 1 ≤ y.toNat ∧ y.toNat < s.canvas.hout.toNat ∧
        (x.toNat + y.toNat) % 2 = 0 ∧ c.toNat < s.canvas.cc.toNat) →
      exec (.fillc x y c) s = .refused (.operandRange "FILLC")) ∧
    (¬(x.toNat < s.canvas.outW.toNat ∧ y.toNat < s.canvas.outH.toNat ∧ c.toNat < s.canvas.cc.toNat) →
      exec (.cmov x y c) s = .refused (.operandRange "CMOV")))

/-! ### The remapper -/

/-- XFORM: the integers of the three steps, within the printed bounds, in XP, YP and INB alone (43_field_remapper.md rule R156). The
premise that GSEL's registers are in place is part of the invariant. -/
def Obligations.XformComputesIntegerPosition : Prop :=
  ∀ (s : State) (i : BitVec 4) (y x : BitVec 16), ProfileSelected s →
    i.toNat < fieldCountNat s.geom.nf → y.toNat < s.geom.height.toNat → x.toNat < s.geom.width.toNat →
    ∃ t, exec (.xform i y x) s = .next t ∧
      t = { s with dp := { s.dp with xp := t.dp.xp, yp := t.dp.yp, inb := t.dp.inb } } ∧
      (∃ hi : i.toNat < 8,
        t.dp.yp.toInt = s.prof.scale.toNat * (2 * y.toNat + (x.toNat + 1) % 2) + s.prof.yshift[i.toNat].toNat + s.prof.yoff.toInt ∧
        t.dp.xp.toInt = s.prof.scale.toNat * x.toNat + s.prof.xshift[i.toNat].toNat + s.prof.xoff.toInt) ∧
      (t.dp.inb = true ↔ 0 ≤ t.dp.xp.toInt ∧ t.dp.xp.toInt < s.canvas.wout.toNat ∧
        0 ≤ t.dp.yp.toInt ∧ t.dp.yp.toInt < s.canvas.hout.toNat) ∧
      -1 ≤ t.dp.xp.toInt ∧ t.dp.xp.toInt ≤ 2 * s.geom.width.toNat ∧
      -1 ≤ t.dp.yp.toInt ∧ t.dp.yp.toInt ≤ 4 * s.geom.height.toNat

/-- RSITE. Off the canvas it does what XFORM does and writes nothing further. On the canvas: the four samples in S, the tone-mapped sample of
plane `3 − c` in T[c] and in channel `c` of the cell (infrared by the blue table, four channels only), W32 as the last UNPK leaves it, and
every other value of GRID and every other register as it was (43_field_remapper.md rules R157, R158). That W32 and S stay as they were off the
canvas, where the samples "need not even be fetched" (rule R157), and that S[0] is fetched in three-channel mode, which "cannot be observed"
(rule R163), is the model's reading, log 20. -/
def Obligations.RsiteProcessesOneSite : Prop :=
  ∀ (s : State) (i : BitVec 4) (y x : BitVec 16), ProfileSelected s →
    i.toNat < fieldCountNat s.geom.nf → y.toNat < s.geom.height.toNat → x.toNat < s.geom.width.toNat →
    (∀ X Y : Int, siteTarget s.geom.nf i.toNat y.toNat x.toNat = (X, Y) →
      ¬(0 ≤ X ∧ X < s.canvas.wout.toNat ∧ 0 ≤ Y ∧ Y < s.canvas.hout.toNat) →
      ∃ t, exec (.rsite i y x) s = .next t ∧ exec (.xform i y x) s = .next t ∧
        t = { s with dp := { s.dp with xp := t.dp.xp, yp := t.dp.yp, inb := false } }) ∧
    (∀ (X Y : Nat) (word : Nat → PackedWord) (v : Nat → Cell16),
      siteTarget s.geom.nf i.toNat y.toNat x.toNat = ((X : Int), (Y : Int)) → X < s.canvas.wout.toNat → Y < s.canvas.hout.toNat →
      (∀ p < 4,
        4 * wordIndex s.geom.height.toNat s.geom.wpr.toNat i.toNat p y.toNat x.toNat + 3 < s.dumpLen.toNat ∧
        dumpWord s.raw (wordIndex s.geom.height.toNat s.geom.wpr.toNat i.toNat p y.toNat x.toNat) = some (word p)) →
      (∀ c < s.canvas.cc.toNat, memRead (if c = 0 then s.lut.red else if c = 1 then s.lut.green else s.lut.blue)
        (extractSample (word (3 - c)) x.toNat).toNat = some (v c)) →
      ∃ t, exec (.rsite i y x) s = .next t ∧
        t = { s with
          grid := t.grid
          dp := { s.dp with w32 := word 3, samples := t.dp.samples, xp := t.dp.xp, yp := t.dp.yp, inb := true, tones := t.dp.tones } } ∧
        t.dp.xp.toInt = X ∧ t.dp.yp.toInt = Y ∧
        (∀ p : Fin 4, t.dp.samples[p] = extractSample (word p) x.toNat) ∧
        (∀ c : Fin 4, t.dp.tones[c] = if c.val < s.canvas.cc.toNat then v c else s.dp.tones[c]) ∧
        (∀ c < s.canvas.cc.toNat, memRead t.grid (gridIndex s X Y c) = some (v c)) ∧
        ∀ n, (∀ c < s.canvas.cc.toNat, n ≠ gridIndex s X Y c) → memRead t.grid n = memRead s.grid n)

/-- No two sites of a run land on the same cell, across fields and within one (43_field_remapper.md rule R160). -/
def Obligations.SitesNeverCollide : Prop :=
  ∀ (nf : FieldCount) (i y x i' y' x' : Nat), i < fieldCountNat nf → i' < fieldCountNat nf →
    siteTarget nf i y x = siteTarget nf i' y' x' → i = i' ∧ y = y' ∧ x = x'

/-- What the sites cover: for one and four fields exactly the odd-sum cells; for two and eight every cell off row 0 and column 0; cell (0, 0)
never, and for two fields row 0 in its odd columns only (43_field_remapper.md rule R161). -/
def Obligations.SitesCoverTheCanvas : Prop :=
  ∀ (nf : FieldCount) (width height X Y : Nat), 1 ≤ width → 1 ≤ height →
    X < canvasColumns nf width → Y < canvasRows nf height →
    let covered := ∃ i y x, Site nf width height i y x ∧ siteTarget nf i y x = ((X : Int), (Y : Int))
    (nf = .one ∨ nf = .four → (covered ↔ (X + Y) % 2 = 1)) ∧
    (nf = .two ∨ nf = .eight → 1 ≤ X → 1 ≤ Y → covered) ∧
    (nf = .two → Y = 0 → (covered ↔ X % 2 = 1)) ∧
    (X = 0 → Y = 0 → ¬covered)

/-- REMAP: with the setup's registers and tables in place and the dump loaded it completes; every value of the canvas is the tone-mapped
sample of the site that lands there, or what it was where none does; the branch goes to FILL for one and four fields
(43_field_remapper.md rule R155). -/
def Obligations.RemapMapsEverySite : Prop :=
  ∀ s : State, SizesInferred s → ProfileSelected s → TablesBuilt s → (∀ a < s.dumpLen.toNat, (memRead s.raw a).isSome) →
    ∃ t, exec .remap s = .next t ∧
      t = { s with
        grid := t.grid
        dp := t.dp
        ctr := t.ctr
        phase := (if s.geom.nf = .one ∨ s.geom.nf = .four then .fill else .crop) } ∧
      (∀ X Y c, X < s.canvas.wout.toNat → Y < s.canvas.hout.toNat → c < s.canvas.cc.toNat →
        memRead t.grid (gridIndex s X Y c) =
          match siteOf s.geom.nf s.geom.width.toNat s.geom.height.toNat X Y with
          | some site =>
            (dumpSample s.raw s.geom.width.toNat s.geom.height.toNat site.1 (3 - c) site.2.1 site.2.2).map
              (toneOf s.cfg s.gains c)
          | none => memRead s.grid (gridIndex s X Y c)) ∧
      ∀ n, gridSize s ≤ n → memRead t.grid n = memRead s.grid n

/-! ### GRID, the fill engine, the cropper, the output -/

/-- GCLR: every value of the canvas becomes zero, nothing beyond is touched (46_setup_and_output.md rule R188). -/
def Obligations.GclrZeroesTheCanvas : Prop :=
  ∀ s : State, ∃ t, exec .gclr s = .next t ∧
    t = { s with grid := t.grid, ctr := t.ctr, phase := .remap } ∧
    (∀ n < s.canvas.wout.toNat * s.canvas.hout.toNat * s.canvas.cc.toNat, memRead t.grid n = some 0) ∧
    ∀ n, s.canvas.wout.toNat * s.canvas.hout.toNat * s.canvas.cc.toNat ≤ n → memRead t.grid n = memRead s.grid n

/-- AVG2: the truncated average, never wrapped, between its operands, in AV alone (44_gap_filler.md rule R174). -/
def Obligations.Avg2TruncatesWithoutWrapping : Prop :=
  ∀ (s : State) (a b : Cell16), ∃ v : Cell16,
    exec (.avg2 a b) s = .next { s with dp := { s.dp with av := v } } ∧ v.toNat = (a.toNat + b.toNat) / 2 ∧
    min a.toNat b.toNat ≤ v.toNat ∧ v.toNat ≤ max a.toNat b.toNat

/-- FILLC: the average of the cell above and the cell to the left, in the gap cell's channel; NA, NB, AV hold the three values and every
other value of GRID stays (44_gap_filler.md rule R173). -/
def Obligations.FillcAveragesAboveAndLeft : Prop :=
  ∀ (s : State) (x : BitVec 17) (y : BitVec 18) (c : BitVec 2) (above left : Cell16),
    1 ≤ x.toNat → x.toNat < s.canvas.wout.toNat → 1 ≤ y.toNat → y.toNat < s.canvas.hout.toNat →
    (x.toNat + y.toNat) % 2 = 0 → c.toNat < s.canvas.cc.toNat →
    memRead s.grid (gridIndex s x.toNat (y.toNat - 1) c.toNat) = some above →
    memRead s.grid (gridIndex s (x.toNat - 1) y.toNat c.toNat) = some left →
    ∃ (t : State) (v : Cell16), exec (.fillc x y c) s = .next t ∧ v.toNat = (above.toNat + left.toNat) / 2 ∧
      t = { s with grid := t.grid, dp := { s.dp with na := above, nb := left, av := v } } ∧
      memRead t.grid (gridIndex s x.toNat y.toNat c.toNat) = some v ∧
      ∀ n, n ≠ gridIndex s x.toNat y.toNat c.toNat → memRead t.grid n = memRead s.grid n

/-- FILL: with every value written it completes; each gap cell off row 0 and column 0 takes the average of the two neighbours as they were
before the stage, every other value stays (44_gap_filler.md rules R170, R175). -/
def Obligations.FillAveragesGapCells : Prop :=
  ∀ s : State, GridWritten s → s.canvas.cc.toNat ≤ 4 →
    ∃ t, exec .fill s = .next t ∧ t = { s with grid := t.grid, dp := t.dp, ctr := t.ctr, phase := .crop } ∧
      (∀ X Y c, X < s.canvas.wout.toNat → Y < s.canvas.hout.toNat → c < s.canvas.cc.toNat →
        (1 ≤ X ∧ 1 ≤ Y ∧ (X + Y) % 2 = 0 →
          ∃ a b, memRead s.grid (gridIndex s X (Y - 1) c) = some a ∧ memRead s.grid (gridIndex s (X - 1) Y c) = some b ∧
            memRead t.grid (gridIndex s X Y c) = some (average a b)) ∧
        (¬(1 ≤ X ∧ 1 ≤ Y ∧ (X + Y) % 2 = 0) →
          memRead t.grid (gridIndex s X Y c) = memRead s.grid (gridIndex s X Y c))) ∧
      ∀ n, gridSize s ≤ n → memRead t.grid n = memRead s.grid n

/-- Running FILL again changes no value of GRID (44_gap_filler.md rule R176). -/
def Obligations.FillIsIdempotent : Prop :=
  ∀ s t : State, GridWritten s → s.canvas.cc.toNat ≤ 4 → exec .fill s = .next t →
    ∃ u, exec .fill t = .next u ∧ ∀ n, memRead u.grid n = memRead t.grid n

/-- Every order of FILL's visits leaves the same GRID (44_gap_filler.md rule R176). -/
def Obligations.FillOrderIsImmaterial : Prop :=
  ∀ (s t : State) (order : List (Nat × Nat)), GridWritten s → s.canvas.cc.toNat ≤ 4 →
    order.Perm (fillVisits s.canvas.wout.toNat s.canvas.hout.toNat) → exec .fill s = .next t →
    ∃ u, forEach order fillVisit s = .next u ∧ ∀ n, memRead u.grid n = memRead t.grid n

/-- CMOV: one value, shifted by one row and one column, in OUT alone (45_cropper.md rule R181). -/
def Obligations.CmovCopiesOneValue : Prop :=
  ∀ (s : State) (x : BitVec 17) (y : BitVec 18) (c : BitVec 2) (v : Cell16),
    x.toNat < s.canvas.outW.toNat → y.toNat < s.canvas.outH.toNat → c.toNat < s.canvas.cc.toNat →
    s.canvas.outW.toNat < s.canvas.wout.toNat → s.canvas.outH.toNat < s.canvas.hout.toNat →
    memRead s.grid (gridIndex s (x.toNat + 1) (y.toNat + 1) c.toNat) = some v →
    ∃ t, exec (.cmov x y c) s = .next t ∧ t = { s with out := t.out } ∧
      memRead t.out (outIndex s x.toNat y.toNat c.toNat) = some v ∧
      ∀ n, n ≠ outIndex s x.toNat y.toNat c.toNat → memRead t.out n = memRead s.out n

/-- CROP: with every GRID value written it completes; OUT is GRID without row 0 and column 0, GRID is unchanged (45_cropper.md rules
R180, R182). -/
def Obligations.CropRemovesRowAndColumnZero : Prop :=
  ∀ s : State, GridWritten s → s.canvas.cc.toNat ≤ 4 →
    s.canvas.outW.toNat + 1 = s.canvas.wout.toNat → s.canvas.outH.toNat + 1 = s.canvas.hout.toNat →
    ∃ t, exec .crop s = .next t ∧ t = { s with out := t.out, ctr := t.ctr, phase := .emit } ∧
      (∀ x y c, x < s.canvas.outW.toNat → y < s.canvas.outH.toNat → c < s.canvas.cc.toNat →
        memRead t.out (outIndex s x y c) = memRead s.grid (gridIndex s (x + 1) (y + 1) c)) ∧
      ∀ n, outSize s ≤ n → memRead t.out n = memRead s.out n

/-- EMIT: with every OUT value written it completes; the values are presented in increasing index after those presented before, OUT is
unchanged, and DONE is entered (46_setup_and_output.md rules R189, R190; the list of presented values is the model's, log 14, and so is the
moment of DONE's entry, log 3). -/
def Obligations.EmitPresentsOutInOrder : Prop :=
  ∀ s : State, OutWritten s →
    ∃ t, exec .emit s = .next t ∧
      t = { s with
        emitted := t.emitted
        ctr := t.ctr
        status := ⟨false, true, s.status.err, s.status.errcode⟩
        phase := .done } ∧
      t.emitted.map some = s.emitted.map some ++
        (List.range (s.canvas.outW.toNat * s.canvas.outH.toNat * s.canvas.cc.toNat)).map (memRead s.out)

/-- DONE and ERROR are terminal: a step there changes nothing; as operations they write the flags of their entry (46_setup_and_output.md
rule R190, 60_exceptions.md rules R205, R206; the self-loop of 30_encoding.md rule R107 is read as log 3 says). -/
def Obligations.DoneAndErrorAreTerminal : Prop :=
  ∀ s : State,
    exec .done s = .next { s with status := ⟨false, true, s.status.err, s.status.errcode⟩, phase := .done } ∧
    exec .error s = .next { s with status := ⟨false, s.status.done, true, s.status.errcode⟩, phase := .error } ∧
    (StatusFits s → Ended s → step s = .next s)

/-! ### The whole machine -/

/-- PHASE changes only as the fixed sequence says (46_setup_and_output.md rule R192, 30_encoding.md rule R107). -/
def Obligations.PhaseFollowsFixedSequence : Prop :=
  (∀ s t : State, step s = .next t →
    match s.phase with
    | .idle => t.phase = if s.cmd = 0x01#8 then .ldgeom else .idle
    | .ldgeom => t.phase = .chksize ∨ t.phase = .error ∧ t.status.errcode = .metadataUnavailable
    | .chksize => t.phase = .gsel ∨ t.phase = .error ∧ t.status.errcode = .sizeMismatch
    | .gsel => t.phase = .lutbld
    | .lutbld => t.phase = .gclr
    | .gclr => t.phase = .remap
    | .remap => t.phase = if s.geom.nf = .one ∨ s.geom.nf = .four then .fill else .crop
    | .fill => t.phase = .crop
    | .crop => t.phase = .emit
    | .emit => t.phase = .done
    | .done => t.phase = .done
    | .error => t.phase = .error) ∧
  (∀ (m : HostMove) (s t : State), hostMove m s = .next t →
    t.phase = s.phase ∨ (m = .reset ∧ t.phase = .idle) ∨ (m = .writeCmd 0x01#8 ∧ s.phase = .idle ∧ t.phase = .ldgeom)) ∧
  ∀ (i : Instr) (s t : State), isPrimitive i = true → exec i s = .next t → t.phase = s.phase

/-- The loop counters of every stage hold the numbers of the last pass; a loop nest of no pass leaves its counters alone; no stage changes
another's counters (10_state.md rule R36 names the counters and their ranges; what they hold after the loop is the model's reading, log 10). -/
def Obligations.LoopCountersHoldTheLastPass : Prop :=
  (∀ s t : State, exec .lutbld s = .next t → t.ctr = { s.ctr with lt := 2, li := 1023 }) ∧
  (∀ s t : State, exec .gclr s = .next t →
    (gridSize s = 0 → t.ctr = s.ctr) ∧
    (0 < gridSize s → gridSize s ≤ 2 ^ 38 → t.ctr = { s.ctr with lin := t.ctr.lin } ∧ t.ctr.lin.toNat + 1 = gridSize s)) ∧
  (∀ s t : State, exec .remap s = .next t →
    (s.geom.height.toNat = 0 ∨ s.geom.width.toNat = 0 → t.ctr = s.ctr) ∧
    (0 < s.geom.height.toNat → 0 < s.geom.width.toNat →
      t.ctr = { s.ctr with fi := t.ctr.fi, sy := t.ctr.sy, sx := t.ctr.sx } ∧ t.ctr.fi.toNat + 1 = fieldCountNat s.geom.nf ∧
        t.ctr.sy.toNat + 1 = s.geom.height.toNat ∧ t.ctr.sx.toNat + 1 = s.geom.width.toNat)) ∧
  (∀ s t : State, exec .fill s = .next t →
    (s.canvas.wout.toNat ≤ 1 ∨ s.canvas.hout.toNat ≤ 1 → t.ctr = s.ctr) ∧
    (1 < s.canvas.wout.toNat → 1 < s.canvas.hout.toNat →
      t.ctr = { s.ctr with fy := 1, fx := 1, fc := t.ctr.fc } ∧
        (s.canvas.cc = 0 → t.ctr.fc = s.ctr.fc) ∧
        (0 < s.canvas.cc.toNat → s.canvas.cc.toNat ≤ 4 → t.ctr.fc.toNat + 1 = s.canvas.cc.toNat))) ∧
  (∀ s t : State, exec .crop s = .next t →
    (s.canvas.outW = 0 ∨ s.canvas.outH = 0 ∨ s.canvas.cc = 0 → t.ctr = s.ctr) ∧
    (0 < s.canvas.outW.toNat → 0 < s.canvas.outH.toNat → 0 < s.canvas.cc.toNat →
      t.ctr = { s.ctr with cy := t.ctr.cy, cx := t.ctr.cx, cch := t.ctr.cch } ∧ t.ctr.cy.toNat + 1 = s.canvas.outH.toNat ∧
        t.ctr.cx.toNat + 1 = s.canvas.outW.toNat ∧ (s.canvas.cc.toNat ≤ 4 → t.ctr.cch.toNat + 1 = s.canvas.cc.toNat))) ∧
  ∀ s t : State, exec .emit s = .next t →
    (outSize s = 0 → t.ctr = s.ctr) ∧
    (0 < outSize s → outSize s ≤ 2 ^ 38 → t.ctr = { s.ctr with lin := t.ctr.lin } ∧ t.ctr.lin.toNat + 1 = outSize s)

/-- No data operation sets a flag, and each writes only the datapath registers and the one cell or value its rule names (10_state.md rules R37,
R38, 20_memory.md rule R70). RSITE stores at the position that XFORM computes for the site, in the channels below CC, and nowhere when that
position is off the canvas; FILLC stores at its operands in GRID, CMOV at its operands in OUT. -/
def Obligations.PrimitivesWriteOnlyTheirData : Prop :=
  ∀ (i : Instr) (s t : State), isPrimitive i = true → exec i s = .next t →
    t = { s with dp := t.dp, grid := t.grid, out := t.out } ∧
    (match i with
      | .unpk _ p _ _ => t.grid = s.grid ∧ t.out = s.out ∧
          t.dp = { s.dp with w32 := t.dp.w32, samples := t.dp.samples } ∧
          ∀ q : Fin 4, q.val ≠ p.toNat → t.dp.samples[q] = s.dp.samples[q]
      | .xform _ _ _ => t.grid = s.grid ∧ t.out = s.out ∧
          t.dp = { s.dp with xp := t.dp.xp, yp := t.dp.yp, inb := t.dp.inb }
      | .lutrd c _ => t.grid = s.grid ∧ t.out = s.out ∧ t.dp = { s.dp with tones := t.dp.tones } ∧
          ∀ d : Fin 4, d.val ≠ c.toNat → t.dp.tones[d] = s.dp.tones[d]
      | .rsite f y x => t.out = s.out ∧
          ∃ u, exec (.xform f y x) s = .next u ∧ t.dp.xp = u.dp.xp ∧ t.dp.yp = u.dp.yp ∧ t.dp.inb = u.dp.inb ∧
            t.dp = { u.dp with w32 := t.dp.w32, samples := t.dp.samples, tones := t.dp.tones } ∧
            (u.dp.inb = false → t.grid = s.grid) ∧
            ∀ n, (∀ c < s.canvas.cc.toNat, n ≠ gridIndex s u.dp.xp.toInt.toNat u.dp.yp.toInt.toNat c) →
              memRead t.grid n = memRead s.grid n
      | .avg2 _ _ => t.grid = s.grid ∧ t.out = s.out ∧ t.dp = { s.dp with av := t.dp.av }
      | .fillc x y c => t.out = s.out ∧ t.dp = { s.dp with na := t.dp.na, nb := t.dp.nb, av := t.dp.av } ∧
          ∀ n, n ≠ gridIndex s x.toNat y.toNat c.toNat → memRead t.grid n = memRead s.grid n
      | .cmov x y c => t.dp = s.dp ∧ t.grid = s.grid ∧
          ∀ n, n ≠ outIndex s x.toNat y.toNat c.toNat → memRead t.out n = memRead s.out n
      | _ => t = s)

/-- No operation writes an input: CMD, CFG, META_LEN, DUMP_LEN, the gains, META, RAW (10_state.md rules R22, R42). -/
def Obligations.OperationsNeverWriteInputs : Prop :=
  ∀ (i : Instr) (s t : State), exec i s = .next t → SameInputs s t

/-- Every step keeps the invariant. -/
def Obligations.StepKeepsInvariant : Prop :=
  ∀ s t : State, Inv s → step s = .next t → Inv t

/-- Every move of the host keeps the invariant. -/
def Obligations.HostMovesKeepInvariant : Prop :=
  ∀ (m : HostMove) (s t : State), Inv s → hostMove m s = .next t → Inv t

/-- The machine after reset meets the invariant. -/
def Obligations.ResetMeetsInvariant : Prop := Inv State.reset

/-- Reset, in any phase: PHASE IDLE, STATUS and CMD zero, and then the sequencer does nothing (70_reset_and_hazards.md rule R230). What it
leaves of the rest is not stated. -/
def Obligations.ResetReturnsToIdle : Prop :=
  ∀ s : State, ∃ t, hostMove .reset s = .next t ∧ t.phase = .idle ∧ (statusBits t.status).toNat = 0 ∧ t.cmd = 0 ∧ step t = .next t

/-- The host writes an input in IDLE only and changes that input alone; elsewhere it has no such move (10_state.md rule R42; the refusal is
log 15). -/
def Obligations.HostWritesInputsInIdleOnly : Prop :=
  ∀ s : State,
    (s.phase = .idle →
      (∀ v, hostMove (.writeCfg v) s = .next { s with cfg := v }) ∧
      (∀ v, hostMove (.writeMetaLen v) s = .next { s with metaLen := v }) ∧
      (∀ v, hostMove (.writeDumpLen v) s = .next { s with dumpLen := v }) ∧
      (∀ g, hostMove (.writeGains g) s = .next { s with gains := g }) ∧
      (∀ a b, ∃ t, hostMove (.loadMeta a b) s = .next t ∧ t = { s with metaBlob := t.metaBlob } ∧
        ∀ n, memRead t.metaBlob n = if n = a.toNat then some b else memRead s.metaBlob n) ∧
      ∀ a b, ∃ t, hostMove (.loadRaw a b) s = .next t ∧ t = { s with raw := t.raw } ∧
        ∀ n, memRead t.raw n = if n = a.toNat then some b else memRead s.raw n) ∧
    (s.phase ≠ .idle →
      (∀ v, hostMove (.writeCfg v) s = .refused .hostMoveDenied) ∧
      (∀ v, hostMove (.writeMetaLen v) s = .refused .hostMoveDenied) ∧
      (∀ v, hostMove (.writeDumpLen v) s = .refused .hostMoveDenied) ∧
      (∀ g, hostMove (.writeGains g) s = .refused .hostMoveDenied) ∧
      (∀ a b, hostMove (.loadMeta a b) s = .refused .hostMoveDenied) ∧
      ∀ a b, hostMove (.loadRaw a b) s = .refused .hostMoveDenied)

/-- What the host may read, and with what value. Always: its own registers CMD, CFG, META_LEN, DUMP_LEN and the gains, and STATUS and PHASE. At
DONE: every control register, and every value that LUT, GRID, OUT, META and RAW hold. In ERROR after a SizeMismatch: also the four registers
written before it. Every other read of a control register, and every read of a memory outside DONE, is refused: after MetadataUnavailable,
in IDLE and during a run nothing more is read (10_state.md rules R30, R42, 46_setup_and_output.md rule R190, 60_exceptions.md rule R200). The
refusal, and that the host's own registers are readable at any time, is the model's choice, log 16; that META and RAW are readable at
DONE is its reading of rule R190, log 23. -/
def Obligations.HostReadsFollowPhase : Prop :=
  (∀ s : State,
    hostReadCtl .cmd s = .next (.bits s.cmd.toNat) ∧ hostReadCtl .status s = .next (.bits (statusBits s.status).toNat) ∧
    hostReadCtl .cfg s = .next (.bits s.cfg.toNat) ∧ hostReadCtl .metaLen s = .next (.bits s.metaLen.toNat) ∧
    hostReadCtl .dumpLen s = .next (.bits s.dumpLen.toNat) ∧ hostReadCtl .phase s = .next (.bits (phaseCode s.phase).toNat) ∧
    hostReadCtl .gainR s = .next (.rational s.gains.red) ∧ hostReadCtl .gainG s = .next (.rational s.gains.green) ∧
    hostReadCtl .gainB s = .next (.rational s.gains.blue)) ∧
  (∀ s : State, s.phase = .done ∨ (s.phase = .error ∧ s.status.errcode = .sizeMismatch) →
    hostReadCtl .width s = .next (.bits s.geom.width.toNat) ∧ hostReadCtl .height s = .next (.bits s.geom.height.toNat) ∧
    hostReadCtl .wpr s = .next (.bits s.geom.wpr.toNat) ∧ hostReadCtl .fieldBytes s = .next (.bits s.geom.fieldBytes.toNat)) ∧
  (∀ s : State, s.phase = .done →
    hostReadCtl .nf s = .next (.bits (fieldCountNat s.geom.nf)) ∧ hostReadCtl .scale s = .next (.bits s.prof.scale.toNat) ∧
    hostReadCtl .xcrop s = .next (.bits s.prof.xcrop.toNat) ∧ hostReadCtl .ycrop s = .next (.bits s.prof.ycrop.toNat) ∧
    hostReadCtl .xoff s = .next (.bits s.prof.xoff.toNat) ∧ hostReadCtl .yoff s = .next (.bits s.prof.yoff.toNat) ∧
    (∀ k : Fin 8, hostReadCtl (.xshift k) s = .next (.bits s.prof.xshift[k].toNat) ∧
      hostReadCtl (.yshift k) s = .next (.bits s.prof.yshift[k].toNat)) ∧
    hostReadCtl .wout s = .next (.bits s.canvas.wout.toNat) ∧ hostReadCtl .hout s = .next (.bits s.canvas.hout.toNat) ∧
    hostReadCtl .cc s = .next (.bits s.canvas.cc.toNat) ∧ hostReadCtl .outW s = .next (.bits s.canvas.outW.toNat) ∧
    hostReadCtl .outH s = .next (.bits s.canvas.outH.toNat) ∧
    (∀ (smp : Sample) (v : Cell16),
      (memRead s.lut.red smp.toNat = some v → hostReadLut 0 smp s = .next v) ∧
      (memRead s.lut.green smp.toNat = some v → hostReadLut 1 smp s = .next v) ∧
      (memRead s.lut.blue smp.toNat = some v → hostReadLut 2 smp s = .next v)) ∧
    (∀ (x y c : Nat) (v : Cell16), x < s.canvas.wout.toNat → y < s.canvas.hout.toNat → c < s.canvas.cc.toNat →
      memRead s.grid (gridIndex s x y c) = some v → hostReadGrid x y c s = .next v) ∧
    (∀ (x y c : Nat) (v : Cell16), x < s.canvas.outW.toNat → y < s.canvas.outH.toNat → c < s.canvas.cc.toNat →
      memRead s.out (outIndex s x y c) = some v → hostReadOut x y c s = .next v) ∧
    (∀ (a : Nat) (b : Byte), a < s.metaLen.toNat → memRead s.metaBlob a = some b → hostReadMeta a s = .next b) ∧
    ∀ (a : Nat) (b : Byte), a < s.dumpLen.toNat → memRead s.raw a = some b → hostReadRaw a s = .next b) ∧
  (∀ (s : State) (r : CtlReg), s.phase ≠ .done → r ∉ [.cmd, .status, .cfg, .metaLen, .dumpLen, .phase, .gainR, .gainG, .gainB] →
    ¬(s.phase = .error ∧ s.status.errcode = .sizeMismatch ∧ r ∈ [.width, .height, .wpr, .fieldBytes]) →
    hostReadCtl r s = .refused .hostReadDenied) ∧
  ∀ s : State, s.phase ≠ .done →
    (∀ t smp, hostReadLut t smp s = .refused .hostReadDenied) ∧ (∀ x y c, hostReadGrid x y c s = .refused .hostReadDenied) ∧
    (∀ x y c, hostReadOut x y c s = .refused .hostReadDenied) ∧ (∀ a, hostReadMeta a s = .refused .hostReadDenied) ∧
    ∀ a, hostReadRaw a s = .refused .hostReadDenied

/-- Nothing but the two exceptions can go wrong: from every state of the invariant, with the host's duties done, a step answers a next
state (60_exceptions.md rule R203). That DONE and ERROR answer one too, where rules R190 and R206 say "no step", is the model's choice, log 3. -/
def Obligations.NothingElseCanFail : Prop :=
  ∀ s : State, Inv s → InputsLoaded s → ∃ t, step s = .next t

/-- Every run ends: from every state of the invariant in which a run is under way, nine steps reach DONE or ERROR (70_reset_and_hazards.md
rules R238, R240). The count of nine is that of the model's granularity, one operation a step (30_encoding.md rule R107, log 1), and resting in
DONE or ERROR for the steps that are left is the model's choice, log 3. -/
def Obligations.EveryRunEnds : Prop :=
  ∀ s : State, Inv s → InputsLoaded s → s.phase ≠ .idle → ∃ t, runSteps 9 s = .next t ∧ Ended t

/-- RUN without a usable blob: MetadataUnavailable alone, whatever DUMP_LEN is; LUT, GRID and OUT are untouched and nothing is presented
(46_setup_and_output.md rule R191 case 1, 60_exceptions.md rules R204, R205). The list of presented values is the model's choice, log 14. -/
def Obligations.RunWithoutMetadataTraps : Prop :=
  ∀ s : State, s.phase = .idle → (s.cfg.getLsbD 2 = false ∨ s.metaLen.toNat < 16) →
    ∃ t, execRun s = .next t ∧ t.phase = .error ∧ (statusBits t.status).toNat = 0x0C ∧
      t.lut = s.lut ∧ t.grid = s.grid ∧ t.out = s.out ∧ t.emitted = s.emitted ∧ t.geom = s.geom

/-- RUN with a dump length that fits no field count: SizeMismatch; LUT, GRID and OUT are untouched and nothing is presented
(46_setup_and_output.md rule R191 case 2, 60_exceptions.md rule R205). The list of presented values is the model's choice, log 14. -/
def Obligations.RunWithWrongLengthTraps : Prop :=
  ∀ (s : State) (w h : BitVec 16), s.phase = .idle → metadataMissing s = false →
    readBe16 0xA s = .next w → readBe16 0xE s = .next h →
    let fb := 16 * h.toNat * ((w.toNat + 2) / 3)
    (fb = 0 ∨ s.dumpLen.toNat ∉ [fb, 2 * fb, 4 * fb, 8 * fb]) →
    ∃ t, execRun s = .next t ∧ t.phase = .error ∧ (statusBits t.status).toNat = 0x14 ∧
      t.geom.width = w ∧ t.geom.height = h ∧ t.geom.fieldBytes.toNat = fb ∧ t.geom.nf = s.geom.nf ∧
      t.lut = s.lut ∧ t.grid = s.grid ∧ t.out = s.out ∧ t.emitted = s.emitted

/-- RUN on legal inputs: DONE, the tables, the sizes, and every value of GRID and OUT as the functions of the inputs that rule R191 writes
out; the presented values are those of OUT in order (46_setup_and_output.md rule R191 case 3; the list of presented values is log 14). -/
def Obligations.RunComputesTheImage : Prop :=
  ∀ (s : State) (w h : BitVec 16) (nf : FieldCount), s.phase = .idle → metadataMissing s = false → InputsLoaded s →
    readBe16 0xA s = .next w → readBe16 0xE s = .next h →
    16 * h.toNat * ((w.toNat + 2) / 3) ≠ 0 →
    s.dumpLen.toNat = fieldCountNat nf * (16 * h.toNat * ((w.toNat + 2) / 3)) →
    ∃ t, execRun s = .next t ∧ t.phase = .done ∧ (statusBits t.status).toNat = 0x02 ∧ t.geom.nf = nf ∧
      t.lut = buildTables s.cfg s.gains ∧
      t.canvas.wout.toNat = canvasColumns nf w.toNat ∧ t.canvas.hout.toNat = canvasRows nf h.toNat ∧
      t.canvas.cc.toNat = (if s.cfg.getLsbD 1 then 4 else 3) ∧
      t.canvas.outW.toNat + 1 = t.canvas.wout.toNat ∧ t.canvas.outH.toNat + 1 = t.canvas.hout.toNat ∧
      (∀ X Y c, X < t.canvas.wout.toNat → Y < t.canvas.hout.toNat → c < t.canvas.cc.toNat →
        (memRead t.grid (gridIndex t X Y c)).isSome ∧
        memRead t.grid (gridIndex t X Y c) = finalValue s nf w.toNat h.toNat X Y c) ∧
      (∀ x y c, x < t.canvas.outW.toNat → y < t.canvas.outH.toNat → c < t.canvas.cc.toNat →
        memRead t.out (outIndex t x y c) = finalValue s nf w.toNat h.toNat (x + 1) (y + 1) c) ∧
      t.emitted.map some = s.emitted.map some ++ (List.range (outSize t)).map (memRead t.out)

/-- The unused bits of the dump never matter: two runs on legal inputs that differ in bits [31:30] of packed words only end with the same
output (46_setup_and_output.md rule R191, 30_encoding.md rule R93). -/
def Obligations.OutputIgnoresUnusedBits : Prop :=
  ∀ (s : State) (raw' : Mem 8) (w h : BitVec 16) (nf : FieldCount), s.phase = .idle → metadataMissing s = false →
    InputsLoaded s → InputsLoaded { s with raw := raw' } → readBe16 0xA s = .next w → readBe16 0xE s = .next h →
    16 * h.toNat * ((w.toNat + 2) / 3) ≠ 0 →
    s.dumpLen.toNat = fieldCountNat nf * (16 * h.toNat * ((w.toNat + 2) / 3)) →
    (∀ k v v', dumpWord s.raw k = some v → dumpWord raw' k = some v' → v.toNat % 2 ^ 30 = v'.toNat % 2 ^ 30) →
    ∃ t t', execRun s = .next t ∧ execRun { s with raw := raw' } = .next t' ∧ t.phase = .done ∧ t'.phase = .done ∧
      t'.canvas = t.canvas ∧
      ∀ x y c, x < t.canvas.outW.toNat → y < t.canvas.outH.toNat → c < t.canvas.cc.toNat →
        (memRead t.out (outIndex t x y c)).isSome ∧ memRead t'.out (outIndex t' x y c) = memRead t.out (outIndex t x y c)
end

