-- ==== Sys2Proof/Laws/Memory.lean ====
section
/-!
SUPPORT. Memories: read after write, and that every memory operation keeps the canonical form.
-/

namespace Sys2Proof.Machine

variable {w : Nat}

/-- Read after write: the value at the written index, the old value everywhere else. -/
theorem memRead_memWrite (m : Mem w) (a b : Nat) (v : BitVec w) :
    memRead (memWrite m a v) b = if a = b then some v else memRead m b := by
  induction m with
  | nil => simp [memWrite, memRead]
  | cons c m ih =>
    obtain ⟨d, u⟩ := c
    simp only [memWrite]
    split
    · simp [memRead]
    · split
      · rename_i h
        subst h
        simp only [memRead]
        split <;> rfl
      · simp only [memRead, ih]
        split
        · subst_vars
          rw [if_neg (by omega)]
        · rfl

@[simp] theorem memRead_memWrite_self (m : Mem w) (a : Nat) (v : BitVec w) : memRead (memWrite m a v) a = some v := by
  simp [memRead_memWrite]

theorem memRead_memWrite_of_ne (m : Mem w) {a b : Nat} (v : BitVec w) (h : a ≠ b) :
    memRead (memWrite m a v) b = memRead m b := by
  simp [memRead_memWrite, h]

theorem memRead_append (l m : Mem w) (a : Nat) : memRead (l ++ m) a = (memRead l a).or (memRead m a) := by
  induction l with
  | nil => simp [memRead]
  | cons c l ih =>
    obtain ⟨b, v⟩ := c
    simp only [List.cons_append, memRead]
    split <;> simp [ih]

/-- What a listed index of a generated memory holds. -/
theorem memRead_map (l : List Nat) (f : Nat → BitVec w) (a : Nat) :
    memRead (l.map fun n => (n, f n)) a = if a ∈ l then some (f a) else none := by
  induction l with
  | nil => simp [memRead]
  | cons b l ih =>
    simp only [List.map_cons, memRead, ih, List.mem_cons]
    by_cases h : b = a
    · subst h; simp
    · simp [h, Ne.symm h]

theorem memRead_filter (m : Mem w) (n a : Nat) :
    memRead (m.filter fun c => decide (n ≤ c.1)) a = if n ≤ a then memRead m a else none := by
  induction m with
  | nil => simp [memRead]
  | cons c m ih =>
    obtain ⟨b, v⟩ := c
    by_cases hb : n ≤ b
    · by_cases h : b = a
      · subst h; simp [memRead, hb]
      · simp [memRead, hb, h, ih]
    · by_cases h : b = a
      · subst h; simp [hb, ih]
      · simp [memRead, hb, h, ih]

/-- After filling: the value below `n`, the old contents from `n` on. -/
theorem memRead_memFill (n : Nat) (v : BitVec w) (m : Mem w) (a : Nat) :
    memRead (memFill n v m) a = if a < n then some v else memRead m a := by
  simp only [memFill, memRead_append, memRead_map (f := fun _ => v), memRead_filter, List.mem_range]
  by_cases h : a < n
  · simp [h]
  · simp [h, Nat.le_of_not_lt h]

/-- What a generated table holds. -/
theorem memRead_memTable (n : Nat) (f : Nat → BitVec w) (a : Nat) :
    memRead (memTable n f) a = if a < n then some (f a) else none := by
  simp [memTable, ← List.range_eq_range', memRead_map]

/-- The canonical form, as the predicate on the head and the tail. -/
theorem memWf_cons (a : Nat) (v : BitVec w) (m : Mem w) :
    memWf ((a, v) :: m) = true ↔ (∀ c ∈ m, a < c.1) ∧ memWf m = true := by
  simp [memWf]

theorem mem_memWrite {m : Mem w} {a : Nat} {v : BitVec w} {c : Nat × BitVec w} (h : c ∈ memWrite m a v) :
    c = (a, v) ∨ c ∈ m := by
  induction m with
  | nil => exact .inl (by simpa [memWrite] using h)
  | cons d m ih =>
    obtain ⟨b, u⟩ := d
    simp only [memWrite] at h
    split at h
    · simpa using h
    · split at h
      · rcases List.mem_cons.1 h with h | h
        · exact .inl h
        · exact .inr (List.mem_cons_of_mem _ h)
      · rcases List.mem_cons.1 h with h | h
        · exact .inr (by simp [h])
        · exact (ih h).imp id (List.mem_cons_of_mem _)

/-- A write keeps the canonical form. -/
theorem memWf_memWrite {m : Mem w} (h : memWf m = true) (a : Nat) (v : BitVec w) : memWf (memWrite m a v) = true := by
  induction m with
  | nil => rfl
  | cons d m ih =>
    obtain ⟨b, u⟩ := d
    obtain ⟨hb, hm⟩ := (memWf_cons b u m).1 h
    simp only [memWrite]
    split
    · rename_i hlt
      refine (memWf_cons a v _).2 ⟨fun c hc => ?_, h⟩
      rcases List.mem_cons.1 hc with rfl | hc
      · exact hlt
      · exact Nat.lt_trans hlt (hb c hc)
    · split
      · rename_i heq
        subst heq
        exact (memWf_cons a v m).2 ⟨hb, hm⟩
      · rename_i h1 h2
        refine (memWf_cons b u _).2 ⟨fun c hc => ?_, ih hm⟩
        rcases mem_memWrite hc with rfl | hc
        · show b < a
          omega
        · exact hb c hc

/-- The canonical form is that the indices rise strictly. -/
theorem memWf_iff_pairwise (m : Mem w) : memWf m = true ↔ m.Pairwise fun c d => c.1 < d.1 := by
  induction m with
  | nil => simp [memWf]
  | cons c m ih =>
    obtain ⟨a, v⟩ := c
    simp [memWf_cons, List.pairwise_cons, ih]

/-- A generated table has the canonical form. -/
theorem memWf_memTable (n : Nat) (f : Nat → BitVec w) : memWf (memTable n f) = true := by
  rw [memWf_iff_pairwise, memTable, ← List.range_eq_range', List.pairwise_map]
  exact List.pairwise_lt_range

/-- Filling keeps the canonical form. -/
theorem memWf_memFill {m : Mem w} (h : memWf m = true) (n : Nat) (v : BitVec w) : memWf (memFill n v m) = true := by
  rw [memWf_iff_pairwise] at h ⊢
  refine List.pairwise_append.2 ⟨?_, h.filter _, fun c hc d hd => ?_⟩
  · rw [List.pairwise_map]
    exact List.pairwise_lt_range
  · obtain ⟨a, ha, rfl⟩ := List.mem_map.1 hc
    have := List.mem_range.1 ha
    have := of_decide_eq_true (List.mem_filter.1 hd).2
    omega

end Sys2Proof.Machine
end

