-- ==== Sys2Proof/Laws/Curves.lean ====
section
/-!
SUPPORT. The tone tables: what an entry holds and what a table depends on.
-/

namespace Sys2Proof.Machine

/-- The linear curve as a number (41_tone_curve.md rule R131). -/
theorem toNat_linear (g : Gain) (smp : Sample) :
    (linear g smp).toNat = min 65535 ((2 * g.num * smp.toNat * 65535 + 1023 * g.den) / (2 * 1023 * g.den)) := by
  rw [linear, BitVec.toNat_ofNat]
  exact Nat.mod_eq_of_lt (by omega)

/-- Every sample has its entry (41_tone_curve.md rule R130). -/
theorem memRead_buildTable (cfg : BitVec 3) (g : Gain) (smp : Sample) :
    memRead (buildTable cfg g) smp.toNat = some (curve cfg g smp) := by
  rw [buildTable, memRead_memTable, if_pos smp.isLt, BitVec.ofNat_toNat, BitVec.setWidth_eq]

/-- In logarithmic mode the gain is not read (41_tone_curve.md rule R133). -/
theorem buildTable_of_log {cfg cfg' : BitVec 3} (h : modeLog cfg = true) (h' : modeLog cfg' = true) (g g' : Gain) :
    buildTable cfg g = buildTable cfg' g' := by
  have e : (fun n => curve cfg g (BitVec.ofNat 10 n)) = fun n => curve cfg' g' (BitVec.ofNat 10 n) := by
    funext n
    simp only [curve, h, h', if_true]
  rw [buildTable, e, buildTable]

/-- A table depends on the mode and its gain alone (41_tone_curve.md rule R137). -/
theorem buildTable_congr {cfg cfg' : BitVec 3} (h : modeLog cfg = modeLog cfg') (g : Gain) : buildTable cfg g = buildTable cfg' g := by
  have e : (fun n => curve cfg g (BitVec.ofNat 10 n)) = fun n => curve cfg' g (BitVec.ofNat 10 n) := by
    funext n
    simp only [curve, h]
  rw [buildTable, e, buildTable]

theorem memWf_buildTable (cfg : BitVec 3) (g : Gain) : memWf (buildTable cfg g) = true := memWf_memTable _ _

/-- The table an output channel reads (41_tone_curve.md rule R135). -/
theorem tableAt_tableOfChannel (t : Tables) (c : BitVec 2) :
    tableAt t (tableOfChannel c) = if c = 0 then t.red else if c = 1 then t.green else t.blue := by
  have h : ∀ c : BitVec 2, c = 0 ∨ c = 1 ∨ c = 2 ∨ c = 3 := by decide
  rcases h c with rfl | rfl | rfl | rfl <;> rfl

end Sys2Proof.Machine
end

