-- ==== Sys2Proof/Laws/Decode.lean ====
section
/-!
SUPPORT. The operand lanes of format P: what reading a lane gives, and when a decoded operation is accepted.
-/

namespace Sys2Proof

theorem toNat_setWidth_lane {w : Nat} (hw : w ≤ 18) (v : BitVec w) : (v.setWidth 18).toNat = v.toNat := by
  rw [BitVec.toNat_setWidth]
  exact Nat.mod_eq_of_lt (Nat.lt_of_lt_of_le v.isLt (Nat.pow_le_pow_right (by decide) hw))

/-- A lane that an operand of `w` bits was put into gives that operand back. -/
@[simp] theorem fromLane_setWidth {w : Nat} (hw : w ≤ 18) (v : BitVec w) : fromLane w (v.setWidth 18) = some v := by
  unfold fromLane
  rw [if_pos (by rw [toNat_setWidth_lane hw]; exact v.isLt)]
  congr 1
  apply BitVec.eq_of_toNat_eq
  rw [BitVec.toNat_setWidth, toNat_setWidth_lane hw, Nat.mod_eq_of_lt v.isLt]

/-- A lane gives an operand only when it holds that operand. -/
theorem fromLane_eq_some {w : Nat} (hw : w ≤ 18) {v : BitVec 18} {u : BitVec w} :
    fromLane w v = some u ↔ v = u.setWidth 18 := by
  constructor
  · intro h
    unfold fromLane at h
    split at h
    · rename_i hlt
      cases h
      apply BitVec.eq_of_toNat_eq
      rw [toNat_setWidth_lane hw, BitVec.toNat_setWidth, Nat.mod_eq_of_lt hlt]
    · cases h
  · rintro rfl
    exact fromLane_setWidth hw u

theorem checked_eq_ok {o : Option Instr} {i : Instr} : checked o = .ok i ↔ o = some i ∧ i.wellFormed = true := by
  cases o with
  | none => simp [checked]
  | some j =>
    by_cases h : j.wellFormed = true
    · simp only [checked, if_pos h]
      exact ⟨fun e => by cases e; exact ⟨rfl, h⟩, fun e => by cases e.1; rfl⟩
    · simp only [checked, if_neg h]
      exact ⟨fun e => (by cases e), fun e => by cases e.1; exact absurd e.2 h⟩

end Sys2Proof
end

