-- ==== Sys2Proof/Laws/Results.lean ====
section
/-!
SUPPORT. Results and loops: what `andThen` and `forEach` can do, said once.
-/

namespace Sys2Proof.Machine

@[simp] theorem andThen_next {α β : Type} (a : α) (k : α → Result β) : andThen (.next a) k = k a := rfl

@[simp] theorem andThen_fault {α β : Type} (e : Fault) (k : α → Result β) : andThen (.fault e) k = .fault e := rfl

@[simp] theorem andThen_refused {α β : Type} (e : Refusal) (k : α → Result β) : andThen (.refused e) k = .refused e := rfl

/-- A sequence answers next exactly when both parts do. -/
theorem andThen_eq_next {α β : Type} {r : Result α} {k : α → Result β} {b : β} :
    andThen r k = .next b ↔ ∃ a, r = .next a ∧ k a = .next b := by
  cases r <;> simp

theorem andThen_assoc {α β γ : Type} (r : Result α) (k : α → Result β) (l : β → Result γ) :
    andThen (andThen r k) l = andThen r fun a => andThen (k a) l := by
  cases r <;> rfl

@[simp] theorem forEach_nil {α : Type} (body : α → State → Result State) (s : State) : forEach [] body s = .next s := rfl

@[simp] theorem forEach_cons {α : Type} (a : α) (l : List α) (body : α → State → Result State) (s : State) :
    forEach (a :: l) body s = andThen (body a s) (forEach l body) := rfl

theorem forEach_append {α : Type} (l₁ l₂ : List α) (body : α → State → Result State) (s : State) :
    forEach (l₁ ++ l₂) body s = andThen (forEach l₁ body s) (forEach l₂ body) := by
  induction l₁ generalizing s with
  | nil => rfl
  | cons a l ih =>
    simp only [List.cons_append, forEach_cons, andThen_assoc]
    congr 1
    funext t
    exact ih t

/-- The last pass of a loop. -/
theorem forEach_concat_eq_next {α : Type} {l : List α} {a : α} {body : α → State → Result State} {s t : State} :
    forEach (l ++ [a]) body s = .next t ↔ ∃ u, forEach l body s = .next u ∧ body a u = .next t := by
  simp only [forEach_append, andThen_eq_next, forEach_cons, forEach_nil, Host.Outcome.next.injEq, exists_eq_right]

/-- A loop over a flattened range is the nested loop. -/
theorem forEach_flatMap {α β : Type} (l : List α) (f : α → List β) (body : β → State → Result State) (s : State) :
    forEach (l.flatMap f) body s = forEach l (fun a => forEach (f a) body) s := by
  induction l generalizing s with
  | nil => rfl
  | cons a l ih =>
    simp only [List.flatMap_cons, forEach_append, forEach_cons]
    congr 1
    funext t
    exact ih t

theorem forEach_map {α β : Type} (l : List α) (f : α → β) (body : β → State → Result State) (s : State) :
    forEach (l.map f) body s = forEach l (fun a => body (f a)) s := by
  induction l generalizing s with
  | nil => rfl
  | cons a l ih =>
    simp only [List.map_cons, forEach_cons]
    congr 1
    funext t
    exact ih t

/-- A loop whose body keeps `P` keeps `P`. -/
theorem forEach_keeps {α : Type} {body : α → State → Result State} (P : State → Prop) {l : List α}
    (step : ∀ a ∈ l, ∀ s t, P s → body a s = .next t → P t) {s t : State} (hs : P s) (h : forEach l body s = .next t) : P t := by
  induction l generalizing s with
  | nil => cases h; exact hs
  | cons a l ih =>
    obtain ⟨u, hu, hl⟩ := andThen_eq_next.1 h
    exact ih (fun b hb => step b (List.mem_cons_of_mem _ hb)) (step a List.mem_cons_self s u hs hu) hl

/-- A loop whose body always answers next and keeps `P` answers next and keeps `P`. -/
theorem forEach_completes {α : Type} {body : α → State → Result State} (P : State → Prop) {l : List α}
    (step : ∀ a ∈ l, ∀ s, P s → ∃ t, body a s = .next t ∧ P t) {s : State} (hs : P s) :
    ∃ t, forEach l body s = .next t ∧ P t := by
  induction l generalizing s with
  | nil => exact ⟨s, rfl, hs⟩
  | cons a l ih =>
    obtain ⟨u, hu, hP⟩ := step a List.mem_cons_self s hs
    obtain ⟨t, ht, hPt⟩ := ih (fun b hb => step b (List.mem_cons_of_mem _ hb)) hP
    exact ⟨t, by simp [hu, ht], hPt⟩

/-- A loop with an invariant over the members already visited: if every pass completes and carries it on, the loop completes. -/
theorem forEach_visits {α : Type} {body : α → State → Result State} (P : List α → State → Prop) {l : List α}
    (step : ∀ visited, ∀ a ∈ l, ∀ s, P visited s → ∃ t, body a s = .next t ∧ P (visited ++ [a]) t) {s : State} (hs : P [] s) :
    ∃ t, forEach l body s = .next t ∧ P l t := by
  suffices h : ∀ (m visited : List α) (s : State), (∀ a ∈ m, a ∈ l) → P visited s →
      ∃ t, forEach m body s = .next t ∧ P (visited ++ m) t from h l [] s (fun _ h => h) hs
  intro m
  induction m with
  | nil => exact fun visited s _ h => ⟨s, rfl, by simpa using h⟩
  | cons a m ih =>
    intro visited s hm h
    obtain ⟨u, hu, hP⟩ := step visited a (hm a List.mem_cons_self) s h
    obtain ⟨t, ht, hPt⟩ := ih (visited ++ [a]) u (fun b hb => hm b (List.mem_cons_of_mem _ hb)) hP
    exact ⟨t, by simp [hu, ht], by simpa using hPt⟩

/-- A descending range ends at 1. -/
theorem downTo1_eq_concat (n : Nat) : ∃ l, downTo1 (n + 1) = l ++ [1] := by
  induction n with
  | zero => exact ⟨[], rfl⟩
  | succ n ih =>
    obtain ⟨l, hl⟩ := ih
    exact ⟨(n + 2) :: l, by rw [downTo1, hl]; rfl⟩

/-- The range of a descending loop. -/
theorem mem_downTo1 {n a : Nat} : a ∈ downTo1 n ↔ 1 ≤ a ∧ a ≤ n := by
  induction n with
  | zero => simp [downTo1]; omega
  | succ n ih => simp [downTo1, ih]; omega

end Sys2Proof.Machine
end

