-- ==== Sys2Proof/Laws/State.lean ====
section
/-!
SUPPORT. One lemma per field of State per register update, so that no later proof unfolds a record update.
-/

namespace Sys2Proof.Machine.State

section setPhase

variable (s : State) (p : Phase)

@[simp] theorem setPhase_phase : (s.setPhase p).phase = p := rfl
@[simp] theorem setPhase_status : (s.setPhase p).status = s.status := rfl
@[simp] theorem setPhase_cmd : (s.setPhase p).cmd = s.cmd := rfl
@[simp] theorem setPhase_cfg : (s.setPhase p).cfg = s.cfg := rfl
@[simp] theorem setPhase_metaLen : (s.setPhase p).metaLen = s.metaLen := rfl
@[simp] theorem setPhase_dumpLen : (s.setPhase p).dumpLen = s.dumpLen := rfl
@[simp] theorem setPhase_gains : (s.setPhase p).gains = s.gains := rfl
@[simp] theorem setPhase_metaBlob : (s.setPhase p).metaBlob = s.metaBlob := rfl
@[simp] theorem setPhase_raw : (s.setPhase p).raw = s.raw := rfl
@[simp] theorem setPhase_geom : (s.setPhase p).geom = s.geom := rfl
@[simp] theorem setPhase_prof : (s.setPhase p).prof = s.prof := rfl
@[simp] theorem setPhase_canvas : (s.setPhase p).canvas = s.canvas := rfl
@[simp] theorem setPhase_lut : (s.setPhase p).lut = s.lut := rfl
@[simp] theorem setPhase_grid : (s.setPhase p).grid = s.grid := rfl
@[simp] theorem setPhase_out : (s.setPhase p).out = s.out := rfl
@[simp] theorem setPhase_ctr : (s.setPhase p).ctr = s.ctr := rfl
@[simp] theorem setPhase_dp : (s.setPhase p).dp = s.dp := rfl
@[simp] theorem setPhase_emitted : (s.setPhase p).emitted = s.emitted := rfl

end setPhase

section setStatus

variable (s : State) (st : Status)

@[simp] theorem setStatus_phase : (s.setStatus st).phase = s.phase := rfl
@[simp] theorem setStatus_status : (s.setStatus st).status = st := rfl
@[simp] theorem setStatus_cmd : (s.setStatus st).cmd = s.cmd := rfl
@[simp] theorem setStatus_cfg : (s.setStatus st).cfg = s.cfg := rfl
@[simp] theorem setStatus_metaLen : (s.setStatus st).metaLen = s.metaLen := rfl
@[simp] theorem setStatus_dumpLen : (s.setStatus st).dumpLen = s.dumpLen := rfl
@[simp] theorem setStatus_gains : (s.setStatus st).gains = s.gains := rfl
@[simp] theorem setStatus_metaBlob : (s.setStatus st).metaBlob = s.metaBlob := rfl
@[simp] theorem setStatus_raw : (s.setStatus st).raw = s.raw := rfl
@[simp] theorem setStatus_geom : (s.setStatus st).geom = s.geom := rfl
@[simp] theorem setStatus_prof : (s.setStatus st).prof = s.prof := rfl
@[simp] theorem setStatus_canvas : (s.setStatus st).canvas = s.canvas := rfl
@[simp] theorem setStatus_lut : (s.setStatus st).lut = s.lut := rfl
@[simp] theorem setStatus_grid : (s.setStatus st).grid = s.grid := rfl
@[simp] theorem setStatus_out : (s.setStatus st).out = s.out := rfl
@[simp] theorem setStatus_ctr : (s.setStatus st).ctr = s.ctr := rfl
@[simp] theorem setStatus_dp : (s.setStatus st).dp = s.dp := rfl
@[simp] theorem setStatus_emitted : (s.setStatus st).emitted = s.emitted := rfl

end setStatus

section setGeom

variable (s : State) (g : Geometry)

@[simp] theorem setGeom_phase : (s.setGeom g).phase = s.phase := rfl
@[simp] theorem setGeom_status : (s.setGeom g).status = s.status := rfl
@[simp] theorem setGeom_cmd : (s.setGeom g).cmd = s.cmd := rfl
@[simp] theorem setGeom_cfg : (s.setGeom g).cfg = s.cfg := rfl
@[simp] theorem setGeom_metaLen : (s.setGeom g).metaLen = s.metaLen := rfl
@[simp] theorem setGeom_dumpLen : (s.setGeom g).dumpLen = s.dumpLen := rfl
@[simp] theorem setGeom_gains : (s.setGeom g).gains = s.gains := rfl
@[simp] theorem setGeom_metaBlob : (s.setGeom g).metaBlob = s.metaBlob := rfl
@[simp] theorem setGeom_raw : (s.setGeom g).raw = s.raw := rfl
@[simp] theorem setGeom_geom : (s.setGeom g).geom = g := rfl
@[simp] theorem setGeom_prof : (s.setGeom g).prof = s.prof := rfl
@[simp] theorem setGeom_canvas : (s.setGeom g).canvas = s.canvas := rfl
@[simp] theorem setGeom_lut : (s.setGeom g).lut = s.lut := rfl
@[simp] theorem setGeom_grid : (s.setGeom g).grid = s.grid := rfl
@[simp] theorem setGeom_out : (s.setGeom g).out = s.out := rfl
@[simp] theorem setGeom_ctr : (s.setGeom g).ctr = s.ctr := rfl
@[simp] theorem setGeom_dp : (s.setGeom g).dp = s.dp := rfl
@[simp] theorem setGeom_emitted : (s.setGeom g).emitted = s.emitted := rfl

end setGeom

section setProf

variable (s : State) (p : ProfileRegs)

@[simp] theorem setProf_phase : (s.setProf p).phase = s.phase := rfl
@[simp] theorem setProf_status : (s.setProf p).status = s.status := rfl
@[simp] theorem setProf_cmd : (s.setProf p).cmd = s.cmd := rfl
@[simp] theorem setProf_cfg : (s.setProf p).cfg = s.cfg := rfl
@[simp] theorem setProf_metaLen : (s.setProf p).metaLen = s.metaLen := rfl
@[simp] theorem setProf_dumpLen : (s.setProf p).dumpLen = s.dumpLen := rfl
@[simp] theorem setProf_gains : (s.setProf p).gains = s.gains := rfl
@[simp] theorem setProf_metaBlob : (s.setProf p).metaBlob = s.metaBlob := rfl
@[simp] theorem setProf_raw : (s.setProf p).raw = s.raw := rfl
@[simp] theorem setProf_geom : (s.setProf p).geom = s.geom := rfl
@[simp] theorem setProf_prof : (s.setProf p).prof = p := rfl
@[simp] theorem setProf_canvas : (s.setProf p).canvas = s.canvas := rfl
@[simp] theorem setProf_lut : (s.setProf p).lut = s.lut := rfl
@[simp] theorem setProf_grid : (s.setProf p).grid = s.grid := rfl
@[simp] theorem setProf_out : (s.setProf p).out = s.out := rfl
@[simp] theorem setProf_ctr : (s.setProf p).ctr = s.ctr := rfl
@[simp] theorem setProf_dp : (s.setProf p).dp = s.dp := rfl
@[simp] theorem setProf_emitted : (s.setProf p).emitted = s.emitted := rfl

end setProf

section setCanvas

variable (s : State) (c : Canvas)

@[simp] theorem setCanvas_phase : (s.setCanvas c).phase = s.phase := rfl
@[simp] theorem setCanvas_status : (s.setCanvas c).status = s.status := rfl
@[simp] theorem setCanvas_cmd : (s.setCanvas c).cmd = s.cmd := rfl
@[simp] theorem setCanvas_cfg : (s.setCanvas c).cfg = s.cfg := rfl
@[simp] theorem setCanvas_metaLen : (s.setCanvas c).metaLen = s.metaLen := rfl
@[simp] theorem setCanvas_dumpLen : (s.setCanvas c).dumpLen = s.dumpLen := rfl
@[simp] theorem setCanvas_gains : (s.setCanvas c).gains = s.gains := rfl
@[simp] theorem setCanvas_metaBlob : (s.setCanvas c).metaBlob = s.metaBlob := rfl
@[simp] theorem setCanvas_raw : (s.setCanvas c).raw = s.raw := rfl
@[simp] theorem setCanvas_geom : (s.setCanvas c).geom = s.geom := rfl
@[simp] theorem setCanvas_prof : (s.setCanvas c).prof = s.prof := rfl
@[simp] theorem setCanvas_canvas : (s.setCanvas c).canvas = c := rfl
@[simp] theorem setCanvas_lut : (s.setCanvas c).lut = s.lut := rfl
@[simp] theorem setCanvas_grid : (s.setCanvas c).grid = s.grid := rfl
@[simp] theorem setCanvas_out : (s.setCanvas c).out = s.out := rfl
@[simp] theorem setCanvas_ctr : (s.setCanvas c).ctr = s.ctr := rfl
@[simp] theorem setCanvas_dp : (s.setCanvas c).dp = s.dp := rfl
@[simp] theorem setCanvas_emitted : (s.setCanvas c).emitted = s.emitted := rfl

end setCanvas

section setLut

variable (s : State) (t : Tables)

@[simp] theorem setLut_phase : (s.setLut t).phase = s.phase := rfl
@[simp] theorem setLut_status : (s.setLut t).status = s.status := rfl
@[simp] theorem setLut_cmd : (s.setLut t).cmd = s.cmd := rfl
@[simp] theorem setLut_cfg : (s.setLut t).cfg = s.cfg := rfl
@[simp] theorem setLut_metaLen : (s.setLut t).metaLen = s.metaLen := rfl
@[simp] theorem setLut_dumpLen : (s.setLut t).dumpLen = s.dumpLen := rfl
@[simp] theorem setLut_gains : (s.setLut t).gains = s.gains := rfl
@[simp] theorem setLut_metaBlob : (s.setLut t).metaBlob = s.metaBlob := rfl
@[simp] theorem setLut_raw : (s.setLut t).raw = s.raw := rfl
@[simp] theorem setLut_geom : (s.setLut t).geom = s.geom := rfl
@[simp] theorem setLut_prof : (s.setLut t).prof = s.prof := rfl
@[simp] theorem setLut_canvas : (s.setLut t).canvas = s.canvas := rfl
@[simp] theorem setLut_lut : (s.setLut t).lut = t := rfl
@[simp] theorem setLut_grid : (s.setLut t).grid = s.grid := rfl
@[simp] theorem setLut_out : (s.setLut t).out = s.out := rfl
@[simp] theorem setLut_ctr : (s.setLut t).ctr = s.ctr := rfl
@[simp] theorem setLut_dp : (s.setLut t).dp = s.dp := rfl
@[simp] theorem setLut_emitted : (s.setLut t).emitted = s.emitted := rfl

end setLut

section setGrid

variable (s : State) (m : Mem 16)

@[simp] theorem setGrid_phase : (s.setGrid m).phase = s.phase := rfl
@[simp] theorem setGrid_status : (s.setGrid m).status = s.status := rfl
@[simp] theorem setGrid_cmd : (s.setGrid m).cmd = s.cmd := rfl
@[simp] theorem setGrid_cfg : (s.setGrid m).cfg = s.cfg := rfl
@[simp] theorem setGrid_metaLen : (s.setGrid m).metaLen = s.metaLen := rfl
@[simp] theorem setGrid_dumpLen : (s.setGrid m).dumpLen = s.dumpLen := rfl
@[simp] theorem setGrid_gains : (s.setGrid m).gains = s.gains := rfl
@[simp] theorem setGrid_metaBlob : (s.setGrid m).metaBlob = s.metaBlob := rfl
@[simp] theorem setGrid_raw : (s.setGrid m).raw = s.raw := rfl
@[simp] theorem setGrid_geom : (s.setGrid m).geom = s.geom := rfl
@[simp] theorem setGrid_prof : (s.setGrid m).prof = s.prof := rfl
@[simp] theorem setGrid_canvas : (s.setGrid m).canvas = s.canvas := rfl
@[simp] theorem setGrid_lut : (s.setGrid m).lut = s.lut := rfl
@[simp] theorem setGrid_grid : (s.setGrid m).grid = m := rfl
@[simp] theorem setGrid_out : (s.setGrid m).out = s.out := rfl
@[simp] theorem setGrid_ctr : (s.setGrid m).ctr = s.ctr := rfl
@[simp] theorem setGrid_dp : (s.setGrid m).dp = s.dp := rfl
@[simp] theorem setGrid_emitted : (s.setGrid m).emitted = s.emitted := rfl

end setGrid

section setOut

variable (s : State) (m : Mem 16)

@[simp] theorem setOut_phase : (s.setOut m).phase = s.phase := rfl
@[simp] theorem setOut_status : (s.setOut m).status = s.status := rfl
@[simp] theorem setOut_cmd : (s.setOut m).cmd = s.cmd := rfl
@[simp] theorem setOut_cfg : (s.setOut m).cfg = s.cfg := rfl
@[simp] theorem setOut_metaLen : (s.setOut m).metaLen = s.metaLen := rfl
@[simp] theorem setOut_dumpLen : (s.setOut m).dumpLen = s.dumpLen := rfl
@[simp] theorem setOut_gains : (s.setOut m).gains = s.gains := rfl
@[simp] theorem setOut_metaBlob : (s.setOut m).metaBlob = s.metaBlob := rfl
@[simp] theorem setOut_raw : (s.setOut m).raw = s.raw := rfl
@[simp] theorem setOut_geom : (s.setOut m).geom = s.geom := rfl
@[simp] theorem setOut_prof : (s.setOut m).prof = s.prof := rfl
@[simp] theorem setOut_canvas : (s.setOut m).canvas = s.canvas := rfl
@[simp] theorem setOut_lut : (s.setOut m).lut = s.lut := rfl
@[simp] theorem setOut_grid : (s.setOut m).grid = s.grid := rfl
@[simp] theorem setOut_out : (s.setOut m).out = m := rfl
@[simp] theorem setOut_ctr : (s.setOut m).ctr = s.ctr := rfl
@[simp] theorem setOut_dp : (s.setOut m).dp = s.dp := rfl
@[simp] theorem setOut_emitted : (s.setOut m).emitted = s.emitted := rfl

end setOut

section setCtr

variable (s : State) (c : Counters)

@[simp] theorem setCtr_phase : (s.setCtr c).phase = s.phase := rfl
@[simp] theorem setCtr_status : (s.setCtr c).status = s.status := rfl
@[simp] theorem setCtr_cmd : (s.setCtr c).cmd = s.cmd := rfl
@[simp] theorem setCtr_cfg : (s.setCtr c).cfg = s.cfg := rfl
@[simp] theorem setCtr_metaLen : (s.setCtr c).metaLen = s.metaLen := rfl
@[simp] theorem setCtr_dumpLen : (s.setCtr c).dumpLen = s.dumpLen := rfl
@[simp] theorem setCtr_gains : (s.setCtr c).gains = s.gains := rfl
@[simp] theorem setCtr_metaBlob : (s.setCtr c).metaBlob = s.metaBlob := rfl
@[simp] theorem setCtr_raw : (s.setCtr c).raw = s.raw := rfl
@[simp] theorem setCtr_geom : (s.setCtr c).geom = s.geom := rfl
@[simp] theorem setCtr_prof : (s.setCtr c).prof = s.prof := rfl
@[simp] theorem setCtr_canvas : (s.setCtr c).canvas = s.canvas := rfl
@[simp] theorem setCtr_lut : (s.setCtr c).lut = s.lut := rfl
@[simp] theorem setCtr_grid : (s.setCtr c).grid = s.grid := rfl
@[simp] theorem setCtr_out : (s.setCtr c).out = s.out := rfl
@[simp] theorem setCtr_ctr : (s.setCtr c).ctr = c := rfl
@[simp] theorem setCtr_dp : (s.setCtr c).dp = s.dp := rfl
@[simp] theorem setCtr_emitted : (s.setCtr c).emitted = s.emitted := rfl

end setCtr

section setDp

variable (s : State) (d : Datapath)

@[simp] theorem setDp_phase : (s.setDp d).phase = s.phase := rfl
@[simp] theorem setDp_status : (s.setDp d).status = s.status := rfl
@[simp] theorem setDp_cmd : (s.setDp d).cmd = s.cmd := rfl
@[simp] theorem setDp_cfg : (s.setDp d).cfg = s.cfg := rfl
@[simp] theorem setDp_metaLen : (s.setDp d).metaLen = s.metaLen := rfl
@[simp] theorem setDp_dumpLen : (s.setDp d).dumpLen = s.dumpLen := rfl
@[simp] theorem setDp_gains : (s.setDp d).gains = s.gains := rfl
@[simp] theorem setDp_metaBlob : (s.setDp d).metaBlob = s.metaBlob := rfl
@[simp] theorem setDp_raw : (s.setDp d).raw = s.raw := rfl
@[simp] theorem setDp_geom : (s.setDp d).geom = s.geom := rfl
@[simp] theorem setDp_prof : (s.setDp d).prof = s.prof := rfl
@[simp] theorem setDp_canvas : (s.setDp d).canvas = s.canvas := rfl
@[simp] theorem setDp_lut : (s.setDp d).lut = s.lut := rfl
@[simp] theorem setDp_grid : (s.setDp d).grid = s.grid := rfl
@[simp] theorem setDp_out : (s.setDp d).out = s.out := rfl
@[simp] theorem setDp_ctr : (s.setDp d).ctr = s.ctr := rfl
@[simp] theorem setDp_dp : (s.setDp d).dp = d := rfl
@[simp] theorem setDp_emitted : (s.setDp d).emitted = s.emitted := rfl

end setDp

section setEmitted

variable (s : State) (l : List Cell16)

@[simp] theorem setEmitted_phase : (s.setEmitted l).phase = s.phase := rfl
@[simp] theorem setEmitted_status : (s.setEmitted l).status = s.status := rfl
@[simp] theorem setEmitted_cmd : (s.setEmitted l).cmd = s.cmd := rfl
@[simp] theorem setEmitted_cfg : (s.setEmitted l).cfg = s.cfg := rfl
@[simp] theorem setEmitted_metaLen : (s.setEmitted l).metaLen = s.metaLen := rfl
@[simp] theorem setEmitted_dumpLen : (s.setEmitted l).dumpLen = s.dumpLen := rfl
@[simp] theorem setEmitted_gains : (s.setEmitted l).gains = s.gains := rfl
@[simp] theorem setEmitted_metaBlob : (s.setEmitted l).metaBlob = s.metaBlob := rfl
@[simp] theorem setEmitted_raw : (s.setEmitted l).raw = s.raw := rfl
@[simp] theorem setEmitted_geom : (s.setEmitted l).geom = s.geom := rfl
@[simp] theorem setEmitted_prof : (s.setEmitted l).prof = s.prof := rfl
@[simp] theorem setEmitted_canvas : (s.setEmitted l).canvas = s.canvas := rfl
@[simp] theorem setEmitted_lut : (s.setEmitted l).lut = s.lut := rfl
@[simp] theorem setEmitted_grid : (s.setEmitted l).grid = s.grid := rfl
@[simp] theorem setEmitted_out : (s.setEmitted l).out = s.out := rfl
@[simp] theorem setEmitted_ctr : (s.setEmitted l).ctr = s.ctr := rfl
@[simp] theorem setEmitted_dp : (s.setEmitted l).dp = s.dp := rfl
@[simp] theorem setEmitted_emitted : (s.setEmitted l).emitted = l := rfl

end setEmitted

end Sys2Proof.Machine.State
end

