-- ==== Sys2Proof/Laws/Ops.lean ====
section
/-!
SUPPORT. One lemma per shared operation: exactly when it answers next, and with what.
-/

namespace Sys2Proof.Machine

theorem load_eq_next {w : Nat} {sp : Space} {m : Mem w} {a : Nat} {v : BitVec w} :
    load sp m a = .next v ↔ memRead m a = some v := by
  unfold load
  cases h : memRead m a <;> simp

theorem readMeta_eq_next {a : Nat} {s : State} {v : Byte} :
    readMeta a s = .next v ↔ a < s.metaLen.toNat ∧ memRead s.metaBlob a = some v := by
  unfold readMeta
  split <;> simp_all [load_eq_next]

theorem readBe16_eq_next {a : Nat} {s : State} {v : BitVec 16} :
    readBe16 a s = .next v ↔ ∃ hi lo, readMeta a s = .next hi ∧ readMeta (a + 1) s = .next lo ∧ bigEndian hi lo = v := by
  simp [readBe16, andThen_eq_next]

theorem readRaw_eq_next {a : Nat} {s : State} {v : Byte} :
    readRaw a s = .next v ↔ a < s.dumpLen.toNat ∧ memRead s.raw a = some v := by
  unfold readRaw
  split <;> simp_all [load_eq_next]

theorem readRawWord_eq_next {k : Nat} {s : State} {w : PackedWord} :
    readRawWord k s = .next w ↔ 4 * k + 3 < s.dumpLen.toNat ∧ ∃ b0 b1 b2 b3,
      memRead s.raw (4 * k) = some b0 ∧ memRead s.raw (4 * k + 1) = some b1 ∧ memRead s.raw (4 * k + 2) = some b2 ∧
        memRead s.raw (4 * k + 3) = some b3 ∧ littleEndian b0 b1 b2 b3 = w := by
  unfold readRawWord
  split <;> simp_all [andThen_eq_next, load_eq_next]

theorem readLut_eq_next {t : Nat} {smp : Sample} {s : State} {v : Cell16} :
    readLut t smp s = .next v ↔ memRead (tableAt s.lut t) smp.toNat = some v := load_eq_next

theorem readGrid_eq_next {x y c : Nat} {s : State} {v : Cell16} :
    readGrid x y c s = .next v ↔ gridHas s x y c = true ∧ memRead s.grid (gridIndex s x y c) = some v := by
  unfold readGrid
  split <;> simp_all [load_eq_next]

theorem writeGrid_eq_next {x y c : Nat} {v : Cell16} {s t : State} :
    writeGrid x y c v s = .next t ↔
      gridHas s x y c = true ∧ t = s.setGrid (memWrite s.grid (gridIndex s x y c) v) := by
  unfold writeGrid
  split
  · rename_i h
    exact ⟨fun e => ⟨h, by cases e; rfl⟩, fun e => by rw [e.2]⟩
  · rename_i h
    exact ⟨fun e => (by cases e), fun e => absurd e.1 h⟩

theorem readOut_eq_next {x y c : Nat} {s : State} {v : Cell16} :
    readOut x y c s = .next v ↔ outHas s x y c = true ∧ memRead s.out (outIndex s x y c) = some v := by
  unfold readOut
  split <;> simp_all [load_eq_next]

theorem writeOut_eq_next {x y c : Nat} {v : Cell16} {s t : State} :
    writeOut x y c v s = .next t ↔
      outHas s x y c = true ∧ t = s.setOut (memWrite s.out (outIndex s x y c) v) := by
  unfold writeOut
  split
  · rename_i h
    exact ⟨fun e => ⟨h, by cases e; rfl⟩, fun e => by rw [e.2]⟩
  · rename_i h
    exact ⟨fun e => (by cases e), fun e => absurd e.1 h⟩

theorem readOutNumber_eq_next {n : Nat} {s : State} {v : Cell16} :
    readOutNumber n s = .next v ↔ n < outSize s ∧ memRead s.out n = some v := by
  unfold readOutNumber
  split <;> simp_all [load_eq_next]

/-- Taking an exception: what is written, and that nothing else is (60_exceptions.md rule R205). -/
theorem raise_eq (code : ErrCode) (s : State) :
    raise code s = .next { s with
      status := ⟨false, s.status.done, true, code⟩, phase := .error } := rfl

/-- Entering DONE: what is written, and that nothing else is (46_setup_and_output.md rule R190). -/
theorem enterDone_eq (s : State) :
    enterDone s = .next { s with
      status := ⟨false, true, s.status.err, s.status.errcode⟩, phase := .done } := rfl

/-- Two values of the canvas with the same linear index are the same value (20_memory.md rules R66, R67). -/
theorem cellIndex_inj {W C x y c x' y' c' : Nat} (hx : x < W) (hc : c < C) (hx' : x' < W) (hc' : c' < C)
    (h : cellIndex W C x y c = cellIndex W C x' y' c') : x = x' ∧ y = y' ∧ c = c' := by
  unfold cellIndex at h
  have hC : 0 < C := Nat.lt_of_le_of_lt (Nat.zero_le _) hc
  have hW : 0 < W := Nat.lt_of_le_of_lt (Nat.zero_le _) hx
  have e1 : c = c' := by
    have := congrArg (· % C) h
    simpa [Nat.mul_add_mod', Nat.mod_eq_of_lt hc, Nat.mod_eq_of_lt hc', Nat.add_comm, Nat.add_mul_mod_self_right] using this
  subst e1
  have e2 : y * W + x = y' * W + x' := Nat.eq_of_mul_eq_mul_right hC (Nat.add_right_cancel h)
  have e3 : x = x' := by
    have := congrArg (· % W) e2
    simpa [Nat.mod_eq_of_lt hx, Nat.mod_eq_of_lt hx', Nat.add_comm, Nat.add_mul_mod_self_right] using this
  subst e3
  exact ⟨rfl, Nat.eq_of_mul_eq_mul_right hW (Nat.add_right_cancel e2), rfl⟩

/-- A value of the canvas lies below its size (20_memory.md rules R66, R67). -/
theorem cellIndex_lt {W H C x y c : Nat} (hx : x < W) (hy : y < H) (hc : c < C) : cellIndex W C x y c < W * H * C := by
  unfold cellIndex
  calc (y * W + x) * C + c < (y * W + x) * C + C := by omega
    _ = (y * W + x + 1) * C := by ring
    _ ≤ (H * W) * C := by
        apply Nat.mul_le_mul_right
        calc y * W + x + 1 ≤ y * W + W := by omega
          _ = (y + 1) * W := by ring
          _ ≤ H * W := Nat.mul_le_mul_right _ hy
    _ = W * H * C := by ring

/-- Every index below the size is that of a value (20_memory.md rules R66, R67). -/
theorem exists_cellIndex_eq {W H C n : Nat} (h : n < W * H * C) : ∃ x y c, x < W ∧ y < H ∧ c < C ∧ n = cellIndex W C x y c := by
  have hC : 0 < C := Nat.pos_of_ne_zero fun e => by simp [e] at h
  have hW : 0 < W := Nat.pos_of_ne_zero fun e => by simp [e] at h
  refine ⟨n / C % W, n / C / W, n % C, Nat.mod_lt _ hW, ?_, Nat.mod_lt _ hC, ?_⟩
  · rw [Nat.div_div_eq_div_mul]
    apply Nat.div_lt_of_lt_mul
    calc n < W * H * C := h
      _ = C * W * H := by ring
  · unfold cellIndex
    rw [Nat.mul_comm (n / C / W), Nat.div_add_mod, Nat.mul_comm, Nat.div_add_mod]

end Sys2Proof.Machine
end

