-- ==== Sys2Proof/Laws/Sizes.lean ====
section
/-!
SUPPORT. The setup arithmetic: that no register of CHKSIZE and GSEL wraps in a run, what a dump length selects, and what the profile
registers hold.
-/

namespace Sys2Proof.Machine

theorem wordsPerRow_le (w : BitVec 16) : wordsPerRow w.toNat ≤ 21845 := by
  have := w.isLt
  unfold wordsPerRow
  omega

/-- WPR fits its 15 bits (00_scope.md rule R8). -/
theorem toNat_wpr (w : BitVec 16) : (BitVec.ofNat 15 (wordsPerRow w.toNat)).toNat = wordsPerRow w.toNat := by
  have := wordsPerRow_le w
  rw [BitVec.toNat_ofNat]
  exact Nat.mod_eq_of_lt (by omega)

theorem fieldBytesOf_lt (h w : BitVec 16) : fieldBytesOf h.toNat (wordsPerRow w.toNat) < 2 ^ 35 := by
  have h1 := h.isLt
  have h2 := wordsPerRow_le w
  have := Nat.mul_le_mul (show 4 * h.toNat ≤ 4 * 65535 by omega) (show 4 * wordsPerRow w.toNat ≤ 4 * 21845 by omega)
  unfold fieldBytesOf
  omega

/-- FIELD_BYTES fits its 35 bits (00_scope.md rule R8). -/
theorem toNat_fieldBytes (h w : BitVec 16) :
    (BitVec.ofNat 35 (fieldBytesOf h.toNat (wordsPerRow w.toNat))).toNat = fieldBytesOf h.toNat (wordsPerRow w.toNat) := by
  rw [BitVec.toNat_ofNat]
  exact Nat.mod_eq_of_lt (fieldBytesOf_lt h w)

/-- What a dump length selects (30_encoding.md rule R98). -/
theorem inferFieldCount_eq_some {d f : Nat} {nf : FieldCount} :
    inferFieldCount d f = some nf ↔ f ≠ 0 ∧ d = fieldCountNat nf * f := by
  unfold inferFieldCount
  by_cases h0 : f = 0
  · simp [h0]
  · rw [if_neg h0]
    cases nf <;> simp only [fieldCountNat] <;> split_ifs <;> simp_all

/-- What a dump length does not select (30_encoding.md rule R98). -/
theorem inferFieldCount_eq_none {d f : Nat} : inferFieldCount d f = none ↔ f = 0 ∨ ∀ nf, d ≠ fieldCountNat nf * f := by
  constructor
  · intro h
    by_contra hc
    rw [not_or] at hc
    obtain ⟨h0, h1⟩ := hc
    rw [not_forall] at h1
    obtain ⟨nf, hnf⟩ := h1
    rw [inferFieldCount_eq_some.2 ⟨h0, not_not.1 hnf⟩] at h
    cases h
  · intro h
    cases e : inferFieldCount d f with
    | none => rfl
    | some nf =>
      obtain ⟨a, b⟩ := inferFieldCount_eq_some.1 e
      rcases h with h | h
      · exact absurd h a
      · exact absurd b (h nf)

/-- What register `n` holds after a list of shifts is written from register `k` on (42_geometry_profile.md rule R145). -/
theorem getElem_loadShifts (l : List (BitVec 2)) (k : Nat) (v : Vector (BitVec 2) 8) (n : Nat) (hn : n < 8) :
    (loadShifts k l v)[n] = if k ≤ n then (l[n - k]?).getD v[n] else v[n] := by
  induction l generalizing k v with
  | nil => simp [loadShifts]
  | cons b l ih =>
    rw [loadShifts, ih, Vector.getElem_setIfInBounds]
    by_cases h1 : k = n
    · subst h1
      simp
    · by_cases h2 : k ≤ n
      · have e : n - k = n - (k + 1) + 1 := by omega
        simp [h1, h2, show k + 1 ≤ n by omega, e]
      · simp [h1, h2, show ¬k + 1 ≤ n by omega]

/-- Loading the same shifts again changes nothing (42_geometry_profile.md rule R145). -/
theorem loadShifts_idem (l : List (BitVec 2)) (k : Nat) (v : Vector (BitVec 2) 8) :
    loadShifts k l (loadShifts k l v) = loadShifts k l v := by
  apply Vector.ext
  intro n hn
  simp only [getElem_loadShifts]
  split
  · cases l[n - k]? <;> rfl
  · rfl

theorem selectProfile_idem (nf : FieldCount) (p : ProfileRegs) : selectProfile nf (selectProfile nf p) = selectProfile nf p := by
  simp [selectProfile, loadShifts_idem]

end Sys2Proof.Machine
end

