-- ==== Sys2Proof/Laws/Words.lean ====
section
/-!
SUPPORT. What the formulas over words come to as numbers.
-/

namespace Sys2Proof.Machine

theorem toNat_append_of {n m : Nat} (a : BitVec n) (b : BitVec m) : (a ++ b).toNat = a.toNat * 2 ^ m + b.toNat := by
  rw [BitVec.toNat_append, ← Nat.shiftLeft_add_eq_or_of_lt b.isLt, Nat.shiftLeft_eq]

/-- A big-endian pair as a number (20_memory.md rule R61). -/
theorem toNat_bigEndian (hi lo : Byte) : (bigEndian hi lo).toNat = hi.toNat * 256 + lo.toNat :=
  toNat_append_of hi lo

/-- A packed word as a number (20_memory.md rule R62). -/
theorem toNat_littleEndian (b0 b1 b2 b3 : Byte) :
    (littleEndian b0 b1 b2 b3).toNat = b0.toNat + b1.toNat * 2 ^ 8 + b2.toNat * 2 ^ 16 + b3.toNat * 2 ^ 24 := by
  simp only [littleEndian, toNat_append_of]
  ring

/-- A sample as a number (30_encoding.md rule R92). -/
theorem toNat_extractSample (w : PackedWord) (x : Nat) : (extractSample w x).toNat = w.toNat / 2 ^ (x % 3 * 10) % 1024 := by
  have e : (0x3FF#32).toNat = 2 ^ 10 - 1 := rfl
  rw [extractSample, BitVec.toNat_setWidth, BitVec.toNat_and, BitVec.toNat_ushiftRight, Nat.shiftRight_eq_div_pow, e,
    Nat.and_two_pow_sub_one_eq_mod, Nat.mod_mod]

/-- The truncated average as a number (44_gap_filler.md rule R174). -/
theorem toNat_average (a b : Cell16) : (average a b).toNat = (a.toNat + b.toNat) / 2 := by
  have ha := a.isLt
  have hb := b.isLt
  simp only [average, BitVec.toNat_setWidth, BitVec.toNat_ushiftRight, BitVec.toNat_add, Nat.shiftRight_eq_div_pow]
  omega

/-- The plane of an output channel as a number (00_scope.md rule R13). -/
theorem toNat_planeOfChannel (c : BitVec 2) : (planeOfChannel c).toNat = 3 - c.toNat := by
  revert c
  decide

end Sys2Proof.Machine
end

