-- ==== Sys2Proof/Laws/Frames.lean ====
section
/-!
SUPPORT. Frames: what each operation can write when it answers next. A frame says that the result is the old state with named fields
taken from the result.
-/

namespace Sys2Proof.Machine

/-! ### Primitives -/

theorem execUnpk_eq_next {i : BitVec 4} {p : BitVec 2} {y x : BitVec 16} {s t : State} :
    execUnpk i p y x s = .next t ↔ isSite s i y x = true ∧ ∃ w, readRawWord (sampleWord s i p y x) s = .next w ∧
      t = s.setDp { s.dp with w32 := w, samples := s.dp.samples.set p.toNat (extractSample w x.toNat) p.isLt } := by
  unfold execUnpk
  split
  · rename_i h
    simp only [andThen_eq_next, h, true_and]
    exact exists_congr fun w => and_congr_right fun _ => ⟨fun e => by cases e; rfl, fun e => by rw [e]⟩
  · rename_i h
    exact ⟨fun e => (by cases e), fun e => absurd e.1 h⟩

theorem execXform_eq_next {i : BitVec 4} {y x : BitVec 16} {s t : State} :
    execXform i y x s = .next t ↔ isSite s i y x = true ∧ t = s.setDp { s.dp with
      xp := BitVec.ofInt 18 (siteX s.prof i x), yp := BitVec.ofInt 19 (siteY s.prof i y x), inb := siteOnCanvas s i y x } := by
  unfold execXform
  split
  · rename_i h
    exact ⟨fun e => ⟨h, by cases e; rfl⟩, fun e => by rw [e.2]⟩
  · rename_i h
    exact ⟨fun e => (by cases e), fun e => absurd e.1 h⟩

theorem execLutrd_eq_next {c : BitVec 2} {smp : Sample} {s t : State} :
    execLutrd c smp s = .next t ↔ ∃ v, memRead (tableAt s.lut (tableOfChannel c)) smp.toNat = some v ∧
      t = s.setDp { s.dp with tones := s.dp.tones.set c.toNat v c.isLt } := by
  unfold execLutrd
  simp only [andThen_eq_next, readLut_eq_next]
  exact exists_congr fun v => and_congr_right fun _ => ⟨fun e => by cases e; rfl, fun e => by rw [e]⟩

theorem storeTone_eq_next {c : BitVec 2} {s t : State} :
    storeTone c s = .next t ↔ gridHas s s.dp.xp.toInt.toNat s.dp.yp.toInt.toNat c.toNat = true ∧
      t = s.setGrid (memWrite s.grid (gridIndex s s.dp.xp.toInt.toNat s.dp.yp.toInt.toNat c.toNat)
        (s.dp.tones[c.toNat]'c.isLt)) := writeGrid_eq_next

theorem execFillc_eq_next {x : BitVec 17} {y : BitVec 18} {c : BitVec 2} {s t : State} :
    execFillc x y c s = .next t ↔ isGapCell s x.toNat y.toNat c.toNat = true ∧ ∃ a b,
      readGrid x.toNat (y.toNat - 1) c.toNat s = .next a ∧ readGrid (x.toNat - 1) y.toNat c.toNat s = .next b ∧
      t = (s.setDp { s.dp with na := a, nb := b, av := average a b }).setGrid
        (memWrite s.grid (gridIndex s x.toNat y.toNat c.toNat) (average a b)) := by
  unfold execFillc
  split
  · rename_i h
    have hg : gridHas s x.toNat y.toNat c.toNat = true := by
      simp only [isGapCell, Bool.and_eq_true] at h
      exact h.2
    simp only [andThen_eq_next, h, true_and]
    refine exists_congr fun a => ?_
    constructor
    · rintro ⟨ha, b, hb, u, hu, ht⟩
      refine ⟨b, ha, hb, ?_⟩
      cases hu
      exact (writeGrid_eq_next.1 ht).2
    · rintro ⟨b, ha, hb, ht⟩
      exact ⟨ha, b, hb, _, rfl, writeGrid_eq_next.2 ⟨hg, ht⟩⟩
  · rename_i h
    exact ⟨fun e => (by cases e), fun e => absurd e.1 h⟩

theorem execCmov_eq_next {x : BitVec 17} {y : BitVec 18} {c : BitVec 2} {s t : State} :
    execCmov x y c s = .next t ↔ outHas s x.toNat y.toNat c.toNat = true ∧ ∃ v,
      readGrid (x.toNat + 1) (y.toNat + 1) c.toNat s = .next v ∧
      t = s.setOut (memWrite s.out (outIndex s x.toNat y.toNat c.toNat) v) := by
  unfold execCmov
  split
  · rename_i h
    simp only [andThen_eq_next, h, true_and, writeOut_eq_next]
  · rename_i h
    exact ⟨fun e => (by cases e), fun e => absurd e.1 h⟩

/-! ### Frames of the site operations and the stages -/

/-- `t` is `s` but for GRID and the datapath registers. -/
def SameButGridDp (s t : State) : Prop := t = { s with grid := t.grid, dp := t.dp }

/-- `t` is `s` but for GRID, the datapath registers and the loop counters. -/
def SameButGridDpCtr (s t : State) : Prop := t = { s with grid := t.grid, dp := t.dp, ctr := t.ctr }

/-- `t` is `s` but for OUT and the loop counters. -/
def SameButOutCtr (s t : State) : Prop := t = { s with out := t.out, ctr := t.ctr }

theorem SameButGridDp.trans {s t u : State} (h : SameButGridDp s t) (h' : SameButGridDp t u) : SameButGridDp s u := by
  unfold SameButGridDp at *
  rw [h', h]

theorem SameButGridDp.ctr {s t : State} (h : SameButGridDp s t) : SameButGridDpCtr s t := by
  unfold SameButGridDp at h
  unfold SameButGridDpCtr
  rw [h]

theorem SameButGridDpCtr.trans {s t u : State} (h : SameButGridDpCtr s t) (h' : SameButGridDpCtr t u) : SameButGridDpCtr s u := by
  unfold SameButGridDpCtr at *
  rw [h', h]

theorem SameButOutCtr.trans {s t u : State} (h : SameButOutCtr s t) (h' : SameButOutCtr t u) : SameButOutCtr s u := by
  unfold SameButOutCtr at *
  rw [h', h]

/-- What a frame over GRID, the datapath and the counters leaves. -/
theorem SameButGridDpCtr.fields {s t : State} (h : SameButGridDpCtr s t) :
    t.phase = s.phase ∧ t.status = s.status ∧ t.cfg = s.cfg ∧ t.dumpLen = s.dumpLen ∧ t.gains = s.gains ∧ t.raw = s.raw ∧
      t.geom = s.geom ∧ t.prof = s.prof ∧ t.canvas = s.canvas ∧ t.lut = s.lut ∧ t.out = s.out := by
  unfold SameButGridDpCtr at h
  rw [h]
  exact ⟨rfl, rfl, rfl, rfl, rfl, rfl, rfl, rfl, rfl, rfl, rfl⟩

theorem execUnpk_frame {i : BitVec 4} {p : BitVec 2} {y x : BitVec 16} {s t : State} (h : execUnpk i p y x s = .next t) :
    t = { s with dp := t.dp } := by
  obtain ⟨_, w, _, rfl⟩ := execUnpk_eq_next.1 h
  rfl

theorem execXform_frame {i : BitVec 4} {y x : BitVec 16} {s t : State} (h : execXform i y x s = .next t) :
    t = { s with dp := t.dp } := by
  obtain ⟨_, rfl⟩ := execXform_eq_next.1 h
  rfl

theorem execLutrd_frame {c : BitVec 2} {smp : Sample} {s t : State} (h : execLutrd c smp s = .next t) :
    t = { s with dp := t.dp } := by
  obtain ⟨v, _, rfl⟩ := execLutrd_eq_next.1 h
  rfl

theorem storeTone_frame {c : BitVec 2} {s t : State} (h : storeTone c s = .next t) : t = { s with grid := t.grid } := by
  obtain ⟨_, rfl⟩ := storeTone_eq_next.1 h
  rfl

theorem SameButGridDp.of_dp {s t : State} (h : t = { s with dp := t.dp }) : SameButGridDp s t := by
  unfold SameButGridDp
  rw [h]

theorem SameButGridDp.of_grid {s t : State} (h : t = { s with grid := t.grid }) : SameButGridDp s t := by
  unfold SameButGridDp
  rw [h]

theorem writeSite_frame {i : BitVec 4} {y x : BitVec 16} {s t : State} (h : writeSite i y x s = .next t) : SameButGridDp s t := by
  unfold writeSite at h
  obtain ⟨a, ha, h⟩ := andThen_eq_next.1 h
  obtain ⟨b, hb, h⟩ := andThen_eq_next.1 h
  obtain ⟨c, hc, h⟩ := andThen_eq_next.1 h
  have h1 : SameButGridDp s a := forEach_keeps (SameButGridDp s)
    (fun p _ u v hu hv => hu.trans (.of_dp (execUnpk_frame hv))) (s := s) rfl ha
  have h2 : SameButGridDp s b := forEach_keeps (SameButGridDp s)
    (fun p _ u v hu hv => hu.trans (.of_dp (execLutrd_frame hv))) h1 hb
  have h3 : SameButGridDp s c := forEach_keeps (SameButGridDp s)
    (fun p _ u v hu hv => hu.trans (.of_grid (storeTone_frame hv))) h2 hc
  split at h
  · obtain ⟨d, hd, h⟩ := andThen_eq_next.1 h
    exact (h3.trans (.of_dp (execLutrd_frame hd))).trans (.of_grid (storeTone_frame h))
  · cases h
    exact h3

theorem execRsite_frame {i : BitVec 4} {y x : BitVec 16} {s t : State} (h : execRsite i y x s = .next t) : SameButGridDp s t := by
  unfold execRsite at h
  obtain ⟨a, ha, h⟩ := andThen_eq_next.1 h
  have h1 : SameButGridDp s a := .of_dp (execXform_frame ha)
  split at h
  · exact h1.trans (writeSite_frame h)
  · cases h
    exact h1

theorem remapSite_frame {site : Nat × Nat × Nat} {s t : State} (h : remapSite site s = .next t) : SameButGridDpCtr s t := by
  unfold remapSite at h
  exact SameButGridDpCtr.trans (t := s.setCtr _) rfl (execRsite_frame h).ctr

/-- REMAP writes GRID, the datapath registers, the counters and PHASE (43_field_remapper.md rule R155). -/
theorem execRemap_frame {s t : State} (h : execRemap s = .next t) :
    ∃ u, forEach (remapSites (fieldCountNat s.geom.nf) s.geom.height.toNat s.geom.width.toNat) remapSite s = .next u ∧
      SameButGridDpCtr s u ∧ t = u.setPhase (afterRemap s.geom.nf) := by
  unfold execRemap at h
  obtain ⟨u, hu, h⟩ := andThen_eq_next.1 h
  refine ⟨u, hu, ?_, by cases h; rfl⟩
  exact forEach_keeps (SameButGridDpCtr s) (fun a _ v w hv hw => hv.trans (remapSite_frame hw)) (s := s) rfl hu

theorem execFillc_frame {x : BitVec 17} {y : BitVec 18} {c : BitVec 2} {s t : State} (h : execFillc x y c s = .next t) :
    SameButGridDp s t := by
  obtain ⟨_, a, b, _, _, rfl⟩ := execFillc_eq_next.1 h
  rfl

theorem fillChannel_frame {c : Nat} {s t : State} (h : fillChannel c s = .next t) : SameButGridDpCtr s t := by
  unfold fillChannel at h
  exact SameButGridDpCtr.trans (t := s.setCtr _) rfl (execFillc_frame h).ctr

theorem fillVisit_frame {cell : Nat × Nat} {s t : State} (h : fillVisit cell s = .next t) : SameButGridDpCtr s t := by
  unfold fillVisit at h
  dsimp only at h
  split at h
  · refine forEach_keeps (SameButGridDpCtr s) (fun a _ v w hv hw => hv.trans (fillChannel_frame hw)) ?_ h
    rfl
  · cases h
    rfl

/-- FILL writes GRID, the datapath registers, the counters and PHASE (44_gap_filler.md rule R170). -/
theorem execFill_frame {s t : State} (h : execFill s = .next t) :
    ∃ u, forEach (fillVisits s.canvas.wout.toNat s.canvas.hout.toNat) fillVisit s = .next u ∧
      SameButGridDpCtr s u ∧ t = u.setPhase .crop := by
  unfold execFill at h
  obtain ⟨u, hu, h⟩ := andThen_eq_next.1 h
  refine ⟨u, hu, ?_, by cases h; rfl⟩
  exact forEach_keeps (SameButGridDpCtr s) (fun a _ v w hv hw => hv.trans (fillVisit_frame hw)) (s := s) rfl hu

theorem cropValue_frame {v : Nat × Nat × Nat} {s t : State} (h : cropValue v s = .next t) : SameButOutCtr s t := by
  unfold cropValue at h
  obtain ⟨_, w, _, rfl⟩ := execCmov_eq_next.1 h
  rfl

/-- CROP writes OUT, the counters and PHASE (45_cropper.md rule R180). -/
theorem execCrop_frame {s t : State} (h : execCrop s = .next t) :
    ∃ u, forEach (cropValues s.canvas.outW.toNat s.canvas.outH.toNat s.canvas.cc.toNat) cropValue s = .next u ∧
      SameButOutCtr s u ∧ t = u.setPhase .emit := by
  unfold execCrop at h
  obtain ⟨u, hu, h⟩ := andThen_eq_next.1 h
  refine ⟨u, hu, ?_, by cases h; rfl⟩
  exact forEach_keeps (SameButOutCtr s) (fun a _ v w hv hw => hv.trans (cropValue_frame hw)) (s := s) rfl hu

/-! ### What holds of GRID and OUT through their writes -/

theorem storeTone_keeps {P : Mem 16 → Prop} (hP : ∀ m a v, P m → P (memWrite m a v)) {c : BitVec 2} {s t : State}
    (hs : P s.grid) (h : storeTone c s = .next t) : P t.grid := by
  obtain ⟨_, rfl⟩ := storeTone_eq_next.1 h
  exact hP _ _ _ hs

/-- RSITE changes GRID by writes alone. -/
theorem execRsite_keeps {P : Mem 16 → Prop} (hP : ∀ m a v, P m → P (memWrite m a v)) {i : BitVec 4} {y x : BitVec 16} {s t : State}
    (hs : P s.grid) (h : execRsite i y x s = .next t) : P t.grid := by
  unfold execRsite at h
  obtain ⟨a, ha, h⟩ := andThen_eq_next.1 h
  have pa : P a.grid := by rw [execXform_frame ha]; exact hs
  split at h
  · unfold writeSite at h
    obtain ⟨b, hb, h⟩ := andThen_eq_next.1 h
    obtain ⟨c, hc, h⟩ := andThen_eq_next.1 h
    obtain ⟨d, hd, h⟩ := andThen_eq_next.1 h
    have pb := forEach_keeps (fun u => P u.grid) (fun p _ u v hu hv => by rw [execUnpk_frame hv]; exact hu) pa hb
    have pc := forEach_keeps (fun u => P u.grid) (fun p _ u v hu hv => by rw [execLutrd_frame hv]; exact hu) pb hc
    have pd := forEach_keeps (fun u => P u.grid) (fun p _ u v hu hv => storeTone_keeps hP hu hv) pc hd
    split at h
    · obtain ⟨e, he, h⟩ := andThen_eq_next.1 h
      exact storeTone_keeps hP (by rw [execLutrd_frame he]; exact pd) h
    · cases h
      exact pd
  · cases h
    exact pa

/-- What RSITE writes: the datapath registers of a site, and GRID at the position XFORM computes, in the channels below CC, only when that
position is on the canvas (43_field_remapper.md rules R157, R158). -/
theorem execRsite_stores {i : BitVec 4} {y x : BitVec 16} {s t : State} (h : execRsite i y x s = .next t) :
    ∃ u, execXform i y x s = .next u ∧ t.dp.xp = u.dp.xp ∧ t.dp.yp = u.dp.yp ∧ t.dp.inb = u.dp.inb ∧
      t.dp = { u.dp with w32 := t.dp.w32, samples := t.dp.samples, tones := t.dp.tones } ∧
      (u.dp.inb = false → t.grid = s.grid) ∧
      ∀ n, (∀ c < s.canvas.cc.toNat, n ≠ gridIndex s u.dp.xp.toInt.toNat u.dp.yp.toInt.toNat c) →
              memRead t.grid n = memRead s.grid n := by
  unfold execRsite at h
  obtain ⟨u, hu, h⟩ := andThen_eq_next.1 h
  have hug : u.grid = s.grid := by rw [execXform_frame hu]
  have huc : u.canvas = s.canvas := by rw [execXform_frame hu]
  refine ⟨u, hu, ?_⟩
  let P : State → Prop := fun v => v.canvas = s.canvas ∧
    v.dp = { u.dp with w32 := v.dp.w32, samples := v.dp.samples, tones := v.dp.tones } ∧
      ∀ n, (∀ c < s.canvas.cc.toNat, n ≠ gridIndex s u.dp.xp.toInt.toNat u.dp.yp.toInt.toNat c) →
              memRead v.grid n = memRead s.grid n
  have hU : ∀ p v w, P v → execUnpk i p y x v = .next w → P w := by
    rintro p v w ⟨h1, h2, h3⟩ hw
    obtain ⟨_, k, _, rfl⟩ := execUnpk_eq_next.1 hw
    exact ⟨h1, by rw [State.setDp_dp, h2], h3⟩
  have hL : ∀ p v w, P v → toneLane p v = .next w → P w := by
    rintro p v w ⟨h1, h2, h3⟩ hw
    obtain ⟨k, _, rfl⟩ := execLutrd_eq_next.1 hw
    exact ⟨h1, by rw [State.setDp_dp, h2], h3⟩
  have hS : ∀ p v w, P v → storeTone p v = .next w → P w := by
    rintro p v w ⟨h1, h2, h3⟩ hw
    obtain ⟨hb, rfl⟩ := storeTone_eq_next.1 hw
    refine ⟨h1, h2, fun n hn => ?_⟩
    have e1 : v.dp.xp = u.dp.xp := by rw [h2]
    have e2 : v.dp.yp = u.dp.yp := by rw [h2]
    have hc : p.toNat < s.canvas.cc.toNat := by
      simp only [gridHas, Bool.and_eq_true, decide_eq_true_eq] at hb
      rw [← h1]; exact hb.2
    have := hn p.toNat hc
    simp only [State.setGrid_grid]
    rw [memRead_memWrite_of_ne _ _ ?_, h3 n hn]
    simp only [gridIndex, h1, e1, e2] at *
    exact fun hh => this hh.symm
  have hP : P u := ⟨huc, rfl, fun n _ => by rw [hug]⟩
  have key : P t := by
    split at h
    · unfold writeSite at h
      obtain ⟨a, ha, h⟩ := andThen_eq_next.1 h
      obtain ⟨b, hb, h⟩ := andThen_eq_next.1 h
      obtain ⟨c, hc, h⟩ := andThen_eq_next.1 h
      have pa := forEach_keeps P (fun p _ v w => hU p v w) hP ha
      have pb := forEach_keeps P (fun p _ v w => hL p v w) pa hb
      have pc := forEach_keeps P (fun p _ v w => hS p v w) pb hc
      split at h
      · obtain ⟨d, hd, h⟩ := andThen_eq_next.1 h
        exact hS _ _ _ (hL _ _ _ pc hd) h
      · cases h; exact pc
    · cases h; exact hP
  obtain ⟨_, k2, k3⟩ := key
  refine ⟨by rw [k2], by rw [k2], by rw [k2], k2, fun hf => ?_, k3⟩
  rw [hf] at h
  cases h
  exact hug

/-- REMAP changes GRID by writes alone. -/
theorem remapLoop_keeps {P : Mem 16 → Prop} (hP : ∀ m a v, P m → P (memWrite m a v)) {l : List (Nat × Nat × Nat)} {s t : State}
    (hs : P s.grid) (h : forEach l remapSite s = .next t) : P t.grid :=
  forEach_keeps (fun u => P u.grid) (fun _ _ u v hu hv => by
    have hv' : execRsite _ _ _ (u.setCtr _) = .next v := hv
    exact execRsite_keeps hP (by exact hu) hv') hs h

/-- FILL changes GRID by writes alone. -/
theorem fillLoop_keeps {P : Mem 16 → Prop} (hP : ∀ m a v, P m → P (memWrite m a v)) {l : List (Nat × Nat)} {s t : State}
    (hs : P s.grid) (h : forEach l fillVisit s = .next t) : P t.grid := by
  refine forEach_keeps (fun u => P u.grid) (fun _ _ u v hu hv => ?_) hs h
  unfold fillVisit at hv
  dsimp only at hv
  split at hv
  · refine forEach_keeps (fun u => P u.grid) (fun c _ u v hu hv => ?_) (by exact hu) hv
    unfold fillChannel at hv
    obtain ⟨_, a, b, _, _, rfl⟩ := execFillc_eq_next.1 hv
    exact hP _ _ _ hu
  · cases hv
    exact hu

/-- CROP changes OUT by writes alone. -/
theorem cropLoop_keeps {P : Mem 16 → Prop} (hP : ∀ m a v, P m → P (memWrite m a v)) {l : List (Nat × Nat × Nat)} {s t : State}
    (hs : P s.out) (h : forEach l cropValue s = .next t) : P t.out := by
  refine forEach_keeps (fun u => P u.out) (fun _ _ u v hu hv => ?_) hs h
  unfold cropValue at hv
  obtain ⟨_, w, _, rfl⟩ := execCmov_eq_next.1 hv
  exact hP _ _ _ hu

/-- EMIT writes the presented values, LIN, STATUS and PHASE (46_setup_and_output.md rules R189, R190). -/
theorem execEmit_frame {s t : State} (h : execEmit s = .next t) :
    t = { s with
      emitted := t.emitted
      ctr := t.ctr
      status := ⟨false, true, s.status.err, s.status.errcode⟩
      phase := .done } := by
  unfold execEmit at h
  obtain ⟨u, hu, h⟩ := andThen_eq_next.1 h
  have : u = { s with emitted := u.emitted, ctr := u.ctr } := by
    refine forEach_keeps (fun u => u = { s with emitted := u.emitted, ctr := u.ctr }) (fun n _ v w hv hw => ?_) (s := s) rfl hu
    unfold presentValue at hw
    obtain ⟨a, _, hw⟩ := andThen_eq_next.1 hw
    cases hw
    rw [hv]
    rfl
  rw [this] at h
  cases h
  rfl

/-- LDGEOM traps with nothing but STATUS and PHASE written, or writes WIDTH and HEIGHT (46_setup_and_output.md rule R186). -/
theorem execLdgeom_eq_next {s t : State} : execLdgeom s = .next t ↔
    (metadataMissing s = true ∧
      t = { s with status := ⟨false, s.status.done, true, .metadataUnavailable⟩, phase := .error }) ∨
    (metadataMissing s = false ∧ ∃ w h, readBe16 Config.tagWidthOffset s = .next w ∧ readBe16 Config.tagHeightOffset s = .next h ∧
      t = { s with geom := { s.geom with width := w, height := h }, phase := .chksize }) := by
  unfold execLdgeom
  cases hm : metadataMissing s
  · simp only [Bool.false_eq_true, if_false, false_and, true_and, false_or, andThen_eq_next]
    constructor
    · rintro ⟨w, hw, h, hh, ht⟩
      exact ⟨w, h, hw, hh, by cases ht; rfl⟩
    · rintro ⟨w, h, hw, hh, rfl⟩
      exact ⟨w, hw, h, hh, rfl⟩
  · simp only [if_true, true_and, Bool.true_eq_false, false_and, or_false, raise_eq]
    exact ⟨fun e => by cases e; rfl, fun e => by rw [e]⟩

/-- GSEL writes the profile and size registers and PHASE (42_geometry_profile.md rule R145). -/
theorem execGsel_eq (s : State) : execGsel s = .next { s with
    prof := selectProfile s.geom.nf s.prof
    canvas := sizeCanvas (selectProfile s.geom.nf s.prof) s.geom.width.toNat s.geom.height.toNat s.cfg
    phase := .lutbld } := rfl

/-- LUTBLD writes the tables, two counters and PHASE (41_tone_curve.md rule R130). -/
theorem execLutbld_eq (s : State) : execLutbld s = .next { s with
    lut := buildTables s.cfg s.gains, ctr := { s.ctr with lt := 2, li := 1023 }, phase := .gclr } := rfl

/-- GCLR writes GRID, LIN and PHASE (46_setup_and_output.md rule R188). -/
theorem execGclr_eq (s : State) : execGclr s = .next { s with
    grid := memFill (gridSize s) 0 s.grid, ctr := afterLinear (gridSize s) s.ctr, phase := .remap } := rfl

/-- CHKSIZE writes WPR and FIELD_BYTES, and NF when the length fits; otherwise it traps (46_setup_and_output.md rule R187). -/
theorem execChksize_eq (s : State) :
    let w := BitVec.ofNat 15 (wordsPerRow s.geom.width.toNat)
    let f := BitVec.ofNat 35 (fieldBytesOf s.geom.height.toNat (wordsPerRow s.geom.width.toNat))
    execChksize s = .next (match inferFieldCount s.dumpLen.toNat f.toNat with
      | some nf => { s with geom := { s.geom with wpr := w, fieldBytes := f, nf := nf }, phase := .gsel }
      | none => { s with
          geom := { s.geom with wpr := w, fieldBytes := f }
          status := ⟨false, s.status.done, true, .sizeMismatch⟩
          phase := .error }) := by
  simp only [execChksize, toNat_wpr]
  generalize inferFieldCount s.dumpLen.toNat _ = r
  cases r <;> rfl

end Sys2Proof.Machine
end

