-- ==== Sys2Proof/Laws/Fill.lean ====
section
/-!
SUPPORT. One pass of FILL and of CROP on a canvas every value of which is written: it completes, and what every value holds after it.
-/

namespace Sys2Proof.Machine

/-- The value of a cell of a fully written canvas. -/
def cellOf (s : State) (X Y c : Nat) : Cell16 := (memRead s.grid (gridIndex s X Y c)).getD 0

/-- On a written canvas every cell reads as its value. -/
theorem memRead_cellOf {s : State} (hg : GridWritten s) {X Y c : Nat} (hX : X < s.canvas.wout.toNat) (hY : Y < s.canvas.hout.toNat)
    (hc : c < s.canvas.cc.toNat) : memRead s.grid (gridIndex s X Y c) = some (cellOf s X Y c) := by
  obtain ⟨v, hv⟩ := Option.isSome_iff_exists.1 (hg _ (cellIndex_lt hX hY hc))
  rw [cellOf, gridIndex, hv]
  rfl

/-- What FILL gives channel `c` of a gap cell: the average of the cell above and the cell to the left, as they were before the stage. -/
def gapValue (s : State) (X Y c : Nat) : Cell16 := average (cellOf s X (Y - 1) c) (cellOf s (X - 1) Y c)

/-- Which cells FILL visits (44_gap_filler.md rule R170). -/
theorem mem_fillVisits {wout hout X Y : Nat} : (X, Y) ∈ fillVisits wout hout ↔ 1 ≤ X ∧ X < wout ∧ 1 ≤ Y ∧ Y < hout := by
  simp only [fillVisits, List.mem_flatMap, List.mem_map, mem_downTo1, Prod.mk.injEq]
  constructor
  · rintro ⟨y, hy, x, hx, rfl, rfl⟩
    omega
  · intro h
    exact ⟨Y, by omega, X, by omega, rfl, rfl⟩

/-- The last cell FILL visits (44_gap_filler.md rule R170). -/
theorem fillVisits_eq_concat {wout hout : Nat} (hw : 1 < wout) (hh : 1 < hout) : ∃ l, fillVisits wout hout = l ++ [(1, 1)] := by
  obtain ⟨h, rfl⟩ : ∃ k, hout = k + 2 := ⟨hout - 2, by omega⟩
  obtain ⟨w, rfl⟩ : ∃ k, wout = k + 2 := ⟨wout - 2, by omega⟩
  obtain ⟨a, ha⟩ := downTo1_eq_concat w
  obtain ⟨b, hb⟩ := downTo1_eq_concat h
  simp only [fillVisits, show w + 2 - 1 = w + 1 by omega, show h + 2 - 1 = h + 1 by omega, ha, hb, List.flatMap_append,
    List.flatMap_cons, List.flatMap_nil, List.map_append, List.map_cons, List.map_nil, List.append_nil, ← List.append_assoc]
  exact ⟨_, rfl⟩

/-- One channel of a gap cell (44_gap_filler.md rule R173), where the odd-sum cells are still as they were before the stage. -/
theorem fillChannel_completes {s u : State} (hg : GridWritten s) (hcc : s.canvas.cc.toNat ≤ 4) (hu : SameButGridDpCtr s u)
    {X Y c : Nat} (hX : 1 ≤ X) (hX' : X < s.canvas.wout.toNat) (hY : 1 ≤ Y) (hY' : Y < s.canvas.hout.toNat) (he : (X + Y) % 2 = 0)
    (hfx : u.ctr.fx = BitVec.ofNat 17 X) (hfy : u.ctr.fy = BitVec.ofNat 18 Y) (hc : c < s.canvas.cc.toNat)
    (hodd : ∀ X' Y' c', X' < s.canvas.wout.toNat → Y' < s.canvas.hout.toNat → c' < s.canvas.cc.toNat → (X' + Y') % 2 = 1 →
      memRead u.grid (gridIndex s X' Y' c') = memRead s.grid (gridIndex s X' Y' c')) :
    ∃ t, fillChannel c u = .next t ∧ SameButGridDpCtr s t ∧ t.ctr.fx = u.ctr.fx ∧ t.ctr.fy = u.ctr.fy ∧
      ∀ n, memRead t.grid n = if n = gridIndex s X Y c then some (gapValue s X Y c) else memRead u.grid n := by
  have hw := s.canvas.wout.isLt
  have hh := s.canvas.hout.isLt
  have ex : (BitVec.ofNat 17 X).toNat = X := by rw [BitVec.toNat_ofNat]; exact Nat.mod_eq_of_lt (by omega)
  have ey : (BitVec.ofNat 18 Y).toNat = Y := by rw [BitVec.toNat_ofNat]; exact Nat.mod_eq_of_lt (by omega)
  have ec : (BitVec.ofNat 2 c).toNat = c := by rw [BitVec.toNat_ofNat]; exact Nat.mod_eq_of_lt (by omega)
  obtain ⟨_, _, _, _, _, _, _, _, fca, _, _⟩ := hu.fields
  let u' : State := u.setCtr { u.ctr with fc := BitVec.ofNat 2 c }
  have hcan : u'.canvas = s.canvas := by rw [← fca]; rfl
  have hidx : ∀ a b d, gridIndex u' a b d = gridIndex s a b d := fun a b d => by rw [gridIndex, hcan, gridIndex]
  have hhas : ∀ a b d, gridHas u' a b d = gridHas s a b d := fun a b d => by rw [gridHas, hcan, gridHas]
  have has : ∀ {a b}, a < s.canvas.wout.toNat → b < s.canvas.hout.toNat → gridHas u' a b c = true := fun {a b} ha hb => by
    rw [hhas]
    simp [gridHas, ha, hb, hc]
  have run : fillChannel c u = execFillc (BitVec.ofNat 17 X) (BitVec.ofNat 18 Y) (BitVec.ofNat 2 c) u' := by
    rw [← hfx, ← hfy]
    rfl
  have h1 : readGrid X (Y - 1) c u' = .next (cellOf s X (Y - 1) c) := by
    refine readGrid_eq_next.2 ⟨has hX' (by omega), ?_⟩
    rw [hidx]
    exact (hodd X (Y - 1) c hX' (by omega) hc (by omega)).trans (memRead_cellOf hg hX' (by omega) hc)
  have h2 : readGrid (X - 1) Y c u' = .next (cellOf s (X - 1) Y c) := by
    refine readGrid_eq_next.2 ⟨has (by omega) hY', ?_⟩
    rw [hidx]
    exact (hodd (X - 1) Y c (by omega) hY' hc (by omega)).trans (memRead_cellOf hg (by omega) hY' hc)
  have hgap : isGapCell u' X Y c = true := by
    simp [isGapCell, has hX' hY', hX, hY, he]
  have hrun : execFillc (BitVec.ofNat 17 X) (BitVec.ofNat 18 Y) (BitVec.ofNat 2 c) u' = .next _ := execFillc_eq_next.2
    ⟨by rw [ex, ey, ec]; exact hgap, _, _, by rw [ex, ey, ec]; exact h1, by rw [ex, ey, ec]; exact h2, rfl⟩
  refine ⟨_, run.trans hrun, hu.trans rfl, rfl, rfl, fun n => ?_⟩
  simp only [State.setGrid_grid, ex, ey, ec, hidx]
  rw [memRead_memWrite]
  by_cases h : gridIndex s X Y c = n
  · rw [if_pos h, if_pos h.symm]
    rfl
  · rw [if_neg h, if_neg (Ne.symm h)]
    rfl

/-- One visit of FILL: a gap cell takes its value in every channel, every other value of GRID stays (44_gap_filler.md rules R170, R172). -/
theorem fillVisit_completes {s u : State} (hg : GridWritten s) (hcc : s.canvas.cc.toNat ≤ 4) (hu : SameButGridDpCtr s u)
    {X Y : Nat} (hX : 1 ≤ X) (hX' : X < s.canvas.wout.toNat) (hY : 1 ≤ Y) (hY' : Y < s.canvas.hout.toNat)
    (hodd : ∀ X' Y' c', X' < s.canvas.wout.toNat → Y' < s.canvas.hout.toNat → c' < s.canvas.cc.toNat → (X' + Y') % 2 = 1 →
      memRead u.grid (gridIndex s X' Y' c') = memRead s.grid (gridIndex s X' Y' c')) :
    ∃ t, fillVisit (X, Y) u = .next t ∧ SameButGridDpCtr s t ∧
      (∀ X' Y' c, X' < s.canvas.wout.toNat → Y' < s.canvas.hout.toNat → c < s.canvas.cc.toNat →
        memRead t.grid (gridIndex s X' Y' c) =
          if X' = X ∧ Y' = Y ∧ (X + Y) % 2 = 0 then some (gapValue s X Y c) else memRead u.grid (gridIndex s X' Y' c)) ∧
      ∀ n, gridSize s ≤ n → memRead t.grid n = memRead u.grid n := by
  obtain ⟨_, _, _, _, _, _, _, _, fca, _, _⟩ := hu.fields
  let u' : State := u.setCtr { u.ctr with fx := BitVec.ofNat 17 X, fy := BitVec.ofNat 18 Y }
  have hu' : SameButGridDpCtr s u' := hu.trans rfl
  have run : fillVisit (X, Y) u =
      if (X + Y) % 2 = 0 then forEach (List.range s.canvas.cc.toNat) fillChannel u' else .next u' := by
    rw [← fca]
    rfl
  by_cases he : (X + Y) % 2 = 0
  · let P : List Nat → State → Prop := fun visited v => SameButGridDpCtr s v ∧ v.ctr.fx = BitVec.ofNat 17 X ∧
      v.ctr.fy = BitVec.ofNat 18 Y ∧ (∀ d ∈ visited, d < s.canvas.cc.toNat) ∧
      (∀ d ∈ visited, memRead v.grid (gridIndex s X Y d) = some (gapValue s X Y d)) ∧
      ∀ n, (∀ d ∈ visited, n ≠ gridIndex s X Y d) → memRead v.grid n = memRead u.grid n
    obtain ⟨t, ht, t1, _, _, _, t2, t3⟩ := forEach_visits P (body := fillChannel) (l := List.range s.canvas.cc.toNat) (s := u')
      (fun visited c hc v hv => by
        obtain ⟨v1, v2, v3, v4, v5, v6⟩ := hv
        have hc := List.mem_range.1 hc
        obtain ⟨t, ht, t1, t2, t3, t4⟩ := fillChannel_completes hg hcc v1 hX hX' hY hY' he v2 v3 hc
          (fun X' Y' c' h1 h2 h3 h4 => by
            rw [v6 _ fun d hd h => ?_]
            · exact hodd X' Y' c' h1 h2 h3 h4
            · obtain ⟨rfl, rfl, _⟩ := cellIndex_inj h1 h3 hX' (v4 d hd) h
              omega)
        refine ⟨t, ht, t1, t2.trans v2, t3.trans v3, fun d hd => ?_, fun d hd => ?_, fun n hn => ?_⟩
        · rcases List.mem_append.1 hd with hd | hd
          · exact v4 d hd
          · rw [List.mem_singleton.1 hd]
            exact hc
        · rw [t4]
          by_cases h : d = c
          · rw [h, if_pos rfl]
          · have hd : d ∈ visited := by
              rcases List.mem_append.1 hd with hd | hd
              · exact hd
              · exact absurd (List.mem_singleton.1 hd) h
            rw [if_neg fun e : gridIndex s X Y d = gridIndex s X Y c => h (cellIndex_inj hX' (v4 d hd) hX' hc e).2.2]
            exact v5 d hd
        · rw [t4, if_neg (hn c (by simp))]
          exact v6 n fun d hd => hn d (by simp [hd]))
      ⟨hu', rfl, rfl, fun d hd => (by cases hd), fun d hd => (by cases hd), fun _ _ => rfl⟩
    refine ⟨t, by rw [run, if_pos he, ht], t1, fun X' Y' c h1 h2 h3 => ?_, fun n hn => t3 n fun d hd h => ?_⟩
    · split
      · rename_i h
        rw [h.1, h.2.1]
        exact t2 c (List.mem_range.2 h3)
      · rename_i h
        refine t3 _ fun d hd e => h ?_
        obtain ⟨e1, e2, _⟩ := cellIndex_inj h1 h3 hX' (List.mem_range.1 hd) e
        exact ⟨e1, e2, he⟩
    · have := cellIndex_lt hX' hY' (List.mem_range.1 hd)
      rw [gridSize] at hn
      rw [gridIndex] at h
      omega
  · refine ⟨u', by rw [run, if_neg he], hu', fun X' Y' c _ _ _ => ?_, fun n _ => rfl⟩
    rw [if_neg fun h => he h.2.2]
    rfl

/-- Which values CROP moves (45_cropper.md rule R180). -/
theorem mem_cropValues {outW outH cc x y c : Nat} : (x, y, c) ∈ cropValues outW outH cc ↔ x < outW ∧ y < outH ∧ c < cc := by
  simp only [cropValues, List.mem_flatMap, List.mem_map, List.mem_range, Prod.mk.injEq]
  constructor
  · rintro ⟨y, hy, x, hx, c, hc, rfl, rfl, rfl⟩
    exact ⟨hx, hy, hc⟩
  · rintro ⟨hx, hy, hc⟩
    exact ⟨y, hy, x, hx, c, hc, rfl, rfl, rfl⟩

/-- The last value CROP moves (45_cropper.md rule R180). -/
theorem cropValues_eq_concat {outW outH cc : Nat} (hw : 0 < outW) (hh : 0 < outH) (hc : 0 < cc) :
    ∃ l, cropValues outW outH cc = l ++ [(outW - 1, outH - 1, cc - 1)] := by
  obtain ⟨w, rfl⟩ : ∃ k, outW = k + 1 := ⟨outW - 1, by omega⟩
  obtain ⟨h, rfl⟩ : ∃ k, outH = k + 1 := ⟨outH - 1, by omega⟩
  obtain ⟨c, rfl⟩ : ∃ k, cc = k + 1 := ⟨cc - 1, by omega⟩
  simp only [cropValues, List.range_succ, List.flatMap_append, List.flatMap_cons, List.flatMap_nil, List.map_append, List.map_cons,
    List.map_nil, List.append_nil, Nat.add_sub_cancel, ← List.append_assoc]
  exact ⟨_, rfl⟩

/-- One pass of CROP (45_cropper.md rules R180, R181). -/
theorem cropValue_completes {s u : State} (hg : GridWritten s) (hcc : s.canvas.cc.toNat ≤ 4) (hW : s.canvas.outW.toNat + 1 = s.canvas.wout.toNat)
    (hH : s.canvas.outH.toNat + 1 = s.canvas.hout.toNat) (hu : SameButOutCtr s u) {x y c : Nat} (hx : x < s.canvas.outW.toNat)
    (hy : y < s.canvas.outH.toNat) (hc : c < s.canvas.cc.toNat) :
    ∃ t, cropValue (x, y, c) u = .next t ∧ SameButOutCtr s t ∧
      ∀ n, memRead t.out n = if n = outIndex s x y c then some (cellOf s (x + 1) (y + 1) c) else memRead u.out n := by
  have hw := s.canvas.outW.isLt
  have hh := s.canvas.outH.isLt
  have ex : (BitVec.ofNat 17 x).toNat = x := by rw [BitVec.toNat_ofNat]; exact Nat.mod_eq_of_lt (by omega)
  have ey : (BitVec.ofNat 18 y).toNat = y := by rw [BitVec.toNat_ofNat]; exact Nat.mod_eq_of_lt (by omega)
  have ec : (BitVec.ofNat 2 c).toNat = c := by rw [BitVec.toNat_ofNat]; exact Nat.mod_eq_of_lt (by omega)
  let u' : State := u.setCtr { u.ctr with cx := BitVec.ofNat 17 x, cy := BitVec.ofNat 18 y, cch := BitVec.ofNat 2 c }
  have hu' : SameButOutCtr s u' := hu.trans rfl
  have hcan : u'.canvas = s.canvas := by
    unfold SameButOutCtr at hu'
    rw [hu']
  have hgrid : u'.grid = s.grid := by
    unfold SameButOutCtr at hu'
    rw [hu']
  have run : cropValue (x, y, c) u = execCmov (BitVec.ofNat 17 x) (BitVec.ofNat 18 y) (BitVec.ofNat 2 c) u' := rfl
  have hout : outHas u' x y c = true := by
    simp [outHas, hcan, hx, hy, hc]
  have hread : readGrid (x + 1) (y + 1) c u' = .next (cellOf s (x + 1) (y + 1) c) := by
    refine readGrid_eq_next.2 ⟨?_, ?_⟩
    · simp only [gridHas, hcan, Bool.and_eq_true, decide_eq_true_eq]
      omega
    · rw [hgrid, gridIndex, hcan]
      exact memRead_cellOf hg (by omega) (by omega) hc
  have hrun : execCmov (BitVec.ofNat 17 x) (BitVec.ofNat 18 y) (BitVec.ofNat 2 c) u' = .next _ := execCmov_eq_next.2
    ⟨by rw [ex, ey, ec]; exact hout, _, by rw [ex, ey, ec]; exact hread, rfl⟩
  refine ⟨_, run.trans hrun, hu'.trans rfl, fun n => ?_⟩
  simp only [State.setOut_out, ex, ey, ec]
  have hidx : outIndex u' x y c = outIndex s x y c := by rw [outIndex, hcan, outIndex]
  rw [memRead_memWrite, hidx]
  by_cases h : outIndex s x y c = n
  · rw [if_pos h, if_pos h.symm]
  · rw [if_neg h, if_neg (Ne.symm h)]
    rfl

end Sys2Proof.Machine
end

