-- ==== Sys2Proof/Laws/PerInstr.lean ====
section
/-!
SUPPORT. The family RoundTrip, one lemma per operation: the code word the encoder writes for a well-formed operation decodes to it.
-/

namespace Sys2Proof.Laws.RoundTrip

/-- A well-formed operation comes back from its own encoding (30_encoding.md rules R101, R103, R104; lanes: log 8). -/
def Statement (i : Instr) : Prop := i.wellFormed = true → decode (encode i) = .ok i

theorem start : Statement .start := fun _ => rfl
theorem idle : Statement .idle := fun _ => rfl
theorem ldgeom : Statement .ldgeom := fun _ => rfl
theorem chksize : Statement .chksize := fun _ => rfl
theorem gsel : Statement .gsel := fun _ => rfl
theorem lutbld : Statement .lutbld := fun _ => rfl
theorem gclr : Statement .gclr := fun _ => rfl
theorem remap : Statement .remap := fun _ => rfl
theorem fill : Statement .fill := fun _ => rfl
theorem crop : Statement .crop := fun _ => rfl
theorem emit : Statement .emit := fun _ => rfl
theorem done : Statement .done := fun _ => rfl
theorem error : Statement .error := fun _ => rfl

theorem unpk (i : BitVec 4) (p : BitVec 2) (y x : BitVec 16) : Statement (.unpk i p y x) := fun h =>
  checked_eq_ok.2 ⟨by simp [unpkOfLanes], h⟩

theorem xform (i : BitVec 4) (y x : BitVec 16) : Statement (.xform i y x) := fun h =>
  checked_eq_ok.2 ⟨by simp [xformOfLanes], h⟩

theorem lutrd (c : BitVec 2) (smp : Sample) : Statement (.lutrd c smp) := fun h =>
  checked_eq_ok.2 ⟨by simp [lutrdOfLanes], h⟩

theorem rsite (i : BitVec 4) (y x : BitVec 16) : Statement (.rsite i y x) := fun h =>
  checked_eq_ok.2 ⟨by simp [rsiteOfLanes], h⟩

theorem avg2 (a b : Cell16) : Statement (.avg2 a b) := fun h =>
  checked_eq_ok.2 ⟨by simp [avg2OfLanes], h⟩

theorem fillc (x : BitVec 17) (y : BitVec 18) (c : BitVec 2) : Statement (.fillc x y c) := fun h =>
  checked_eq_ok.2 ⟨by simp [fillcOfLanes], h⟩

theorem cmov (x : BitVec 17) (y : BitVec 18) (c : BitVec 2) : Statement (.cmov x y c) := fun h =>
  checked_eq_ok.2 ⟨by simp [cmovOfLanes], h⟩

end Sys2Proof.Laws.RoundTrip
end

