-- ==== Sys2Proof/Laws/Sites.lean ====
section
/-!
SUPPORT. Sites: where a site lands, and what RSITE does to a state in which the setup's registers and tables are in place.
-/

namespace Sys2Proof.Machine

/-! ### Where a site lands -/

theorem fieldCountNat_le (nf : FieldCount) : fieldCountNat nf ≤ 8 := by cases nf <;> decide

/-- The shift registers below NF hold NF's row of the profile table (42_geometry_profile.md rules R145, R146). -/
theorem selectProfile_shifts (nf : FieldCount) (p : ProfileRegs) {i : Nat} (hi : i < fieldCountNat nf) (h8 : i < 8) :
    ((selectProfile nf p).xshift[i], (selectProfile nf p).yshift[i]) = (profileRow nf).shifts.getD i (0, 0) := by
  simp only [selectProfile, getElem_loadShifts]
  cases nf <;> simp only [fieldCountNat] at hi <;> interval_cases i <;> rfl

theorem shiftOf_eq (v : Vector (BitVec 2) 8) (i : BitVec 4) (h : i.toNat < 8) : shiftOf v i = (v[i.toNat]).toNat := by
  unfold shiftOf
  have : (i.setWidth 3).toNat = i.toNat := by
    rw [BitVec.toNat_setWidth]
    omega
  simp only [this]

/-- With the profile selected, the transform gives the site's target (43_field_remapper.md rule R156). -/
theorem sitePosition_eq {nf : FieldCount} {p : ProfileRegs} (hp : p = selectProfile nf p) {i : BitVec 4}
    (hi : i.toNat < fieldCountNat nf) (y x : BitVec 16) : (siteX p i x, siteY p i y x) = siteTarget nf i.toNat y.toNat x.toNat := by
  have h8 : i.toNat < 8 := Nat.lt_of_lt_of_le hi (fieldCountNat_le _)
  have hs := selectProfile_shifts nf p hi h8
  rw [← hp] at hs
  have e1 : p.scale = (profileRow nf).scale := by rw [hp]; rfl
  have e2 : p.xoff = (profileRow nf).xOffset := by rw [hp]; rfl
  have e3 : p.yoff = (profileRow nf).yOffset := by rw [hp]; rfl
  simp only [siteX, siteY, siteTarget, shiftOf_eq _ _ h8, ← hs, e1, e2, e3]

/-- The printed bounds of the transform (43_field_remapper.md rule R156). -/
theorem siteTarget_bounds {nf : FieldCount} {i y x width height : Nat} (hi : i < fieldCountNat nf) (hx : x < width) (hy : y < height) :
    -1 ≤ (siteTarget nf i y x).1 ∧ (siteTarget nf i y x).1 ≤ 2 * width ∧
      -1 ≤ (siteTarget nf i y x).2 ∧ (siteTarget nf i y x).2 ≤ 4 * height := by
  cases nf <;> simp only [fieldCountNat] at hi <;> interval_cases i <;>
    simp [siteTarget, profileRow, transformX, transformY] <;> omega

/-- XP holds every column of the bounds. -/
theorem toInt_xp {v : Int} (h1 : -1 ≤ v) (h2 : v ≤ 131070) : (BitVec.ofInt 18 v).toInt = v := by
  rw [BitVec.toInt_ofInt, Int.bmod_eq_of_le] <;> omega

/-- YP holds every row of the bounds. -/
theorem toInt_yp {v : Int} (h1 : -1 ≤ v) (h2 : v ≤ 262140) : (BitVec.ofInt 19 v).toInt = v := by
  rw [BitVec.toInt_ofInt, Int.bmod_eq_of_le] <;> omega

/-- What XFORM leaves in XP and YP (43_field_remapper.md rule R156). -/
theorem toInt_position {s : State} (hp : s.prof = selectProfile s.geom.nf s.prof) {i : BitVec 4} {y x : BitVec 16}
    (hs : isSite s i y x = true) :
    (BitVec.ofInt 18 (siteX s.prof i x)).toInt = siteX s.prof i x ∧ (BitVec.ofInt 19 (siteY s.prof i y x)).toInt = siteY s.prof i y x := by
  simp only [isSite, Bool.and_eq_true, decide_eq_true_eq] at hs
  obtain ⟨⟨hi, hy⟩, hx⟩ := hs
  obtain ⟨b1, b2, b3, b4⟩ := siteTarget_bounds hi hx hy
  have hw := s.geom.width.isLt
  have hh := s.geom.height.isLt
  rw [← sitePosition_eq hp hi] at b1 b2 b3 b4
  exact ⟨toInt_xp b1 (by dsimp only at b2; omega), toInt_yp b3 (by dsimp only at b4; omega)⟩

/-! ### The lanes of one site -/

/-- The four UNPKs of a site leave the four samples and touch nothing else that RSITE reads (43_field_remapper.md rule R158). -/
theorem unpack_lanes {s : State} {i : BitVec 4} {y x : BitVec 16} (hs : isSite s i y x = true) {word : Nat → PackedWord}
    (hw : ∀ p : BitVec 2, readRawWord (sampleWord s i p y x) s = .next (word p.toNat)) :
    ∃ d, forEach [0#2, 1#2, 2#2, 3#2] (fun p => execUnpk i p y x) s = .next (s.setDp d) ∧
      d = { s.dp with w32 := word 3, samples := d.samples } ∧
      ∀ p : BitVec 2, d.samples[p.toNat]'p.isLt = extractSample (word p.toNat) x.toNat := by
  have one : ∀ (d : Datapath) (p : BitVec 2), execUnpk i p y x (s.setDp d) =
      .next (s.setDp { d with
        w32 := word p.toNat, samples := d.samples.set p.toNat (extractSample (word p.toNat) x.toNat) p.isLt }) := fun d p =>
    execUnpk_eq_next.2 ⟨hs, _, hw p, rfl⟩
  have all : ∀ d : Datapath, forEach [0#2, 1#2, 2#2, 3#2] (fun p => execUnpk i p y x) (s.setDp d) = .next (s.setDp { d with
      w32 := word 3
      samples := (((d.samples.set 0 (extractSample (word 0) x.toNat)).set 1 (extractSample (word 1) x.toNat)).set 2
        (extractSample (word 2) x.toNat)).set 3 (extractSample (word 3) x.toNat) }) := fun d => by
    simp only [forEach_cons, forEach_nil, one, andThen_next]
    rfl
  refine ⟨_, all s.dp, rfl, fun p => ?_⟩
  have hp : ∀ p : BitVec 2, p = 0 ∨ p = 1 ∨ p = 2 ∨ p = 3 := by decide
  rcases hp p with rfl | rfl | rfl | rfl <;> simp

/-- The three LUTRDs of a site leave three tone-mapped values (43_field_remapper.md rule R158, 41_tone_curve.md rule R138). -/
theorem tone_lanes {s : State} {v : Nat → Cell16}
    (hv : ∀ c : BitVec 2, c ≠ 3 → memRead (tableAt s.lut (tableOfChannel c))
      (s.dp.samples[(planeOfChannel c).toNat]'(planeOfChannel c).isLt).toNat = some (v c.toNat)) :
    ∃ d, forEach [0#2, 1#2, 2#2] toneLane s = .next (s.setDp d) ∧
      d = { s.dp with tones := d.tones } ∧
      d.tones[0] = v 0 ∧ d.tones[1] = v 1 ∧ d.tones[2] = v 2 ∧ d.tones[3] = s.dp.tones[3] := by
  have one : ∀ (d : Datapath) (c : BitVec 2), c ≠ 3 → d.samples = s.dp.samples →
      toneLane c (s.setDp d) = .next (s.setDp { d with tones := d.tones.set c.toNat (v c.toNat) c.isLt }) := fun d c hc hd =>
    execLutrd_eq_next.2 ⟨_, by simpa [hd] using hv c hc, rfl⟩
  have all : forEach [0#2, 1#2, 2#2] toneLane (s.setDp s.dp) = .next (s.setDp { s.dp with
      tones := ((s.dp.tones.set 0 (v 0)).set 1 (v 1)).set 2 (v 2) }) := by
    rw [forEach_cons, one _ 0#2 (by decide) rfl, andThen_next, forEach_cons, one _ 1#2 (by decide), andThen_next, forEach_cons,
      one _ 2#2 (by decide), andThen_next, forEach_nil]
    all_goals rfl
  exact ⟨_, all, rfl, by simp, by simp, by simp, by simp⟩

/-- The values of one cell, channel by channel. -/
def writeCell (m : Mem 16) (idx : Nat → Nat) (v : Nat → Cell16) : Nat → Mem 16
  | 0 => m
  | n + 1 => memWrite (writeCell m idx v n) (idx n) (v n)

/-- Read after writing one cell. -/
theorem memRead_writeCell_of_ne (m : Mem 16) (idx : Nat → Nat) (v : Nat → Cell16) (n a : Nat) (h : ∀ c < n, a ≠ idx c) :
    memRead (writeCell m idx v n) a = memRead m a := by
  induction n with
  | zero => rfl
  | succ n ih =>
    rw [writeCell, memRead_memWrite_of_ne _ _ (Ne.symm (h n (Nat.lt_succ_self n)))]
    exact ih fun c hc => h c (Nat.lt_succ_of_lt hc)

theorem memRead_writeCell (m : Mem 16) (idx : Nat → Nat) (v : Nat → Cell16) (n c : Nat) (hc : c < n)
    (inj : ∀ a < n, ∀ b < n, idx a = idx b → a = b) : memRead (writeCell m idx v n) (idx c) = some (v c) := by
  induction n with
  | zero => omega
  | succ n ih =>
    rw [writeCell, memRead_memWrite]
    split
    · rename_i h
      rw [inj n (Nat.lt_succ_self n) c hc h]
    · rename_i h
      have hn : c ≠ n := fun e => h (by rw [e])
      exact ih (by omega) fun a ha b hb => inj a (by omega) b (by omega)

/-- One store of RSITE, on a state whose datapath holds the position and the value. -/
theorem storeTone_lane {s : State} {d : Datapath} {m : Mem 16} {X Y : Nat} (hx : d.xp.toInt = X) (hy : d.yp.toInt = Y)
    {c : BitVec 2} (h : gridHas s X Y c.toNat = true) : storeTone c ((s.setDp d).setGrid m) =
      .next ((s.setDp d).setGrid (memWrite m (gridIndex s X Y c.toNat) (d.tones[c.toNat]'c.isLt))) := by
  refine storeTone_eq_next.2 ?_
  simp only [State.setGrid_dp, State.setDp_dp, hx, hy, Int.toNat_natCast]
  exact ⟨h, rfl⟩

/-- RSITE on the canvas: the datapath aside, exactly the site's cell is written (43_field_remapper.md rule R158). -/
theorem execRsite_on {s : State} (hp : s.prof = selectProfile s.geom.nf s.prof) {i : BitVec 4} {y x : BitVec 16}
    (hs : isSite s i y x = true) {X Y : Nat} (ht : siteTarget s.geom.nf i.toNat y.toNat x.toNat = ((X : Int), (Y : Int)))
    (hX : X < s.canvas.wout.toNat) (hY : Y < s.canvas.hout.toNat) (hcc : s.canvas.cc = 3 ∨ s.canvas.cc = 4) {word : Nat → PackedWord}
    (hw : ∀ p : BitVec 2, readRawWord (sampleWord s i p y x) s = .next (word p.toNat)) {v : Nat → Cell16}
    (hv : ∀ c : BitVec 2, c.toNat < s.canvas.cc.toNat →
      memRead (tableAt s.lut (tableOfChannel c)) (extractSample (word (planeOfChannel c).toNat) x.toNat).toNat = some (v c.toNat)) :
    ∃ d, execRsite i y x s = .next ((s.setDp d).setGrid (writeCell s.grid (gridIndex s X Y) v s.canvas.cc.toNat)) ∧
      d = { s.dp with w32 := word 3, samples := d.samples, xp := d.xp, yp := d.yp, inb := true, tones := d.tones } ∧
      d.xp.toInt = X ∧ d.yp.toInt = Y ∧ (∀ p : BitVec 2, d.samples[p.toNat]'p.isLt = extractSample (word p.toNat) x.toNat) ∧
      ∀ c : BitVec 2, d.tones[c.toNat]'c.isLt = if c.toNat < s.canvas.cc.toNat then v c.toNat else s.dp.tones[c.toNat]'c.isLt := by
  have hi : i.toNat < fieldCountNat s.geom.nf := by
    simp only [isSite, Bool.and_eq_true, decide_eq_true_eq] at hs
    exact hs.1.1
  have hpos := sitePosition_eq hp hi y x
  rw [ht, Prod.mk.injEq] at hpos
  obtain ⟨hxp, hyp⟩ := toInt_position hp hs
  replace hxp := hxp.trans hpos.1
  replace hyp := hyp.trans hpos.2
  have hon : siteOnCanvas s i y x = true := by
    simp [siteOnCanvas, onCanvas, hpos.1, hpos.2, hX, hY]
  have hc3 : 3 ≤ s.canvas.cc.toNat := by
    rcases hcc with h | h <;> rw [h] <;> decide
  have has : ∀ c : BitVec 2, c.toNat < s.canvas.cc.toNat → gridHas s X Y c.toNat = true := fun c hc => by
    simp [gridHas, hX, hY, hc]
  let d0 : Datapath := { s.dp with
    xp := BitVec.ofInt 18 (siteX s.prof i x), yp := BitVec.ofInt 19 (siteY s.prof i y x), inb := siteOnCanvas s i y x }
  obtain ⟨d1, h1, f1, s1⟩ := unpack_lanes (s := s.setDp d0) hs hw
  obtain ⟨d2, h2, f2, t20, t21, t22, t23⟩ := tone_lanes (s := s.setDp d1) (v := v) fun c hc => by
    have : c.toNat < s.canvas.cc.toNat := by
      have := c.isLt
      have : c.toNat ≠ 3 := fun e => hc (BitVec.eq_of_toNat_eq e)
      omega
    simp only [State.setDp_dp, s1]
    exact hv c this
  rw [State.setDp_dp] at f1 f2 t23
  have f : d2 = { s.dp with w32 := word 3, samples := d2.samples, xp := d0.xp, yp := d0.yp, inb := true, tones := d2.tones } := by
    rw [f2, f1]
    show _ = { s.dp with w32 := word 3, samples := d1.samples, xp := d0.xp, yp := d0.yp, inb := true, tones := d2.tones }
    rw [← hon]
  have s2 : d2.samples = d1.samples := by rw [f2]
  have hx2 : d2.xp.toInt = X := by rw [f]; exact hxp
  have hy2 : d2.yp.toInt = Y := by rw [f]; exact hyp
  have h3 : d2.tones[3] = s.dp.tones[3] := by rw [t23, f1]
  have h4 : ∀ c : BitVec 2, c = 0 ∨ c = 1 ∨ c = 2 ∨ c = 3 := by decide
  have lane : ∀ p : BitVec 2, d2.samples[p.toNat]'p.isLt = extractSample (word p.toNat) x.toNat := fun p => by
    rw [← s1]
    simp only [s2]
  have store : ∀ (m : Mem 16) (c : BitVec 2), c.toNat < s.canvas.cc.toNat → storeTone c ((s.setDp d2).setGrid m) =
      .next ((s.setDp d2).setGrid (memWrite m (gridIndex s X Y c.toNat) (d2.tones[c.toNat]'c.isLt))) := fun m c hc =>
    storeTone_lane hx2 hy2 (has c hc)
  have stores : forEach [0#2, 1#2, 2#2] storeTone ((s.setDp d2).setGrid s.grid) =
      .next ((s.setDp d2).setGrid (writeCell s.grid (gridIndex s X Y) v 3)) := by
    rw [forEach_cons, store _ 0#2 (Nat.lt_of_lt_of_le (by decide) hc3), andThen_next, forEach_cons,
      store _ 1#2 (Nat.lt_of_lt_of_le (by decide) hc3), andThen_next, forEach_cons,
      store _ 2#2 (Nat.lt_of_lt_of_le (by decide) hc3), andThen_next, forEach_nil]
    simp only [writeCell, ← t20, ← t21, ← t22]
    rfl
  have key : execRsite i y x s = andThen (forEach [0#2, 1#2, 2#2] storeTone ((s.setDp d2).setGrid s.grid)) fun s =>
      if s.canvas.cc = 4 then andThen (toneLane 3#2 s) (storeTone 3#2) else .next s := by
    have e0 : execXform i y x s = .next (s.setDp d0) := execXform_eq_next.2 ⟨hs, rfl⟩
    have e1 : forEach [0#2, 1#2, 2#2, 3#2] (fun p => execUnpk i p y x) (s.setDp d0) = .next (s.setDp d1) := h1
    have e2 : forEach [0#2, 1#2, 2#2] toneLane (s.setDp d1) = .next (s.setDp d2) := h2
    rw [execRsite, e0, andThen_next, if_pos (show (s.setDp d0).dp.inb = true from hon), writeSite, e1, andThen_next, e2, andThen_next]
    rfl
  rw [key, stores, andThen_next]
  rcases hcc with h | h
  · refine ⟨d2, ?_, ?_, hx2, hy2, lane, fun c => ?_⟩
    · rw [if_neg (by rw [State.setGrid_canvas, State.setDp_canvas, h]; decide), h]
      rfl
    · rw [f]
    · rw [h]
      rcases h4 c with rfl | rfl | rfl | rfl
      · exact t20
      · exact t21
      · exact t22
      · exact h3
  · have hl : toneLane 3#2 ((s.setDp d2).setGrid (writeCell s.grid (gridIndex s X Y) v 3)) =
        .next ((s.setDp { d2 with tones := d2.tones.set 3 (v 3) }).setGrid (writeCell s.grid (gridIndex s X Y) v 3)) := by
      refine execLutrd_eq_next.2 ⟨v 3, ?_, rfl⟩
      have := hv 3 (by rw [h]; decide)
      rw [← s1] at this
      simp only [State.setGrid_lut, State.setDp_lut, State.setGrid_dp, State.setDp_dp, s2]
      exact this
    refine ⟨{ d2 with tones := d2.tones.set 3 (v 3) }, ?_, ?_, hx2, hy2, lane, fun c => ?_⟩
    · rw [if_pos (by rw [State.setGrid_canvas, State.setDp_canvas, h]), hl, andThen_next,
        storeTone_lane (c := 3#2) (by exact hx2) (by exact hy2) (has 3 (by rw [h]; decide)), h]
      simp only [writeCell]
      congr 3
      simp
    · rw [f]
    · rw [h]
      rcases h4 c with rfl | rfl | rfl | rfl
      · simpa using t20
      · simpa using t21
      · simpa using t22
      · simp

/-- RSITE off the canvas: XP, YP and INB are written and nothing else (43_field_remapper.md rule R157). -/
theorem execRsite_off {s : State} {i : BitVec 4} {y x : BitVec 16} (hs : isSite s i y x = true)
    (h : siteOnCanvas s i y x = false) : ∃ d, execRsite i y x s = .next (s.setDp d) ∧
      d = { s.dp with xp := BitVec.ofInt 18 (siteX s.prof i x), yp := BitVec.ofInt 19 (siteY s.prof i y x), inb := false } := by
  let d : Datapath := { s.dp with
    xp := BitVec.ofInt 18 (siteX s.prof i x), yp := BitVec.ofInt 19 (siteY s.prof i y x), inb := siteOnCanvas s i y x }
  have e : execXform i y x s = .next (s.setDp d) := execXform_eq_next.2 ⟨hs, rfl⟩
  have hb : (s.setDp d).dp.inb = false := h
  exact ⟨d, by rw [execRsite, e, andThen_next, hb]; rfl, by rw [← h]⟩

end Sys2Proof.Machine
end

