-- ==== Sys2Proof/Laws/Remap.lean ====
section
/-!
SUPPORT. One pass of REMAP on loaded inputs: it completes, and what every value of the canvas holds after it.
-/

namespace Sys2Proof.Machine

/-- Which sites REMAP visits (43_field_remapper.md rule R155). -/
theorem mem_remapSites {nf height width i y x : Nat} : (i, y, x) ∈ remapSites nf height width ↔ i < nf ∧ y < height ∧ x < width := by
  simp [remapSites]

/-- The last site REMAP visits (43_field_remapper.md rule R155). -/
theorem remapSites_eq_concat {nf height width : Nat} (hn : 0 < nf) (hh : 0 < height) (hw : 0 < width) :
    ∃ l, remapSites nf height width = l ++ [(nf - 1, height - 1, width - 1)] := by
  obtain ⟨n, rfl⟩ : ∃ k, nf = k + 1 := ⟨nf - 1, by omega⟩
  obtain ⟨h, rfl⟩ : ∃ k, height = k + 1 := ⟨height - 1, by omega⟩
  obtain ⟨w, rfl⟩ : ∃ k, width = k + 1 := ⟨width - 1, by omega⟩
  simp only [remapSites, List.range_succ, List.flatMap_append, List.flatMap_cons, List.flatMap_nil, List.map_append, List.map_cons,
    List.map_nil, List.append_nil, Nat.add_sub_cancel, ← List.append_assoc]
  exact ⟨_, rfl⟩

/-- Every word of a site lies in the dump (20_memory.md rule R64). -/
theorem wordIndex_lt {nf height width i p y x : Nat} (hi : i < nf) (hp : p < 4) (hy : y < height) (hx : x < width) :
    4 * wordIndex height (wordsPerRow width) i p y x + 3 < nf * fieldBytesOf height (wordsPerRow width) := by
  have hq : x / 3 + 1 ≤ wordsPerRow width := by
    unfold wordsPerRow
    omega
  have h1 : (i * 4 + p) + 1 ≤ nf * 4 := by omega
  have h2 : (i * 4 + p) * height + y + 1 ≤ nf * 4 * height := by
    calc (i * 4 + p) * height + y + 1 ≤ ((i * 4 + p) + 1) * height := by
          rw [Nat.add_one_mul]
          omega
      _ ≤ nf * 4 * height := Nat.mul_le_mul_right _ h1
  have h3 : wordIndex height (wordsPerRow width) i p y x + 1 ≤ nf * 4 * height * wordsPerRow width := by
    unfold wordIndex
    calc ((i * 4 + p) * height + y) * wordsPerRow width + x / 3 + 1
        ≤ ((i * 4 + p) * height + y + 1) * wordsPerRow width := by
          rw [Nat.add_one_mul]
          omega
      _ ≤ nf * 4 * height * wordsPerRow width := Nat.mul_le_mul_right _ h2
  have e : nf * fieldBytesOf height (wordsPerRow width) = 4 * (nf * 4 * height * wordsPerRow width) := by
    unfold fieldBytesOf
    ring
  omega

/-- A loaded word is read (20_memory.md rule R62). -/
theorem readRawWord_of_loaded {s : State} (hl : ∀ a < s.dumpLen.toNat, (memRead s.raw a).isSome) {k : Nat}
    (hk : 4 * k + 3 < s.dumpLen.toNat) : ∃ w, readRawWord k s = .next w ∧ dumpWord s.raw k = some w := by
  obtain ⟨b0, h0⟩ := Option.isSome_iff_exists.1 (hl (4 * k) (by omega))
  obtain ⟨b1, h1⟩ := Option.isSome_iff_exists.1 (hl (4 * k + 1) (by omega))
  obtain ⟨b2, h2⟩ := Option.isSome_iff_exists.1 (hl (4 * k + 2) (by omega))
  obtain ⟨b3, h3⟩ := Option.isSome_iff_exists.1 (hl (4 * k + 3) (by omega))
  refine ⟨littleEndian b0 b1 b2 b3, readRawWord_eq_next.2 ⟨hk, b0, b1, b2, b3, h0, h1, h2, h3, rfl⟩, ?_⟩
  simp only [dumpWord, h0, h1, h2, h3]

/-- The entry an output channel reads is its curve at the sample (41_tone_curve.md rules R130, R136). -/
theorem memRead_table_of_channel {s : State} (ht : TablesBuilt s) (c : BitVec 2) (smp : Sample) :
    memRead (tableAt s.lut (tableOfChannel c)) smp.toNat = some (toneOf s.cfg s.gains c.toNat smp) := by
  have h : ∀ c : BitVec 2, c = 0 ∨ c = 1 ∨ c = 2 ∨ c = 3 := by decide
  rw [ht]
  rcases h c with rfl | rfl | rfl | rfl <;> exact memRead_buildTable _ _ smp

/-- The number of channels is three or four. -/
theorem channelCount_cases (cfg : BitVec 3) : channelCount cfg = 3 ∨ channelCount cfg = 4 := by
  unfold channelCount
  split
  · exact .inr rfl
  · exact .inl rfl

/-- Does a site land on a cell? -/
def lands (nf : FieldCount) (X Y : Nat) (site : Nat × Nat × Nat) : Bool :=
  decide (siteTarget nf site.1 site.2.1 site.2.2 = ((X : Int), (Y : Int)))

/-- What the setup leaves for REMAP. -/
structure RemapReady (s : State) : Prop where
  sizes : SizesInferred s
  profile : ProfileSelected s
  tables : TablesBuilt s
  loaded : ∀ a < s.dumpLen.toNat, (memRead s.raw a).isSome

/-- The value a site gives channel `c` of its cell. -/
def siteValue (s : State) (site : Nat × Nat × Nat) (c : Nat) : Option Cell16 :=
  (dumpSample s.raw s.geom.width.toNat s.geom.height.toNat site.1 (3 - c) site.2.1 site.2.2).map (toneOf s.cfg s.gains c)

/-- One pass of REMAP completes; it writes the site's cell when that is on the canvas and no other value of GRID (rules R157, R158). -/
theorem remapSite_completes {s u : State} (hr : RemapReady s) (hu : SameButGridDpCtr s u) {i y x : Nat}
    (hm : (i, y, x) ∈ remapSites (fieldCountNat s.geom.nf) s.geom.height.toNat s.geom.width.toNat) :
    ∃ t, remapSite (i, y, x) u = .next t ∧ SameButGridDpCtr s t ∧
      (∀ X Y c, X < s.canvas.wout.toNat → Y < s.canvas.hout.toNat → c < s.canvas.cc.toNat →
        memRead t.grid (gridIndex s X Y c) =
          if lands s.geom.nf X Y (i, y, x) then siteValue s (i, y, x) c else memRead u.grid (gridIndex s X Y c)) ∧
      ∀ n, gridSize s ≤ n → memRead t.grid n = memRead u.grid n := by
  obtain ⟨hi, hy, hx⟩ := mem_remapSites.1 hm
  have hw := s.geom.width.isLt
  have hh := s.geom.height.isLt
  have h8 := fieldCountNat_le s.geom.nf
  obtain ⟨fph, fst, fcfg, fdl, fga, fraw, fge, fpr, fca, flu, fou⟩ := hu.fields
  have ei : (BitVec.ofNat 4 i).toNat = i := by rw [BitVec.toNat_ofNat]; exact Nat.mod_eq_of_lt (by omega)
  have ey : (BitVec.ofNat 16 y).toNat = y := by rw [BitVec.toNat_ofNat]; exact Nat.mod_eq_of_lt (by omega)
  have ex : (BitVec.ofNat 16 x).toNat = x := by rw [BitVec.toNat_ofNat]; exact Nat.mod_eq_of_lt (by omega)
  let u' : State := u.setCtr { u.ctr with fi := BitVec.ofNat 4 i, sy := BitVec.ofNat 16 y, sx := BitVec.ofNat 16 x }
  have hu' : SameButGridDpCtr s u' := hu.trans rfl
  have run : remapSite (i, y, x) u = execRsite (BitVec.ofNat 4 i) (BitVec.ofNat 16 y) (BitVec.ofNat 16 x) u' := rfl
  have hs : isSite u' (BitVec.ofNat 4 i) (BitVec.ofNat 16 y) (BitVec.ofNat 16 x) = true := by
    simp [isSite, u', fge, ei, ey, ex, hi, hy, hx]
  have hp : u'.prof = selectProfile u'.geom.nf u'.prof := by
    show u.prof = selectProfile u.geom.nf u.prof
    rw [fpr, fge]
    exact hr.profile.1
  have hpos := sitePosition_eq hp (i := BitVec.ofNat 4 i) (by show _ < fieldCountNat u.geom.nf; rw [ei, fge]; exact hi)
    (BitVec.ofNat 16 y) (BitVec.ofNat 16 x)
  rw [ei, ey, ex, show u'.geom.nf = s.geom.nf by rw [← fge]; rfl] at hpos
  have hcan : u'.canvas = s.canvas := by rw [← fca]; rfl
  have hidx : ∀ X Y c, gridIndex u' X Y c = gridIndex s X Y c := fun X Y c => by rw [gridIndex, hcan, gridIndex]
  cases hon : siteOnCanvas u' (BitVec.ofNat 4 i) (BitVec.ofNat 16 y) (BitVec.ofNat 16 x)
  · obtain ⟨d, hd, _⟩ := execRsite_off hs hon
    refine ⟨_, run.trans hd, hu'.trans rfl, fun X Y c hX hY hc => ?_, fun n _ => rfl⟩
    rw [if_neg]
    · rfl
    · intro hl
      have hl' := of_decide_eq_true hl
      rw [← hpos, Prod.mk.injEq] at hl'
      simp [siteOnCanvas, onCanvas, hl'.1, hl'.2, hcan, hX, hY] at hon
  · simp only [siteOnCanvas, onCanvas, Bool.and_eq_true, decide_eq_true_eq, hcan] at hon
    obtain ⟨⟨⟨x0, x1⟩, y0⟩, y1⟩ := hon
    obtain ⟨X0, hX0⟩ := Int.eq_ofNat_of_zero_le x0
    obtain ⟨Y0, hY0⟩ := Int.eq_ofNat_of_zero_le y0
    rw [hX0, hY0] at hpos
    have hX : X0 < s.canvas.wout.toNat := by omega
    have hY : Y0 < s.canvas.hout.toNat := by omega
    have hcc : s.canvas.cc = 3 ∨ s.canvas.cc = 4 := by
      rw [hr.profile.2]
      exact channelCount_cases _
    have hk : ∀ p : BitVec 2, 4 * wordIndex s.geom.height.toNat s.geom.wpr.toNat i p.toNat y x + 3 < s.dumpLen.toNat := fun p => by
      obtain ⟨s1, s2, s3⟩ := hr.sizes
      have s4 := (inferFieldCount_eq_some.1 s3).2
      rw [s2, s1] at s4
      rw [s4, s1]
      exact wordIndex_lt hi p.isLt hy hx
    have hword : ∀ p : BitVec 2, ∃ w, readRawWord (wordIndex s.geom.height.toNat s.geom.wpr.toNat i p.toNat y x) s = .next w ∧
        dumpWord s.raw (wordIndex s.geom.height.toNat s.geom.wpr.toNat i p.toNat y x) = some w := fun p =>
      readRawWord_of_loaded hr.loaded (hk p)
    let word : Nat → PackedWord := fun p => (dumpWord s.raw (wordIndex s.geom.height.toNat s.geom.wpr.toNat i p y x)).getD 0
    have hw' : ∀ p : BitVec 2, readRawWord (sampleWord u' (BitVec.ofNat 4 i) p (BitVec.ofNat 16 y) (BitVec.ofNat 16 x)) u' =
        .next (word p.toNat) := fun p => by
      obtain ⟨w, h1, h2⟩ := hword p
      have : word p.toNat = w := by simp only [word, h2, Option.getD_some]
      rw [this, ← h1]
      show readRawWord (wordIndex u.geom.height.toNat u.geom.wpr.toNat _ _ _ _) _ = _
      rw [ei, ey, ex, fge]
      simp only [readRawWord, u', State.setCtr_dumpLen, State.setCtr_raw, fdl, fraw]
    have hvals : ∀ c : BitVec 2, c.toNat < u'.canvas.cc.toNat → memRead (tableAt u'.lut (tableOfChannel c))
        (extractSample (word (planeOfChannel c).toNat) (BitVec.ofNat 16 x).toNat).toNat =
          some (toneOf s.cfg s.gains c.toNat (extractSample (word (3 - c.toNat)) x)) := fun c _ => by
      rw [toNat_planeOfChannel, ex, show u'.lut = s.lut by rw [← flu]; rfl]
      exact memRead_table_of_channel hr.tables c _
    obtain ⟨d, hd, _⟩ := execRsite_on hp hs (X := X0) (Y := Y0)
      (by rw [ei, ey, ex, show u'.geom.nf = s.geom.nf by rw [← fge]; rfl]; exact hpos.symm)
      (by rw [hcan]; exact hX) (by rw [hcan]; exact hY) (by rw [hcan]; exact hcc) hw'
      (v := fun c => toneOf s.cfg s.gains c (extractSample (word (3 - c)) x)) hvals
    have hval : ∀ c, siteValue s (i, y, x) c = some (toneOf s.cfg s.gains c (extractSample (word (3 - c)) x)) := fun c => by
      have h4 : 3 - c < 4 := by omega
      obtain ⟨w, _, h2⟩ := hword (BitVec.ofNat 2 (3 - c))
      rw [BitVec.toNat_ofNat, Nat.mod_eq_of_lt h4] at h2
      simp only [siteValue, dumpSample, ← hr.sizes.1, word, h2, Option.map_some, Option.getD_some]
    refine ⟨_, run.trans hd, hu'.trans rfl, fun X Y c hX' hY' hc => ?_, fun n hn => ?_⟩
    · simp only [State.setGrid_grid, hcan]
      have hgi : gridIndex u' X0 Y0 = gridIndex s X0 Y0 := by
        funext c
        exact hidx X0 Y0 c
      rw [hgi]
      by_cases hl : lands s.geom.nf X Y (i, y, x) = true
      · have hl' := of_decide_eq_true hl
        rw [← hpos, Prod.mk.injEq, Int.natCast_inj, Int.natCast_inj] at hl'
        obtain ⟨rfl, rfl⟩ := hl'
        rw [if_pos hl, hval]
        exact memRead_writeCell _ _ _ _ _ hc fun a ha b hb h => (cellIndex_inj hX ha hX hb h).2.2
      · rw [if_neg hl]
        refine memRead_writeCell_of_ne _ _ _ _ _ fun c' hc' h => hl ?_
        obtain ⟨e1, e2, _⟩ := cellIndex_inj hX' hc hX hc' h
        exact decide_eq_true (by rw [e1, e2]; exact hpos.symm)
    · simp only [State.setGrid_grid, hcan]
      refine memRead_writeCell_of_ne _ _ _ _ _ fun c' hc' h => ?_
      rw [hidx] at h
      have := cellIndex_lt hX hY hc'
      rw [gridSize] at hn
      rw [gridIndex] at h
      omega

end Sys2Proof.Machine
end

