-- ==== Sys2Proof/Laws/Steps.lean ====
section
/-!
SUPPORT. Which operation a step runs in each phase (30_encoding.md rule R107).
-/

namespace Sys2Proof.Machine

/-- The step of the operation that is fetched. -/
theorem step_of_decode {s : State} {i : Instr} (h : decode (fetchWord s) = .ok i) : step s = exec i s := by
  unfold step
  rw [h]

/-- Outside IDLE the code of PHASE is fetched. -/
theorem fetchWord_of_phase {s : State} {p : Phase} (h : s.phase = p) (hp : p ≠ .idle) :
    fetchWord s = .stage (phaseCode p) := by
  unfold fetchWord
  rw [if_neg fun hc => hp (h.symm.trans hc.1), h]

theorem step_start {s : State} (h : s.phase = .idle) (hc : s.cmd = 0x01#8) : step s = execStart s :=
  step_of_decode (i := .start) (by unfold fetchWord; rw [if_pos ⟨h, hc⟩, hc]; rfl)

theorem step_idle {s : State} (h : s.phase = .idle) (hc : s.cmd ≠ 0x01#8) : step s = .next s :=
  step_of_decode (i := .idle) (by unfold fetchWord; rw [if_neg fun c => hc c.2, h]; rfl)

theorem step_ldgeom {s : State} (h : s.phase = .ldgeom) : step s = execLdgeom s :=
  step_of_decode (i := .ldgeom) (by rw [fetchWord_of_phase h (by decide)]; rfl)

theorem step_chksize {s : State} (h : s.phase = .chksize) : step s = execChksize s :=
  step_of_decode (i := .chksize) (by rw [fetchWord_of_phase h (by decide)]; rfl)

theorem step_gsel {s : State} (h : s.phase = .gsel) : step s = execGsel s :=
  step_of_decode (i := .gsel) (by rw [fetchWord_of_phase h (by decide)]; rfl)

theorem step_lutbld {s : State} (h : s.phase = .lutbld) : step s = execLutbld s :=
  step_of_decode (i := .lutbld) (by rw [fetchWord_of_phase h (by decide)]; rfl)

theorem step_gclr {s : State} (h : s.phase = .gclr) : step s = execGclr s :=
  step_of_decode (i := .gclr) (by rw [fetchWord_of_phase h (by decide)]; rfl)

theorem step_remap {s : State} (h : s.phase = .remap) : step s = execRemap s :=
  step_of_decode (i := .remap) (by rw [fetchWord_of_phase h (by decide)]; rfl)

theorem step_fill {s : State} (h : s.phase = .fill) : step s = execFill s :=
  step_of_decode (i := .fill) (by rw [fetchWord_of_phase h (by decide)]; rfl)

theorem step_crop {s : State} (h : s.phase = .crop) : step s = execCrop s :=
  step_of_decode (i := .crop) (by rw [fetchWord_of_phase h (by decide)]; rfl)

theorem step_emit {s : State} (h : s.phase = .emit) : step s = execEmit s :=
  step_of_decode (i := .emit) (by rw [fetchWord_of_phase h (by decide)]; rfl)

theorem step_done {s : State} (h : s.phase = .done) : step s = execDone s :=
  step_of_decode (i := .done) (by rw [fetchWord_of_phase h (by decide)]; rfl)

theorem step_error {s : State} (h : s.phase = .error) : step s = execError s :=
  step_of_decode (i := .error) (by rw [fetchWord_of_phase h (by decide)]; rfl)

end Sys2Proof.Machine
end

