-- ==== Sys2Proof/Tests/Slice0.lean ====
section
/-!
SUPPORT. Tests. Expected values are those of spec/95_test_vectors.md (named V<n>.<m> and P<n> there) or of the example the rule itself gives.
First the smoke test of the well-formedness checks, then decoding, then one step of each operation, then a witness for the premises of
every statement.
-/

namespace Sys2Proof.Tests

open Sys2Proof.Machine

/-! ### Helpers -/

/-- Does an operation answer next with a state of which `p` holds? -/
def after (r : Result State) (p : State → Bool) : Bool :=
  match r with
  | .next t => p t
  | _ => false

/-- A packed word as four loaded bytes of RAW, word number `k`. -/
def word (k w : Nat) : Mem 8 :=
  [(4 * k, BitVec.ofNat 8 w), (4 * k + 1, BitVec.ofNat 8 (w / 256)), (4 * k + 2, BitVec.ofNat 8 (w / 65536)),
   (4 * k + 3, BitVec.ofNat 8 (w / 16777216))]

def gain1 : Gain := ⟨1, 1, by decide, by decide⟩
def gain2 : Gain := ⟨2, 1, by decide, by decide⟩
def gainHalf : Gain := ⟨1, 2, by decide, by decide⟩

/-- The gain of V41.3, every odd sample a tie. -/
def gainTie : Gain := ⟨341, 43690, by decide, by decide⟩

/-- The metadata blob of a program: the four bytes LDGEOM reads. -/
def blob (width height : Nat) : Mem 8 :=
  [(0xA, BitVec.ofNat 8 (width / 256)), (0xB, BitVec.ofNat 8 width), (0xE, BitVec.ofNat 8 (height / 256)),
   (0xF, BitVec.ofNat 8 height)]

/-- Inputs loaded in IDLE: one field, 3 × 1, linear, gains 1, as program P1. -/
def p1 : State :=
  { State.reset with
    cfg := 0b100
    gains := ⟨gain1, gain1, gain1⟩
    metaLen := 16
    metaBlob := blob 3 1
    dumpLen := 16
    raw := word 0 0 ++ word 1 0 ++ word 2 0 ++ word 3 0x3FF }

/-- The state CHKSIZE and GSEL leave for these sizes, in a phase. -/
def sized (p : Phase) (cfg : BitVec 3) (nf : FieldCount) (width height : Nat) : State :=
  { State.reset with
    phase := p
    status := startStatus
    cfg := cfg
    metaLen := 16
    dumpLen := BitVec.ofNat 64 (fieldCountNat nf * fieldBytesOf height (wordsPerRow width))
    geom := ⟨BitVec.ofNat 16 width, BitVec.ofNat 16 height, BitVec.ofNat 15 (wordsPerRow width),
      BitVec.ofNat 35 (fieldBytesOf height (wordsPerRow width)), nf⟩
    prof := selectProfile nf State.reset.prof
    canvas := sizeCanvas (selectProfile nf State.reset.prof) width height cfg }

/-- Program P1 before REMAP. -/
def p1Remap : State :=
  { sized .remap 0b100 .one 3 1 with
    gains := p1.gains
    metaBlob := p1.metaBlob
    raw := p1.raw
    lut := buildTables 0b100 p1.gains
    grid := memFill 18 0 [] }

/-- Program P1 after REMAP: value number 9 of GRID is red of cell (0, 1). -/
def p1Fill : State := { p1Remap with phase := .fill, grid := memWrite p1Remap.grid 9 65535 }

/-- Program P1 after FILL: value number 12 is red of cell (1, 1). -/
def p1Crop : State := { p1Fill with phase := .crop, grid := memWrite p1Fill.grid 12 32767 }

/-- Program P1 after CROP. -/
def p1Emit : State := { p1Crop with phase := .emit, out := memTable 6 fun n => if n = 0 then 32767 else 0 }

/-- Program P1 at its end. -/
def p1Done : State := { p1Emit with phase := .done, status := ⟨false, true, false, .none⟩, emitted := [32767, 0, 0, 0, 0, 0] }

/-- Program P1 with a length that fits no field count, at its end. -/
def p1SizeMismatch : State := { p1 with phase := .error, status := ⟨false, false, true, .sizeMismatch⟩ }

/-- Program P1 without metadata, at its end. -/
def p1NoMetadata : State := { p1 with phase := .error, status := ⟨false, false, true, .metadataUnavailable⟩ }

/-- Program P2 before REMAP, with the words of field 1's first word column loaded. -/
def p2Remap : State :=
  { sized .remap 0b111 .two 4 1 with
    gains := p1.gains
    raw := word 8 0x1A967D95 ++ word 10 0x20D80DF9 ++ word 12 0x27199E5D ++ word 14 0x2D5B2EC1 ++ word 15 0x000002DF
    lut := buildTables 0b111 p1.gains
    grid := memFill 32 0 [] }

/-! ### Well-formedness: an ill-formed term for each check, which the check refuses -/

theorem test_illFormed_field : (Instr.unpk 8 0 0 0).wellFormed = false := by decide
theorem test_illFormed_row : (Instr.xform 0 65535 0).wellFormed = false := by decide
theorem test_illFormed_column : (Instr.rsite 0 0 65535).wellFormed = false := by decide
theorem test_illFormed_gapColumnZero : (Instr.fillc 0 2 0).wellFormed = false := by decide
theorem test_illFormed_gapColumn : (Instr.fillc 131069 1 0).wellFormed = false := by decide
theorem test_illFormed_gapRowZero : (Instr.fillc 2 0 0).wellFormed = false := by decide
theorem test_illFormed_gapRow : (Instr.fillc 2 262140 0).wellFormed = false := by decide
theorem test_illFormed_gapOddSum : (Instr.fillc 1 2 0).wellFormed = false := by decide
theorem test_illFormed_outColumn : (Instr.cmov 131068 0 0).wellFormed = false := by decide
theorem test_illFormed_outRow : (Instr.cmov 0 262139 0).wellFormed = false := by decide
theorem test_illFormed_refused : decode (.primitive 6#4 [1, 2, 0]) = .error .operandRange := by decide
theorem test_wide_operand_refused : decode (.primitive 3#4 [0, 1024]) = .error .operandWidth := by decide
theorem test_operand_count_refused : decode (.primitive 5#4 [0]) = .error .operandCount := by decide

/-! ### Decoding: the codes of 30_encoding.md rules R101, R103, R104 -/

theorem test_decode_start : decode (.command 0b00000001#8) = .ok .start := by decide
theorem test_decode_gsel : decode (.stage 0b0011#4) = .ok .gsel := by decide
theorem test_decode_lutbld : decode (.stage 0b0100#4) = .ok .lutbld := by decide
theorem test_decode_gclr : decode (.stage 0b0101#4) = .ok .gclr := by decide
theorem test_decode_remap : decode (.stage 0b0110#4) = .ok .remap := by decide
theorem test_decode_fill : decode (.stage 0b0111#4) = .ok .fill := by decide
theorem test_decode_crop : decode (.stage 0b1000#4) = .ok .crop := by decide
theorem test_decode_emit : decode (.stage 0b1001#4) = .ok .emit := by decide
theorem test_decode_done : decode (.stage 0b1010#4) = .ok .done := by decide
theorem test_decode_error : decode (.stage 0b1011#4) = .ok .error := by decide
theorem test_decode_idle : decode (.stage 0b0000#4) = .ok .idle := by decide
theorem test_decode_ldgeom : decode (.stage 0b0001#4) = .ok .ldgeom := by decide
theorem test_decode_chksize : decode (.stage 0b0010#4) = .ok .chksize := by decide
theorem test_decode_unpk : decode (.primitive 0b0001#4 [1, 3, 0, 3]) = .ok (.unpk 1 3 0 3) := by decide
theorem test_decode_xform : decode (.primitive 0b0010#4 [4, 0, 1]) = .ok (.xform 4 0 1) := by decide
theorem test_decode_lutrd : decode (.primitive 0b0011#4 [3, 1023]) = .ok (.lutrd 3 1023) := by decide
theorem test_decode_rsite : decode (.primitive 0b0100#4 [1, 0, 1]) = .ok (.rsite 1 0 1) := by decide
theorem test_decode_avg2 : decode (.primitive 0b0101#4 [65535, 0]) = .ok (.avg2 65535 0) := by decide
theorem test_decode_fillc : decode (.primitive 0b0110#4 [1, 262139, 3]) = .ok (.fillc 1 262139 3) := by decide
theorem test_decode_cmov : decode (.primitive 0b0111#4 [1, 0, 2]) = .ok (.cmov 1 0 2) := by decide

/-- Words in the numbering of spec/opcode_table.json (log 9). -/
theorem test_table_words : decodeTableWord 8 1 = some .start ∧ decodeTableWord 8 0 = some .idle ∧ decodeTableWord 8 11 = some .error ∧
    decodeTableWord 4 1 = some .ldgeom ∧ decodeTableWord 8 12 = none ∧ decodeTableWord 8 0x80 = none := by decide

/-- The step after reset runs the placed operation. -/
theorem test_withFetchWord : after (step (State.reset.withFetchWord 8 1)) (fun t => decide (t.phase = .ldgeom)) = true ∧
    after (step (State.reset.withFetchWord 8 3)) (fun t => decide (t.phase = .lutbld)) = true ∧
    after (step (State.reset.withFetchWord 4 1)) (fun t => decide (t.phase = .error)) = true := by decide

/-! ### One step of each operation -/

/-- V46.13. -/
theorem test_start : after (hostWriteCmd 0x01 State.reset) (fun t => decide (t.phase = .ldgeom ∧ statusBits t.status = 0x01)) = true := by decide

/-- V46.14: START in DONE changes nothing. -/
theorem test_start_ignored : exec .start p1Done = .next p1Done := by rfl

theorem test_idle : step p1 = .next p1 := by rfl

/-- V46.1. -/
theorem test_ldgeom : after (exec .ldgeom { p1 with metaBlob := [(0xA, 0x0F), (0xB, 0xA0), (0xE, 0x0B), (0xF, 0xB8)] })
    (fun t => decide (t.geom.width = 4000 ∧ t.geom.height = 3000 ∧ t.phase = .chksize)) = true := by decide

/-- V46.4. -/
theorem test_ldgeom_short : after (exec .ldgeom { p1 with metaLen := 15, status := startStatus })
    (fun t => decide (t.phase = .error ∧ statusBits t.status = 0x0C)) = true := by decide

/-- V46.5 with four fields. -/
theorem test_chksize : after (exec .chksize { p1 with geom := ⟨4000, 3000, 0, 0, .one⟩, dumpLen := 256128000 })
    (fun t => decide (t.geom.wpr = 1334 ∧ t.geom.fieldBytes = 64032000 ∧ t.geom.nf = .four ∧ t.phase = .gsel)) = true := by decide

/-- V46.10. -/
theorem test_chksize_three : after (exec .chksize { p1 with geom := ⟨3, 1, 0, 0, .eight⟩, dumpLen := 48, status := startStatus })
    (fun t => decide (t.phase = .error ∧ statusBits t.status = 0x14 ∧ t.geom.nf = .eight)) = true := by decide

/-- V42.3 and the example of 42_geometry_profile.md rule R145. -/
theorem test_gsel_four : after (exec .gsel { p1 with geom := ⟨2, 1, 1, 16, .four⟩ })
    (fun t => decide (t.prof.xshift.toList = [1, 0, 1, 2, 0, 0, 0, 0] ∧ t.prof.yshift.toList = [0, 1, 2, 1, 0, 0, 0, 0] ∧
      t.prof.xoff.toInt = -1 ∧ t.canvas = ⟨3, 3, 3, 2, 2⟩)) = true := by decide

/-- V42.1, the largest canvas. -/
theorem test_gsel_largest : after (exec .gsel { p1 with geom := ⟨65535, 65535, 0, 0, .eight⟩, cfg := 0b110 })
    (fun t => decide (t.canvas = ⟨131069, 262140, 4, 131068, 262139⟩)) = true := by decide

/-- V41.3, V41.4: ties go up. -/
theorem test_linear_ties : [1, 2, 3, 4, 5, 1023].map (fun s => (linear gainTie (BitVec.ofNat 10 s)).toNat) = [1, 1, 2, 2, 3, 512] ∧
    (linear gainHalf 1023).toNat = 32768 ∧ (linear gain2 511).toNat = 65471 ∧ (linear gain2 512).toNat = 65535 := by decide

/-- V41.8, V41.9. -/
theorem test_log_entries : [0, 1, 2, 499, 500, 501, 696, 1006, 1007, 1023].map (fun s => (logDensity (BitVec.ofNat 10 s)).toNat) =
    [65535, 65234, 64934, 6584, 6554, 6523, 2658, 637, 635, 589] := by decide

/-- The example of 41_tone_curve.md rule R130. -/
theorem test_lutbld : after (exec .lutbld p1) (fun t => decide (memRead t.lut.red 1023 = some 65535 ∧ memRead t.lut.red 1 = some 64)) =
    true := by decide +kernel

/-- The example of 46_setup_and_output.md rule R188. -/
theorem test_gclr : after (exec .gclr { sized .gclr 0b100 .one 3 1 with grid := [(3, 7), (40, 9)] })
    (fun t => decide (t.grid.length = 19 ∧ memRead t.grid 3 = some 0 ∧ memRead t.grid 17 = some 0 ∧ memRead t.grid 40 = some 9)) =
    true := by decide

/-- The example of 40_sample_unpacker.md rule R121 (V40.11). -/
theorem test_unpk : after (exec (.unpk 1 3 0 3) p2Remap)
    (fun t => decide (t.dp.w32 = 0x000002DF ∧ t.dp.samples[3] = 735)) = true := by decide

/-- V40.8. -/
theorem test_unpk_middle : after (exec (.unpk 1 3 0 1) p2Remap) (fun t => decide (t.dp.samples[3] = 715)) = true := by decide

/-- V43.1, NF = 4: above the canvas. -/
theorem test_xform_above : after (exec (.xform 0 0 1) (sized .remap 0b100 .four 3 2))
    (fun t => decide (t.dp.xp.toInt = 2 ∧ t.dp.yp.toInt = -1 ∧ t.dp.inb = false)) = true := by decide

/-- V43.1, NF = 8, field 4, on the canvas 5 × 8. -/
theorem test_xform_on : after (exec (.xform 4 1 1) (sized .remap 0b100 .eight 3 2))
    (fun t => decide (t.dp.xp.toInt = 3 ∧ t.dp.yp.toInt = 5 ∧ t.dp.inb = true)) = true := by decide

/-- V41.10. -/
theorem test_lutrd_red : after (exec (.lutrd 0 250) { p1 with lut := buildTables 0b100 ⟨gain2, gain1, gainHalf⟩ })
    (fun t => decide (t.dp.tones[0] = 32031)) = true := by decide +kernel

/-- V41.13: infrared reads the blue table. -/
theorem test_lutrd_infrared : after (exec (.lutrd 3 150) { p1 with lut := buildTables 0b100 ⟨gain2, gain1, gainHalf⟩ })
    (fun t => decide (t.dp.tones[3] = 4805)) = true := by decide +kernel

/-- Program P2, site (1, 0, 1): cell (1, 1) starts at value number 20. -/
theorem test_rsite : after (exec (.rsite 1 0 1) p2Remap)
    (fun t => decide ([20, 21, 22, 23, 24].map (memRead t.grid) = [some 2435, some 3859, some 6116, some 9693, some 0])) = true := by
  decide +kernel

/-- Program P2, site (1, 0, 0): discarded. -/
theorem test_rsite_off : after (exec (.rsite 1 0 0) p2Remap)
    (fun t => decide (t.grid = p2Remap.grid ∧ t.dp.yp.toInt = 2 ∧ t.dp.samples = p2Remap.dp.samples)) = true := by decide

/-- Program P1. -/
theorem test_remap : after (exec .remap p1Remap) (fun t => decide (t.grid = p1Fill.grid ∧ t.phase = .fill)) = true := by decide +kernel

/-- V44.1, V44.4. -/
theorem test_avg2 : after (exec (.avg2 65535 65535) p1) (fun t => decide (t.dp.av = 65535)) = true ∧
    after (exec (.avg2 60218 32031) p1) (fun t => decide (t.dp.av = 46124)) = true := by decide

/-- The example of 44_gap_filler.md rule R173. -/
theorem test_fillc : after (exec (.fillc 1 1 0) { p1Fill with grid := memWrite (memWrite p1Fill.grid 3 60218) 9 32031 })
    (fun t => decide (memRead t.grid 12 = some 46124 ∧ t.dp.na = 60218 ∧ t.dp.nb = 32031)) = true := by decide

/-- Program P1. -/
theorem test_fill : after (exec .fill p1Fill) (fun t => decide (t.grid = p1Crop.grid ∧ t.phase = .crop)) = true := by decide +kernel

/-- V44.9. -/
theorem test_fill_width_one : after (exec .fill (sized .fill 0b100 .one 1 1)) (fun t => decide (t.grid = [])) = true := by decide

/-- V45.1. -/
theorem test_cmov : after (exec (.cmov 1 0 2) { p1Crop with grid := memWrite p1Crop.grid 17 4321 })
    (fun t => decide (t.out = [(5, 4321)])) = true := by decide

/-- Program P1. -/
theorem test_crop : after (exec .crop p1Crop) (fun t => decide (t.out = p1Emit.out ∧ t.grid = p1Crop.grid ∧ t.phase = .emit)) = true := by
  decide +kernel

/-- Program P1. -/
theorem test_emit : after (exec .emit p1Emit)
    (fun t => decide (t.emitted = [32767, 0, 0, 0, 0, 0] ∧ t.phase = .done ∧ statusBits t.status = 0x02)) = true := by decide

theorem test_done : step p1Done = .next p1Done := by rfl

theorem test_error : after (exec .error { p1 with phase := .error, status := ⟨false, false, true, .sizeMismatch⟩ })
    (fun t => decide (t.phase = .error ∧ statusBits t.status = 0x14)) = true := by decide

/-- 10_state.md rule R42: a result is read at DONE and nowhere else. -/
theorem test_host_reads : hostReadOut 0 0 0 p1Done = .next 32767 ∧ hostReadOut 0 0 0 p1Emit = .refused .hostReadDenied := ⟨rfl, rfl⟩

/-- 10_state.md rule R30: the row of the gains; 46_setup_and_output.md rule R190: the memories. -/
theorem test_host_reads_inputs : hostReadCtl .gainB { p1Emit with gains := ⟨gain2, gain1, gainHalf⟩ } = .next (.rational gainHalf) ∧
    hostReadMeta 0xB p1Done = .next 3 ∧ hostReadMeta 0xB p1Emit = .refused .hostReadDenied ∧ hostReadRaw 12 p1Done = .next 0xFF ∧
    hostReadRaw 16 p1Done = .fault (.noSuchLocation .raw 16) := ⟨rfl, rfl, rfl, rfl, rfl⟩

/-! ### Witnesses: for each statement with premises, states and operands that meet them together -/

theorem test_premises_DecodeInvertsEncode : (Instr.fillc 131068 262138 3).wellFormed = true ∧ (Instr.unpk 7 3 65534 65534).wellFormed = true ∧
    (Instr.cmov 131067 262138 3).wellFormed = true := by decide

theorem test_premises_EncodeInvertsDecode : decode (.primitive 6#4 [131068, 262138, 3]) = .ok (.fillc 131068 262138 3) ∧
    decode (.command 1#8) = .ok .start ∧ decode (.stage 11#4) = .ok .error := by decide

theorem test_premises_ReservedCodes : 0x02#8 ≠ 0x01#8 ∧ 0x00#8 ≠ 0x01#8 ∧ 12 ≤ (12#4).toNat ∧ (0#4).toNat = 0 ∧ 8 ≤ (8#4).toNat := by
  decide

theorem test_premises_StepRuns : decode (fetchWord p1) = .ok .idle ∧ (p1.phase = .idle ∧ { p1 with cmd := 0x01 }.cmd = 0x01#8) ∧
    ¬(p1Emit.phase = .idle ∧ p1Emit.cmd = 0x01#8) := by decide

theorem test_premises_Start : p1.phase = .idle ∧ p1Done.phase ≠ .idle ∧ ¬(p1Done.phase = .idle ∧ 0x01#8 = 0x01#8) ∧
    ¬(p1.phase = .idle ∧ 0x02#8 = 0x01#8) := by decide

theorem test_premises_Words : (0xE + 1 < p1.metaLen.toNat ∧ memRead p1.metaBlob 0xE = some 0 ∧ memRead p1.metaBlob (0xE + 1) = some 1) ∧
    4 * 3 + 3 < p1.dumpLen.toNat ∧ memRead p1.raw (4 * 3) = some 0xFF ∧ memRead p1.raw (4 * 3 + 1) = some 0x03 ∧
    memRead p1.raw (4 * 3 + 2) = some 0 ∧ memRead p1.raw (4 * 3 + 3) = some 0 := by decide

theorem test_premises_Ldgeom : State.reset.cfg.getLsbD 2 = false ∧ { p1 with metaLen := 15 }.metaLen.toNat < 16 ∧
    (p1.cfg.getLsbD 2 = true ∧ 16 ≤ p1.metaLen.toNat ∧ memRead p1.metaBlob 0xA = some 0 ∧ memRead p1.metaBlob 0xB = some 3 ∧
      memRead p1.metaBlob 0xE = some 0 ∧ memRead p1.metaBlob 0xF = some 1) := by decide

/-- Each field count, a dump of three fields, and a field of no bytes. -/
theorem test_premises_Chksize : (16 * 1 * ((3 + 2) / 3) ≠ 0 ∧ (16 : Nat) = fieldCountNat .one * (16 * 1 * ((3 + 2) / 3)) ∧
      (128 : Nat) = fieldCountNat .eight * (16 * 1 * ((3 + 2) / 3))) ∧ 16 * 5 * ((0 + 2) / 3) = 0 ∧
    fieldCountNat .one * 16 ≠ 48 ∧ fieldCountNat .two * 16 ≠ 48 ∧ fieldCountNat .four * 16 ≠ 48 ∧ fieldCountNat .eight * 16 ≠ 48 ∧
    (sized .chksize 0b100 .eight 3 1).dumpLen.toNat = 128 ∧ (sized .chksize 0b100 .eight 3 1).geom.height.toNat = 1 ∧
    (sized .chksize 0b100 .eight 3 1).geom.width.toNat = 3 := by decide

theorem test_premises_OnlySetup : ∃ s t : State, step s = .next t ∧ t.phase = .error ∧ s.phase ≠ .error :=
  ⟨{ State.reset with phase := .ldgeom, status := startStatus }, _, rfl, rfl, by decide⟩

theorem test_premises_Gsel : 1 ≤ (sized .gsel 0b100 .eight 1 1).geom.width.toNat ∧ 1 ≤ (sized .gsel 0b100 .eight 1 1).geom.height.toNat ∧
    1 ≤ (sized .gsel 0b110 .four 65535 65535).geom.width.toNat ∧ 1 ≤ (sized .gsel 0b110 .four 65535 65535).geom.height.toNat := by decide

theorem test_premises_CanvasSize : ∃ s s' t t' : State, exec .gsel s = .next t ∧ exec .gsel s' = .next t' ∧ s ≠ s' ∧
    s.geom.width = s'.geom.width ∧ s.geom.height = s'.geom.height ∧ s.geom.nf = s'.geom.nf ∧ s.cfg.getLsbD 1 = s'.cfg.getLsbD 1 :=
  ⟨sized .gsel 0b100 .four 2 1, { sized .gsel 0b101 .four 2 1 with dumpLen := 5 }, _, _, rfl, rfl, by decide, by decide⟩

theorem test_premises_LinearCurveDoesNotDecrease : (1022 : Sample).toNat ≤ (1023 : Sample).toNat := by decide

theorem test_premises_LogCurveIsRoundedPower : ∃ s t t' : State, s.cfg.getLsbD 0 = true ∧ exec .lutbld s = .next t ∧
    exec .lutbld { s with gains := ⟨gain2, gain1, gainHalf⟩ } = .next t' :=
  ⟨sized .lutbld 0b111 .two 4 1, _, _, by decide, execLutbld_eq _, execLutbld_eq _⟩

theorem test_premises_Tables : ∃ s s' t t' : State, exec .lutbld s = .next t ∧ exec .lutbld s' = .next t' ∧ s ≠ s' ∧
    s.cfg.getLsbD 0 = s'.cfg.getLsbD 0 ∧ s.gains = s'.gains :=
  ⟨sized .lutbld 0b100 .two 4 1, sized .lutbld 0b110 .eight 2 2, _, _, execLutbld_eq _, execLutbld_eq _, fun h => (by cases congrArg State.cfg h), rfl, rfl⟩

theorem test_premises_Lutrd : memRead [(1023, 9#16)] (1023 : Sample).toNat = some 9 ∧ memRead [(0, 7#16)] (0 : Sample).toNat = some 7 := by
  decide

theorem test_premises_Unpk : (1#4).toNat < fieldCountNat p2Remap.geom.nf ∧ (0#16).toNat < p2Remap.geom.height.toNat ∧
    (3#16).toNat < p2Remap.geom.width.toNat ∧ ((1 * 4 + 3) * p2Remap.geom.height.toNat + 0) * p2Remap.geom.wpr.toNat + 3 / 3 = 15 ∧
    4 * 15 + 3 < p2Remap.dumpLen.toNat ∧ memRead p2Remap.raw (4 * 15) = some 0xDF ∧ memRead p2Remap.raw (4 * 15 + 1) = some 0x02 ∧
    memRead p2Remap.raw (4 * 15 + 2) = some 0 ∧ memRead p2Remap.raw (4 * 15 + 3) = some 0 := by decide

theorem test_premises_SampleOnBytes : 0 % 3 = 0 ∧ 65533 % 3 = 1 ∧ 65534 % 3 = 2 := by decide

theorem test_premises_UnusedWordBits : (0xC001E064 : PackedWord).toNat % 2 ^ 30 = (0x0001E064 : PackedWord).toNat % 2 ^ 30 := by decide

/-- One operand just outside each range. -/
theorem test_premises_OperandsOutside : ¬((2#4).toNat < fieldCountNat p2Remap.geom.nf) ∧ ¬((1#16).toNat < p2Remap.geom.height.toNat) ∧
    ¬((4#16).toNat < p2Remap.geom.width.toNat) ∧ ¬(1 ≤ (0#17).toNat) ∧ ¬((4#17).toNat < p2Remap.canvas.wout.toNat) ∧
    ¬((2#18).toNat < p2Remap.canvas.hout.toNat) ∧ ¬(((1#17).toNat + (2#18).toNat) % 2 = 0) ∧ ¬((3#17).toNat < p2Remap.canvas.outW.toNat) ∧
    ¬((1#18).toNat < p2Remap.canvas.outH.toNat) ∧ ¬((3#2).toNat < p1Crop.canvas.cc.toNat) := by decide

theorem test_profileSelected (p : Phase) (cfg : BitVec 3) (nf : FieldCount) (width height : BitVec 16) :
    ProfileSelected (sized p cfg nf width.toNat height.toNat) := by
  refine ⟨(selectProfile_idem nf _).symm, ?_⟩
  simp [sized]

/-- The largest sensor, the last site of field 6 (V43.4). -/
theorem test_premises_Xform : ProfileSelected (sized .remap 0b110 .eight 65535 65535) ∧
    (6#4).toNat < fieldCountNat (sized .remap 0b110 .eight 65535 65535).geom.nf ∧
    (65534#16).toNat < (sized .remap 0b110 .eight 65535 65535).geom.height.toNat ∧
    (65534#16).toNat < (sized .remap 0b110 .eight 65535 65535).geom.width.toNat :=
  ⟨test_profileSelected .remap 0b110 .eight 65535#16 65535#16, by decide, by decide, by decide⟩

/-- Program P2: site (1, 0, 0) off the canvas, site (1, 0, 1) on it. -/
theorem test_premises_Rsite : ProfileSelected p2Remap ∧ (siteTarget p2Remap.geom.nf 1 0 0 = (0, 2) ∧
      ¬((0 : Int) ≤ 0 ∧ (0 : Int) < p2Remap.canvas.wout.toNat ∧ (0 : Int) ≤ 2 ∧ (2 : Int) < p2Remap.canvas.hout.toNat)) ∧
    siteTarget p2Remap.geom.nf 1 0 1 = (1, 1) ∧ 1 < p2Remap.canvas.wout.toNat ∧ 1 < p2Remap.canvas.hout.toNat ∧
    (∀ p < 4, 4 * wordIndex p2Remap.geom.height.toNat p2Remap.geom.wpr.toNat 1 p 0 1 + 3 < p2Remap.dumpLen.toNat ∧
      (dumpWord p2Remap.raw (wordIndex p2Remap.geom.height.toNat p2Remap.geom.wpr.toNat 1 p 0 1)).isSome) ∧
    TablesBuilt p2Remap :=
  ⟨test_profileSelected .remap 0b111 .two 4#16 1#16, by decide, by decide, by decide, by decide, by decide, rfl⟩

/-- The premise on the tables, for the samples of that site: each entry exists. -/
theorem test_premises_Rsite_tables (c : BitVec 2) (smp : Sample) : (memRead (tableAt p2Remap.lut (tableOfChannel c)) smp.toNat).isSome := by
  rw [memRead_table_of_channel (s := p2Remap) rfl]
  rfl

theorem test_premises_SitesNeverCollide : 3 < fieldCountNat .four ∧ siteTarget .four 3 0 0 = siteTarget .four 3 0 0 := by decide

/-- Every clause, at the edges of the canvas. -/
theorem test_premises_SitesCover : (2 < Claims.canvasColumns .four 2 ∧ 2 < Claims.canvasRows .four 1) ∧
    (2 < Claims.canvasColumns .one 3 ∧ 1 < Claims.canvasRows .one 1) ∧ (2 < Claims.canvasColumns .eight 2 ∧ 3 < Claims.canvasRows .eight 1) ∧
    (1 < Claims.canvasColumns .two 2 ∧ 1 < Claims.canvasRows .two 1) ∧ (0 < Claims.canvasColumns .two 1 ∧ 0 < Claims.canvasRows .two 1) := by
  decide

theorem test_remapReady : SizesInferred p1Remap ∧ ProfileSelected p1Remap ∧ TablesBuilt p1Remap ∧
    ∀ a < p1Remap.dumpLen.toNat, (memRead p1Remap.raw a).isSome :=
  ⟨⟨rfl, rfl, rfl⟩, test_profileSelected .remap 0b100 .one 3#16 1#16, rfl, by decide⟩

theorem test_premises_Fillc : 1 ≤ (2#17).toNat ∧ (2#17).toNat < (sized .fill 0b100 .four 2 1).canvas.wout.toNat ∧ 1 ≤ (2#18).toNat ∧
    (2#18).toNat < (sized .fill 0b100 .four 2 1).canvas.hout.toNat ∧ ((2#17).toNat + (2#18).toNat) % 2 = 0 ∧
    (2#2).toNat < (sized .fill 0b100 .four 2 1).canvas.cc.toNat ∧
    memRead (memFill 27 (5#16) []) (gridIndex (sized .fill 0b100 .four 2 1) 2 1 2) = some 5 ∧
    memRead (memFill 27 (5#16) []) (gridIndex (sized .fill 0b100 .four 2 1) 1 2 2) = some 5 := by decide

theorem test_gridWritten : GridWritten p1Fill ∧ p1Fill.canvas.cc.toNat ≤ 4 ∧ (1 ≤ 1 ∧ (1 + 1) % 2 = 0) ∧ ¬(1 ≤ 0) ∧
    1 < p1Fill.canvas.wout.toNat ∧ 1 < p1Fill.canvas.hout.toNat ∧ p1Fill.canvas.outW.toNat + 1 = p1Fill.canvas.wout.toNat ∧
    p1Fill.canvas.outH.toNat + 1 = p1Fill.canvas.hout.toNat := by
  refine ⟨?_, by decide⟩
  show ∀ n < 18, (memRead p1Fill.grid n).isSome
  decide

theorem test_premises_FillOrder : [(1, 1), (2, 1)].Perm (fillVisits p1Fill.canvas.wout.toNat p1Fill.canvas.hout.toNat) :=
  List.Perm.swap (2, 1) (1, 1) []

theorem test_premises_Cmov : (1#17).toNat < p1Crop.canvas.outW.toNat ∧ (0#18).toNat < p1Crop.canvas.outH.toNat ∧
    (2#2).toNat < p1Crop.canvas.cc.toNat ∧ p1Crop.canvas.outW.toNat < p1Crop.canvas.wout.toNat ∧
    p1Crop.canvas.outH.toNat < p1Crop.canvas.hout.toNat ∧ memRead p1Crop.grid (gridIndex p1Crop 2 1 2) = some 0 := by decide

theorem test_outWritten : OutWritten p1Emit := by
  show ∀ n < 6, (memRead p1Emit.out n).isSome
  decide

theorem test_premises_DoneAndError : StatusFits p1Done ∧ Ended p1Done ∧ Ended { p1Done with phase := .error } :=
  ⟨rfl, .inl rfl, .inr rfl⟩

/-- A step is taken in a phase of each kind; a host move is made; a primitive runs. -/
theorem test_premises_PhaseFollows : (∃ t, step p1 = .next t) ∧ (∃ t, step { p1 with phase := .ldgeom } = .next t) ∧
    (∃ t, step p1Done = .next t) ∧ (∃ t, hostMove .reset p1Done = .next t) ∧ (∃ t, hostMove (.writeCmd 1) p1 = .next t) ∧
    Claims.isPrimitive (.avg2 1 2) = true ∧ ∃ t, exec (.avg2 1 2) p1 = .next t :=
  ⟨⟨_, rfl⟩, ⟨_, rfl⟩, ⟨_, rfl⟩, ⟨_, rfl⟩, ⟨_, rfl⟩, rfl, ⟨_, rfl⟩⟩

theorem test_premises_Counters : (∃ t, exec .gclr p1Fill = .next t) ∧ 0 < gridSize p1Fill ∧ gridSize p1Fill ≤ 2 ^ 38 ∧
    gridSize State.reset = 0 ∧ (∃ t, exec .gclr State.reset = .next t) ∧ 0 < outSize p1Emit ∧ outSize p1Emit ≤ 2 ^ 38 ∧
    (∃ t, exec .emit p1Emit = .next t) ∧ outSize State.reset = 0 ∧ ∃ t, exec .emit State.reset = .next t :=
  ⟨⟨_, rfl⟩, by decide, by decide, by decide, ⟨_, rfl⟩, by decide, by decide, ⟨_, rfl⟩, by decide, ⟨_, rfl⟩⟩

/-- REMAP, FILL and CROP of program P1, and of sizes that give no pass. -/
theorem test_premises_Counters_nests : (0 < p1Remap.geom.height.toNat ∧ 0 < p1Remap.geom.width.toNat ∧
      after (exec .remap p1Remap) (fun _ => true) = true) ∧
    (State.reset.geom.height.toNat = 0 ∧ State.reset.geom.width.toNat = 0 ∧ after (exec .remap State.reset) (fun _ => true) = true) ∧
    (1 < p1Fill.canvas.wout.toNat ∧ 1 < p1Fill.canvas.hout.toNat ∧ 0 < p1Fill.canvas.cc.toNat ∧ p1Fill.canvas.cc.toNat ≤ 4 ∧
      after (exec .fill p1Fill) (fun _ => true) = true) ∧
    (State.reset.canvas.wout.toNat ≤ 1 ∧ State.reset.canvas.hout.toNat ≤ 1 ∧ after (exec .fill State.reset) (fun _ => true) = true) ∧
    after (exec .fill { State.reset with canvas := ⟨2, 2, 0, 0, 0⟩ }) (fun _ => true) = true ∧
    (0 < p1Crop.canvas.outW.toNat ∧ 0 < p1Crop.canvas.outH.toNat ∧ 0 < p1Crop.canvas.cc.toNat ∧ p1Crop.canvas.cc.toNat ≤ 4 ∧
      after (exec .crop p1Crop) (fun _ => true) = true) ∧
    (State.reset.canvas.outW = 0 ∧ State.reset.canvas.outH = 0 ∧ State.reset.canvas.cc = 0 ∧
      after (exec .crop State.reset) (fun _ => true) = true) := by
  decide +kernel

/-- Each primitive answers next, RSITE on and off the canvas; an index that is none of the stored ones. -/
theorem test_premises_Primitives : after (exec (.unpk 1 3 0 3) p2Remap) (fun _ => true) = true ∧
    after (exec (.xform 1 0 1) p2Remap) (fun u => decide (u.dp.inb = true)) = true ∧
    after (exec (.lutrd 3 1023) p2Remap) (fun _ => true) = true ∧
    after (exec (.rsite 1 0 1) p2Remap) (fun t => decide (∀ c < p2Remap.canvas.cc.toNat,
      24 ≠ gridIndex p2Remap t.dp.xp.toInt.toNat t.dp.yp.toInt.toNat c)) = true ∧
    after (exec (.rsite 1 0 0) p2Remap) (fun t => decide (t.dp.inb = false)) = true ∧
    after (exec (.fillc 1 1 2) p1Fill) (fun _ => decide (13 ≠ gridIndex p1Fill 1 1 2)) = true ∧
    after (exec (.cmov 1 0 2) p1Crop) (fun _ => decide (4 ≠ outIndex p1Crop 1 0 2)) = true := by
  decide +kernel

/-- The state after program P1's inputs are loaded meets the invariant, and so does the state START leaves. -/
theorem test_inv_p1 : Inv p1 ∧ InputsLoaded p1 ∧ p1.phase = .idle := by
  refine ⟨⟨⟨rfl, rfl, ⟨rfl, rfl, rfl⟩, rfl, rfl⟩, rfl, ?_, ?_, ?_, ?_, ?_, ?_, ?_⟩, fun _ => by decide, rfl⟩ <;> (intro h; cases h)

theorem test_inv_started : Inv { p1 with phase := .ldgeom, status := startStatus } ∧
    InputsLoaded { p1 with phase := .ldgeom, status := startStatus } ∧ { p1 with phase := .ldgeom, status := startStatus }.phase ≠ .idle := by
  refine ⟨⟨⟨rfl, rfl, ⟨rfl, rfl, rfl⟩, rfl, rfl⟩, rfl, ?_, ?_, ?_, ?_, ?_, ?_, ?_⟩, fun _ => by decide, by decide⟩ <;> (intro h; cases h)

/-- A state in the middle of a run that meets the invariant: program P1 before FILL. -/
theorem test_inv_fill : Inv p1Fill ∧ InputsLoaded p1Fill ∧ p1Fill.phase = .fill := by
  refine ⟨⟨?_, rfl, fun _ => rfl, fun _ => ⟨rfl, rfl, rfl⟩, fun _ => test_profileSelected .remap 0b100 .one 3#16 1#16, fun _ => rfl,
    fun _ => test_gridWritten.1, ?_, fun _ => .inl rfl⟩, fun _ => by decide, rfl⟩
  · exact ⟨by decide, by decide, ⟨memWf_buildTable _ _, memWf_buildTable _ _, memWf_buildTable _ _⟩, by decide, by decide⟩
  · intro h
    cases h

theorem test_premises_HostWrites : p1.phase = .idle ∧ p1Emit.phase ≠ .idle ∧ ∃ t, hostMove (.loadRaw 3 7) p1 = .next t :=
  ⟨rfl, by decide, ⟨_, rfl⟩⟩

theorem test_premises_HostReads : p1Done.phase = .done ∧
    (2 < p1Done.canvas.wout.toNat ∧ 1 < p1Done.canvas.hout.toNat ∧ 2 < p1Done.canvas.cc.toNat ∧
      memRead p1Done.grid (gridIndex p1Done 2 1 2) = some 0) ∧
    (1 < p1Done.canvas.outW.toNat ∧ 0 < p1Done.canvas.outH.toNat ∧ memRead p1Done.out (outIndex p1Done 1 0 2) = some 0) ∧
    (0xF < p1Done.metaLen.toNat ∧ memRead p1Done.metaBlob 0xF = some 1) ∧ (15 < p1Done.dumpLen.toNat ∧ memRead p1Done.raw 15 = some 0) ∧
    (p1SizeMismatch.phase = .error ∧ p1SizeMismatch.status.errcode = .sizeMismatch ∧
      CtlReg.nf ∉ [CtlReg.width, .height, .wpr, .fieldBytes]) ∧
    (p1NoMetadata.phase = .error ∧ p1NoMetadata.status.errcode ≠ .sizeMismatch) ∧
    (p1Emit.phase ≠ .done ∧ p1Emit.phase ≠ .error ∧
      CtlReg.width ∉ [CtlReg.cmd, .status, .cfg, .metaLen, .dumpLen, .phase, .gainR, .gainG, .gainB]) := by decide

/-- The premise on the tables: each entry of each is there. -/
theorem test_premises_HostReads_tables (smp : Sample) : (memRead p1Done.lut.red smp.toNat).isSome ∧
    (memRead p1Done.lut.green smp.toNat).isSome ∧ (memRead p1Done.lut.blue smp.toNat).isSome := by
  have h (c : BitVec 2) : (memRead (tableAt p1Done.lut (tableOfChannel c)) smp.toNat).isSome := by
    rw [memRead_table_of_channel (s := p1Done) rfl]
    rfl
  exact ⟨h 0, h 1, h 2⟩

theorem test_premises_RunWithoutMetadata : p1.phase = .idle ∧ { p1 with cfg := 0b000 }.cfg.getLsbD 2 = false ∧
    { p1 with metaLen := 15 }.metaLen.toNat < 16 := by decide

theorem test_run_inputs : p1.phase = .idle ∧ metadataMissing p1 = false ∧ readBe16 0xA p1 = .next 3 ∧ readBe16 0xE p1 = .next 1 :=
  ⟨rfl, rfl, rfl, rfl⟩

theorem test_premises_RunWithWrongLength : (16 * (1#16).toNat * (((3#16).toNat + 2) / 3) = 16 ∧
      { p1 with dumpLen := 48 }.dumpLen.toNat ∉ [16, 2 * 16, 4 * 16, 8 * 16]) ∧ 16 * (5#16).toNat * (((0#16).toNat + 2) / 3) = 0 := by decide

theorem test_premises_RunComputesTheImage : InputsLoaded p1 ∧ 16 * (1#16).toNat * (((3#16).toNat + 2) / 3) ≠ 0 ∧
    p1.dumpLen.toNat = fieldCountNat .one * (16 * (1#16).toNat * (((3#16).toNat + 2) / 3)) :=
  ⟨fun _ => by decide, by decide, by decide⟩

/-- The same dump with bits [31:30] of the red word set. -/
theorem test_premises_OutputIgnoresUnusedBits :
    InputsLoaded { p1 with raw := word 0 0 ++ word 1 0 ++ word 2 0 ++ word 3 0xC00003FF } ∧
    dumpWord (word 0 0 ++ word 1 0 ++ word 2 0 ++ word 3 0xC00003FF) 3 = some 0xC00003FF ∧ dumpWord p1.raw 3 = some 0x000003FF ∧
    (0xC00003FF : PackedWord).toNat % 2 ^ 30 = (0x000003FF : PackedWord).toNat % 2 ^ 30 :=
  ⟨fun _ => by decide, by decide, by decide, by decide⟩

end Sys2Proof.Tests
end

section
/-!
The invariant of the machine (10_state.md, 46_setup_and_output.md rule R192): one lemma for the phases in which a run has established
nothing, one for each stage, and from them that steps, host moves and reset keep it.
-/

namespace Sys2Proof.Machine

/-! ### Reading the invariant in one phase -/

theorem reached_iff (p : Phase) (n : Nat) : reached p n = true ↔ n ≤ (phaseCode p).toNat ∧ (phaseCode p).toNat ≤ 10 := by
  simp only [reached, Bool.and_eq_true, decide_eq_true_eq]

/-- A run that has got to an operation has got to every one before it. -/
theorem reached_mono {p : Phase} {n m : Nat} (h : reached p n = true) (hm : m ≤ n) : reached p m = true := by
  rw [reached_iff] at h ⊢
  exact ⟨Nat.le_trans hm h.1, h.2⟩

/-- While a run is under way STATUS is that of its start (46_setup_and_output.md rule R185). -/
theorem Inv.status_running {s : State} (hi : Inv s) (hp : s.phase ∉ [.idle, .done, .error]) : s.status = startStatus := by
  have h := hi.status
  unfold StatusFits at h
  cases e : s.phase with
  | idle => simp [e] at hp
  | done => simp [e] at hp
  | error => simp [e] at hp
  | _ =>
    rw [e] at h
    exact h

/-- In IDLE, in LDGEOM and in ERROR the invariant asks for the memories and STATUS alone. -/
theorem inv_of_nothing_established {s : State} (hp : s.phase = .idle ∨ s.phase = .ldgeom ∨ s.phase = .error) (hm : MemoriesWf s)
    (hs : StatusFits s) : Inv s := by
  have none : ∀ {n}, 2 ≤ n → reached s.phase n ≠ true := by
    intro n hn h
    have h2 := reached_mono h hn
    rcases hp with e | e | e <;> rw [e] at h2 <;> cases h2
  exact
    { memories := hm
      status := hs
      blob := fun h => absurd h (none (by decide))
      sizes := fun h => absurd h (none (by decide))
      profile := fun h => absurd h (none (by decide))
      tables := fun h => absurd h (none (by decide))
      grid := fun h => absurd h (none (by decide))
      out := fun h => absurd h (none (by decide))
      fill := fun h => by rcases hp with e | e | e <;> rw [e] at h <;> cases h }

/-- Settles O46: in IDLE the invariant asks for no register, and no memory lists anything. -/
theorem resetMeetsInvariant : Obligations.ResetMeetsInvariant :=
  inv_of_nothing_established (.inl rfl) ⟨rfl, rfl, ⟨rfl, rfl, rfl⟩, rfl, rfl⟩ rfl

/-! ### Moves of the host -/

/-- START keeps the invariant: it is accepted in IDLE only, and the run it begins has established nothing. -/
theorem Inv.after_execStart {s t : State} (hi : Inv s) (h : execStart s = .next t) : Inv t := by
  unfold execStart at h
  split at h <;> cases h
  · exact inv_of_nothing_established (.inr (.inl rfl)) hi.memories rfl
  · exact hi

/-- CMD enters the invariant nowhere. -/
theorem Inv.setCmd {s : State} (hi : Inv s) (v : BitVec 8) : Inv { s with cmd := v } where
  memories := hi.memories
  status := hi.status
  blob := hi.blob
  sizes := hi.sizes
  profile := hi.profile
  tables := hi.tables
  grid := hi.grid
  out := hi.out
  fill := hi.fill

theorem Inv.after_hostWriteCmd {s t : State} {v : BitVec 8} (hi : Inv s) (h : hostWriteCmd v s = .next t) : Inv t := by
  unfold hostWriteCmd at h
  split at h
  · exact (hi.setCmd v).after_execStart h
  · cases h
    exact hi

/-- A write of an input happens in IDLE, where the invariant asks for canonical memories alone. -/
theorem Inv.after_hostWriteInput {s t u : State} (hi : Inv s) (h : hostWriteInput s t = .next u) (hp : t.phase = s.phase)
    (hs : t.status = s.status) (hm : MemoriesWf t) : Inv u := by
  unfold hostWriteInput at h
  split at h <;> cases h
  next hidle =>
    refine inv_of_nothing_established (.inl (hp.trans hidle)) hm ?_
    have := hi.status
    unfold StatusFits at this ⊢
    rw [hp, hs]
    exact this

/-- Settles O45, by cases on the move. -/
theorem hostMovesKeepInvariant : Obligations.HostMovesKeepInvariant := by
  intro m s t hi h
  obtain ⟨hmeta, hraw, hrest⟩ := hi.memories
  cases m with
  | writeCmd v => exact hi.after_hostWriteCmd h
  | writeCfg v => exact hi.after_hostWriteInput h rfl rfl hi.memories
  | writeMetaLen v => exact hi.after_hostWriteInput h rfl rfl hi.memories
  | writeDumpLen v => exact hi.after_hostWriteInput h rfl rfl hi.memories
  | writeGains g => exact hi.after_hostWriteInput h rfl rfl hi.memories
  | loadMeta a b => exact hi.after_hostWriteInput h rfl rfl ⟨memWf_memWrite hmeta _ _, hraw, hrest⟩
  | loadRaw a b => exact hi.after_hostWriteInput h rfl rfl ⟨hmeta, memWf_memWrite hraw _ _, hrest⟩
  | reset =>
    cases h
    exact resetMeetsInvariant

/-! ### The setup stages -/

/-- LDGEOM keeps the invariant: it traps, or it has found a usable blob (46_setup_and_output.md rule R186). -/
theorem Inv.after_execLdgeom {s t : State} (hi : Inv s) (hp : s.phase = .ldgeom) (h : execLdgeom s = .next t) : Inv t := by
  have hst : s.status = startStatus := hi.status_running (by simp [hp])
  rcases execLdgeom_eq_next.1 h with ⟨_, rfl⟩ | ⟨hblob, w, h, _, _, rfl⟩
  · exact inv_of_nothing_established (.inr (.inr rfl)) hi.memories (.inl (by rw [hst]; rfl))
  · exact
      { memories := hi.memories
        status := hst
        blob := fun _ => hblob
        sizes := nofun
        profile := nofun
        tables := nofun
        grid := nofun
        out := nofun
        fill := nofun }

/-- CHKSIZE keeps the invariant: it traps, or WPR, FIELD_BYTES and NF are those it inferred (46_setup_and_output.md rule R187). -/
theorem Inv.after_execChksize {s t : State} (hi : Inv s) (hp : s.phase = .chksize) (h : execChksize s = .next t) : Inv t := by
  have hst : s.status = startStatus := hi.status_running (by simp [hp])
  rw [execChksize_eq] at h
  cases h
  split
  next nf hnf =>
    exact
      { memories := hi.memories
        status := hst
        blob := fun _ => hi.blob (by rw [hp]; rfl)
        sizes := fun _ => ⟨toNat_wpr _, by simp only [toNat_wpr, toNat_fieldBytes], hnf⟩
        profile := nofun
        tables := nofun
        grid := nofun
        out := nofun
        fill := nofun }
  next => exact inv_of_nothing_established (.inr (.inr rfl)) hi.memories (.inr (by rw [hst]; rfl))

/-- GSEL keeps the invariant: it selects the profile of NF (42_geometry_profile.md rule R145). -/
theorem Inv.after_execGsel {s t : State} (hi : Inv s) (hp : s.phase = .gsel) (h : execGsel s = .next t) : Inv t := by
  have before : reached s.phase 3 = true := by rw [hp]; rfl
  rw [execGsel_eq] at h
  cases h
  exact
    { memories := hi.memories
      status := hi.status_running (by simp [hp])
      blob := fun _ => hi.blob (reached_mono before (by decide))
      sizes := fun _ => hi.sizes before
      profile := fun _ => ⟨(selectProfile_idem _ _).symm, rfl⟩
      tables := nofun
      grid := nofun
      out := nofun
      fill := nofun }

/-- LUTBLD keeps the invariant: it builds the tables (41_tone_curve.md rule R130). -/
theorem Inv.after_execLutbld {s t : State} (hi : Inv s) (hp : s.phase = .lutbld) (h : execLutbld s = .next t) : Inv t := by
  have before : reached s.phase 4 = true := by rw [hp]; rfl
  obtain ⟨hmeta, hraw, _, hgrid, hout⟩ := hi.memories
  rw [execLutbld_eq] at h
  cases h
  exact
    { memories := ⟨hmeta, hraw, ⟨memWf_buildTable _ _, memWf_buildTable _ _, memWf_buildTable _ _⟩, hgrid, hout⟩
      status := hi.status_running (by simp [hp])
      blob := fun _ => hi.blob (reached_mono before (by decide))
      sizes := fun _ => hi.sizes (reached_mono before (by decide))
      profile := fun _ => hi.profile before
      tables := fun _ => rfl
      grid := nofun
      out := nofun
      fill := nofun }

/-! ### The stages that write GRID -/

/-- A write unwrites nothing. -/
theorem isSome_memRead_memWrite {w : Nat} {m : Mem w} {n : Nat} (h : (memRead m n).isSome) (a : Nat) (v : BitVec w) :
    (memRead (memWrite m a v) n).isSome := by
  rw [memRead_memWrite]
  split
  · rfl
  · exact h

/-- A memory in canonical form whose first `size` values are written. -/
def WrittenTo (size : Nat) (m : Mem 16) : Prop := memWf m = true ∧ ∀ n < size, (memRead m n).isSome

theorem WrittenTo.memWrite {size : Nat} {m : Mem 16} (h : WrittenTo size m) (a : Nat) (v : Cell16) : WrittenTo size (memWrite m a v) :=
  ⟨memWf_memWrite h.1 a v, fun n hn => isSome_memRead_memWrite (h.2 n hn) a v⟩

/-- What the invariant keeps of a stage that writes GRID, the datapath registers and the counters: with GRID canonical and written and the
next phase REMAP, FILL for one or four fields, or CROP, it holds again. -/
theorem Inv.after_gridStage {s : State} (hi : Inv s) (before : reached s.phase 5 = true) (hst : s.status = startStatus) {g : Mem 16}
    (hg : WrittenTo (gridSize s) g) (d : Datapath) (c : Counters) {p : Phase}
    (hp : p = .remap ∨ p = .fill ∧ (s.geom.nf = .one ∨ s.geom.nf = .four) ∨ p = .crop) :
    Inv { s with grid := g, dp := d, ctr := c, phase := p } := by
  obtain ⟨hmeta, hraw, hlut, _, hout⟩ := hi.memories
  exact
    { memories := ⟨hmeta, hraw, hlut, hg.1, hout⟩
      status := by rcases hp with rfl | ⟨rfl, _⟩ | rfl <;> exact hst
      blob := fun _ => hi.blob (reached_mono before (by decide))
      sizes := fun _ => hi.sizes (reached_mono before (by decide))
      profile := fun _ => hi.profile (reached_mono before (by decide))
      tables := fun _ => hi.tables before
      grid := fun _ => hg.2
      out := by rcases hp with rfl | ⟨rfl, _⟩ | rfl <;> exact nofun
      fill := by
        rcases hp with rfl | ⟨rfl, hnf⟩ | rfl
        · exact nofun
        · exact fun _ => hnf
        · exact nofun }

/-- GCLR keeps the invariant: every value of GRID is written (46_setup_and_output.md rule R188). -/
theorem Inv.after_execGclr {s t : State} (hi : Inv s) (hp : s.phase = .gclr) (h : execGclr s = .next t) : Inv t := by
  have hst : s.status = startStatus := hi.status_running (by simp [hp])
  obtain ⟨_, _, _, hgrid, _⟩ := hi.memories
  rw [execGclr_eq] at h
  cases h
  refine hi.after_gridStage (by rw [hp]; rfl) hst ⟨memWf_memFill hgrid _ _, fun n hn => ?_⟩ s.dp _ (.inl rfl)
  rw [memRead_memFill, if_pos hn]
  rfl

/-- A frame over GRID, the datapath and the counters, with the phase that follows. -/
theorem SameButGridDpCtr.setPhase_eq {s u : State} (h : SameButGridDpCtr s u) (p : Phase) :
    u.setPhase p = { s with grid := u.grid, dp := u.dp, ctr := u.ctr, phase := p } := by
  unfold SameButGridDpCtr at h
  rw [h]
  rfl

/-- REMAP keeps the invariant: it writes GRID by writes alone, and goes to FILL for one and four fields (43_field_remapper.md rule R155). -/
theorem Inv.after_execRemap {s t : State} (hi : Inv s) (hp : s.phase = .remap) (h : execRemap s = .next t) : Inv t := by
  have hst : s.status = startStatus := hi.status_running (by simp [hp])
  have hgrid : GridWritten s := hi.grid (by rw [hp]; rfl)
  obtain ⟨_, _, _, hwf, _⟩ := hi.memories
  obtain ⟨u, hu, hframe, rfl⟩ := execRemap_frame h
  have hg : WrittenTo (gridSize s) u.grid :=
    remapLoop_keeps (P := WrittenTo (gridSize s)) (fun _ a v hm => hm.memWrite a v) ⟨hwf, hgrid⟩ hu
  rw [hframe.setPhase_eq]
  refine hi.after_gridStage (by rw [hp]; rfl) hst hg u.dp u.ctr ?_
  cases s.geom.nf <;> simp [afterRemap]

/-- FILL keeps the invariant: it writes GRID by writes alone (44_gap_filler.md rule R170). -/
theorem Inv.after_execFill {s t : State} (hi : Inv s) (hp : s.phase = .fill) (h : execFill s = .next t) : Inv t := by
  have hst : s.status = startStatus := hi.status_running (by simp [hp])
  have hgrid : GridWritten s := hi.grid (by rw [hp]; rfl)
  obtain ⟨_, _, _, hwf, _⟩ := hi.memories
  obtain ⟨u, hu, hframe, rfl⟩ := execFill_frame h
  have hg : WrittenTo (gridSize s) u.grid :=
    fillLoop_keeps (P := WrittenTo (gridSize s)) (fun _ a v hm => hm.memWrite a v) ⟨hwf, hgrid⟩ hu
  rw [hframe.setPhase_eq]
  exact hi.after_gridStage (by rw [hp]; rfl) hst hg u.dp u.ctr (.inr (.inr rfl))

/-! ### The output stages -/

/-- A loop establishes for every member what the member's own pass establishes and no other pass breaks. -/
theorem forEach_establishes {α : Type} {body : α → State → Result State} (Q : α → State → Prop) {l : List α}
    (own : ∀ a ∈ l, ∀ s t, body a s = .next t → Q a t) (others : ∀ a b s t, Q a s → body b s = .next t → Q a t) {s t : State}
    (h : forEach l body s = .next t) : ∀ a ∈ l, Q a t := by
  induction l generalizing s with
  | nil => exact nofun
  | cons b l ih =>
    obtain ⟨u, hu, hl⟩ := andThen_eq_next.1 h
    have hb : Q b t := forEach_keeps (Q b) (fun c _ v w => others b c v w) (own b List.mem_cons_self s u hu) hl
    have hrest := ih (fun c hc => own c (List.mem_cons_of_mem _ hc)) hl
    exact fun a ha => (List.mem_cons.1 ha).elim (fun e => e ▸ hb) (hrest a)

/-- One pass of CROP writes one value of OUT and leaves the canvas (45_cropper.md rule R181). -/
theorem cropValue_writes {v : Nat × Nat × Nat} {s t : State} (h : cropValue v s = .next t) :
    t.canvas = s.canvas ∧ ∃ w, t.out = memWrite s.out
      (outIndex s (BitVec.ofNat 17 v.1).toNat (BitVec.ofNat 18 v.2.1).toNat (BitVec.ofNat 2 v.2.2).toNat) w := by
  unfold cropValue at h
  obtain ⟨_, w, _, rfl⟩ := execCmov_eq_next.1 h
  exact ⟨rfl, w, rfl⟩

/-- CROP's loop leaves every value of OUT written (45_cropper.md rule R183). The channel counter has two bits. -/
theorem cropLoop_writes_out {s t : State} (hcc : s.canvas.cc.toNat ≤ 4) (hframe : SameButOutCtr s t)
    (h : forEach (cropValues s.canvas.outW.toNat s.canvas.outH.toNat s.canvas.cc.toNat) cropValue s = .next t) :
    ∀ n < outSize s, (memRead t.out n).isSome := by
  have hw := s.canvas.outW.isLt
  have hh := s.canvas.outH.isLt
  have written := forEach_establishes (fun v u => (memRead u.out (outIndex u v.1 v.2.1 v.2.2)).isSome)
    (fun ⟨x, y, c⟩ hv u w huw => by
      obtain ⟨hx, hy, hc⟩ := mem_cropValues.1 hv
      obtain ⟨ecan, z, ew⟩ := cropValue_writes huw
      simp only [ew, outIndex, ecan, BitVec.toNat_ofNat, Nat.mod_eq_of_lt (show x < 2 ^ 17 by omega),
        Nat.mod_eq_of_lt (show y < 2 ^ 18 by omega), Nat.mod_eq_of_lt (show c < 2 ^ 2 by omega), memRead_memWrite_self,
        Option.isSome_some])
    (fun v b u w hu huw => by
      obtain ⟨ecan, z, ew⟩ := cropValue_writes huw
      simp only [ew, outIndex, ecan]
      exact isSome_memRead_memWrite hu _ z)
    h
  have hcan : t.canvas = s.canvas := by
    unfold SameButOutCtr at hframe
    rw [hframe]
  intro n hn
  obtain ⟨x, y, c, hx, hy, hc, rfl⟩ := exists_cellIndex_eq hn
  have := written (x, y, c) (mem_cropValues.2 ⟨hx, hy, hc⟩)
  rwa [outIndex, hcan] at this

/-- With the profile selected there are at most four channels (10_state.md rule R29). -/
theorem ProfileSelected.cc_le {s : State} (h : ProfileSelected s) : s.canvas.cc.toNat ≤ 4 := by
  have e : s.canvas.cc = channelCount s.cfg := by rw [h.2]; rfl
  rw [e]
  rcases channelCount_cases s.cfg with e | e <;> rw [e] <;> decide

/-- A frame over OUT and the counters, with the phase that follows. -/
theorem SameButOutCtr.setPhase_eq {s u : State} (h : SameButOutCtr s u) (p : Phase) :
    u.setPhase p = { s with out := u.out, ctr := u.ctr, phase := p } := by
  unfold SameButOutCtr at h
  rw [h]
  rfl

/-- CROP keeps the invariant: every value of OUT is written (45_cropper.md rule R180). -/
theorem Inv.after_execCrop {s t : State} (hi : Inv s) (hp : s.phase = .crop) (h : execCrop s = .next t) : Inv t := by
  have before : reached s.phase 8 = true := by rw [hp]; rfl
  have hst : s.status = startStatus := hi.status_running (by simp [hp])
  have hprof : ProfileSelected s := hi.profile (reached_mono before (by decide))
  obtain ⟨hmeta, hraw, hlut, hgrid, hout⟩ := hi.memories
  obtain ⟨u, hu, hframe, rfl⟩ := execCrop_frame h
  have hwf : memWf u.out = true := cropLoop_keeps (P := fun m => memWf m = true) (fun _ a v hm => memWf_memWrite hm a v) hout hu
  have hwritten := cropLoop_writes_out hprof.cc_le hframe hu
  rw [hframe.setPhase_eq]
  exact
    { memories := ⟨hmeta, hraw, hlut, hgrid, hwf⟩
      status := hst
      blob := fun _ => hi.blob (reached_mono before (by decide))
      sizes := fun _ => hi.sizes (reached_mono before (by decide))
      profile := fun _ => hprof
      tables := fun _ => hi.tables (reached_mono before (by decide))
      grid := fun _ => hi.grid (reached_mono before (by decide))
      out := fun _ => hwritten
      fill := nofun }

/-- EMIT keeps the invariant: it changes the list of presented values, LIN, STATUS and PHASE (46_setup_and_output.md rules R189, R190). -/
theorem Inv.after_execEmit {s t : State} (hi : Inv s) (hp : s.phase = .emit) (h : execEmit s = .next t) : Inv t := by
  have before : reached s.phase 9 = true := by rw [hp]; rfl
  have hst : s.status = startStatus := hi.status_running (by simp [hp])
  rw [execEmit_frame h]
  exact
    { memories := hi.memories
      status := by rw [hst]; rfl
      blob := fun _ => hi.blob (reached_mono before (by decide))
      sizes := fun _ => hi.sizes (reached_mono before (by decide))
      profile := fun _ => hi.profile (reached_mono before (by decide))
      tables := fun _ => hi.tables (reached_mono before (by decide))
      grid := fun _ => hi.grid (reached_mono before (by decide))
      out := fun _ => hi.out before
      fill := nofun }

/-! ### The terminal phases -/

/-- In DONE, with STATUS as it fits, the operation DONE changes nothing (46_setup_and_output.md rule R190). -/
theorem execDone_eq_self {s : State} (hp : s.phase = .done) (hs : StatusFits s) : execDone s = .next s := by
  obtain ⟨phase, status⟩ := s
  cases hp
  cases hs
  rfl

/-- In ERROR, with STATUS as it fits, the operation ERROR changes nothing (60_exceptions.md rule R206). -/
theorem execError_eq_self {s : State} (hp : s.phase = .error) (hs : StatusFits s) : execError s = .next s := by
  obtain ⟨phase, status⟩ := s
  cases hp
  rcases hs with hs | hs <;> cases hs <;> rfl

/-- Settles O44, by cases on PHASE: the operation of each phase keeps the invariant. -/
theorem stepKeepsInvariant : Obligations.StepKeepsInvariant := by
  intro s t hi h
  cases hp : s.phase with
  | idle =>
    by_cases hc : s.cmd = 0x01#8
    · rw [step_start hp hc] at h
      exact hi.after_execStart h
    · rw [step_idle hp hc] at h
      cases h
      exact hi
  | ldgeom => exact hi.after_execLdgeom hp (step_ldgeom hp ▸ h)
  | chksize => exact hi.after_execChksize hp (step_chksize hp ▸ h)
  | gsel => exact hi.after_execGsel hp (step_gsel hp ▸ h)
  | lutbld => exact hi.after_execLutbld hp (step_lutbld hp ▸ h)
  | gclr => exact hi.after_execGclr hp (step_gclr hp ▸ h)
  | remap => exact hi.after_execRemap hp (step_remap hp ▸ h)
  | fill => exact hi.after_execFill hp (step_fill hp ▸ h)
  | crop => exact hi.after_execCrop hp (step_crop hp ▸ h)
  | emit => exact hi.after_execEmit hp (step_emit hp ▸ h)
  | done =>
    rw [step_done hp, execDone_eq_self hp hi.status] at h
    cases h
    exact hi
  | error =>
    rw [step_error hp, execError_eq_self hp hi.status] at h
    cases h
    exact hi

end Sys2Proof.Machine
end

section
/-!
What the operations write: no operation writes an input (10_state.md rules R22, R42), and a primitive writes its datapath registers and
the one cell or value of its rule (rules R37, R38).
-/

namespace Sys2Proof.Machine

open Sys2Proof.Claims

/-! ### Inputs -/

/-- A state that differs in registers, tables, GRID, OUT and presented values only has the same inputs. -/
theorem SameInputs.of_frame {s t : State} {phase : Phase} {status : Status} {geom : Geometry} {prof : ProfileRegs} {canvas : Canvas}
    {lut : Tables} {grid out : Mem 16} {ctr : Counters} {dp : Datapath} {emitted : List Cell16}
    (h : t = { s with
      phase := phase, status := status, geom := geom, prof := prof, canvas := canvas, lut := lut, grid := grid, out := out, ctr := ctr,
      dp := dp, emitted := emitted }) : SameInputs s t := by
  subst h
  exact ⟨rfl, rfl, rfl, rfl, rfl, rfl, rfl⟩

theorem SameInputs.refl (s : State) : SameInputs s s := ⟨rfl, rfl, rfl, rfl, rfl, rfl, rfl⟩

theorem execStart_sameInputs {s t : State} (h : execStart s = .next t) : SameInputs s t := by
  unfold execStart at h
  split at h <;> cases h
  · exact .of_frame rfl
  · exact .refl s

theorem execLdgeom_sameInputs {s t : State} (h : execLdgeom s = .next t) : SameInputs s t := by
  rcases execLdgeom_eq_next.1 h with ⟨_, rfl⟩ | ⟨_, _, _, _, _, rfl⟩
  · exact .of_frame rfl
  · exact .of_frame rfl

theorem execChksize_sameInputs {s t : State} (h : execChksize s = .next t) : SameInputs s t := by
  rw [execChksize_eq] at h
  cases h
  split
  · exact .of_frame rfl
  · exact .of_frame rfl

theorem execRemap_sameInputs {s t : State} (h : execRemap s = .next t) : SameInputs s t := by
  obtain ⟨u, _, hu, rfl⟩ := execRemap_frame h
  exact .of_frame (hu.setPhase_eq _)

theorem execFill_sameInputs {s t : State} (h : execFill s = .next t) : SameInputs s t := by
  obtain ⟨u, _, hu, rfl⟩ := execFill_frame h
  exact .of_frame (hu.setPhase_eq _)

theorem execCrop_sameInputs {s t : State} (h : execCrop s = .next t) : SameInputs s t := by
  obtain ⟨u, _, hu, rfl⟩ := execCrop_frame h
  exact .of_frame (hu.setPhase_eq _)

theorem execCmov_frame {x : BitVec 17} {y : BitVec 18} {c : BitVec 2} {s t : State} (h : execCmov x y c s = .next t) :
    t = { s with out := t.out } := by
  obtain ⟨_, v, _, rfl⟩ := execCmov_eq_next.1 h
  rfl

/-- Settles O43, by cases on the operation: the frame of each leaves the inputs. -/
theorem operationsNeverWriteInputs : Obligations.OperationsNeverWriteInputs := by
  intro i s t h
  cases i with
  | start => exact execStart_sameInputs h
  | idle =>
    cases h
    exact .refl s
  | ldgeom => exact execLdgeom_sameInputs h
  | chksize => exact execChksize_sameInputs h
  | gsel =>
    cases h
    exact .of_frame rfl
  | lutbld =>
    cases h
    exact .of_frame rfl
  | gclr =>
    cases h
    exact .of_frame rfl
  | remap => exact execRemap_sameInputs h
  | fill => exact execFill_sameInputs h
  | crop => exact execCrop_sameInputs h
  | emit => exact .of_frame (execEmit_frame h)
  | done =>
    cases h
    exact .of_frame rfl
  | error =>
    cases h
    exact .of_frame rfl
  | unpk f p y x => exact .of_frame (execUnpk_frame h)
  | xform f y x => exact .of_frame (execXform_frame h)
  | lutrd c smp => exact .of_frame (execLutrd_frame h)
  | rsite f y x => exact .of_frame (execRsite_frame h)
  | avg2 a b =>
    cases h
    exact .of_frame rfl
  | fillc x y c => exact .of_frame (execFillc_frame h)
  | cmov x y c => exact .of_frame (execCmov_frame h)

/-! ### Primitives -/

/-- A frame over GRID and the datapath is one over GRID, the datapath and OUT. -/
theorem SameButGridDp.with_out {s t : State} (h : SameButGridDp s t) :
    t = { s with dp := t.dp, grid := t.grid, out := t.out } ∧ t.out = s.out := by
  unfold SameButGridDp at h
  rw [h]
  exact ⟨rfl, rfl⟩

/-- Settles O42, by cases on the primitive: each writes what the lemma on when it answers next says. -/
theorem primitivesWriteOnlyTheirData : Obligations.PrimitivesWriteOnlyTheirData := by
  intro i s t hi h
  cases i with
  | unpk f p y x =>
    obtain ⟨_, w, _, rfl⟩ := execUnpk_eq_next.1 h
    exact ⟨rfl, rfl, rfl, rfl, fun q hq => Vector.getElem_set_ne p.isLt q.isLt hq.symm⟩
  | xform f y x =>
    obtain ⟨_, rfl⟩ := execXform_eq_next.1 h
    exact ⟨rfl, rfl, rfl, rfl⟩
  | lutrd c smp =>
    obtain ⟨v, _, rfl⟩ := execLutrd_eq_next.1 h
    exact ⟨rfl, rfl, rfl, rfl, fun d hd => Vector.getElem_set_ne c.isLt d.isLt hd.symm⟩
  | rsite f y x =>
    obtain ⟨hframe, hout⟩ := (execRsite_frame h).with_out
    exact ⟨hframe, hout, execRsite_stores h⟩
  | avg2 a b =>
    cases h
    exact ⟨rfl, rfl, rfl, rfl⟩
  | fillc x y c =>
    obtain ⟨_, a, b, _, _, rfl⟩ := execFillc_eq_next.1 h
    exact ⟨rfl, rfl, rfl, fun n hn => memRead_memWrite_of_ne _ _ hn.symm⟩
  | cmov x y c =>
    obtain ⟨_, v, _, rfl⟩ := execCmov_eq_next.1 h
    exact ⟨rfl, rfl, rfl, fun n hn => memRead_memWrite_of_ne _ _ hn.symm⟩
  | _ => cases hi

end Sys2Proof.Machine
end

section
/-!
The loop counters of the stage operations (10_state.md rule R36; log 10): what one pass does to them, and that a loop leaves those of its
last pass.
-/

namespace Sys2Proof.Machine

/-- A loop leaves the counters of its last pass, when every pass takes the counters to `pass canvas member counters` and the last pass
overwrites what the passes before it wrote. -/
theorem forEach_counters {α : Type} {body : α → State → Result State} {pass : Canvas → α → Counters → Counters}
    (hbody : ∀ a u v, body a u = .next v → v.canvas = u.canvas ∧ v.ctr = pass u.canvas a u.ctr) {a : α}
    {s t : State} (last : ∀ b c, pass s.canvas a (pass s.canvas b c) = pass s.canvas a c) {l : List α}
    (h : forEach (l ++ [a]) body s = .next t) : t.canvas = s.canvas ∧ t.ctr = pass s.canvas a s.ctr := by
  obtain ⟨u, hu, ht⟩ := forEach_concat_eq_next.1 h
  obtain ⟨ucan, uctr⟩ := forEach_keeps (fun v => v.canvas = s.canvas ∧ pass s.canvas a v.ctr = pass s.canvas a s.ctr)
    (fun b _ v w ⟨hcan, hctr⟩ hw => by
      obtain ⟨wcan, wctr⟩ := hbody b v w hw
      exact ⟨wcan.trans hcan, by rw [wctr, hcan, last, hctr]⟩)
    (s := s) ⟨rfl, rfl⟩ hu
  obtain ⟨tcan, tctr⟩ := hbody a u t ht
  exact ⟨tcan.trans ucan, by rw [tctr, ucan, uctr]⟩

/-! ### One pass -/

/-- The counters after REMAP has visited a site (43_field_remapper.md rule R155). -/
def remapPass (_ : Canvas) (site : Nat × Nat × Nat) (c : Counters) : Counters :=
  { c with fi := BitVec.ofNat 4 site.1, sy := BitVec.ofNat 16 site.2.1, sx := BitVec.ofNat 16 site.2.2 }

/-- The counters after FILL has filled a channel (44_gap_filler.md rule R170). -/
def fillChannelPass (_ : Canvas) (channel : Nat) (c : Counters) : Counters := { c with fc := BitVec.ofNat 2 channel }

/-- The counters after FILL has visited a cell: FC moves at a gap cell, when there is a channel (44_gap_filler.md rule R170). -/
def fillVisitPass (can : Canvas) (cell : Nat × Nat) (c : Counters) : Counters :=
  { c with
    fx := BitVec.ofNat 17 cell.1
    fy := BitVec.ofNat 18 cell.2
    fc := if (cell.1 + cell.2) % 2 = 0 ∧ can.cc.toNat ≠ 0 then BitVec.ofNat 2 (can.cc.toNat - 1) else c.fc }

/-- The counters after CROP has moved a value (45_cropper.md rule R180). -/
def cropPass (_ : Canvas) (v : Nat × Nat × Nat) (c : Counters) : Counters :=
  { c with cx := BitVec.ofNat 17 v.1, cy := BitVec.ofNat 18 v.2.1, cch := BitVec.ofNat 2 v.2.2 }

/-- The counters after EMIT has presented a value (46_setup_and_output.md rule R189). -/
def emitPass (_ : Canvas) (n : Nat) (c : Counters) : Counters := { c with lin := BitVec.ofNat 38 n }

/-! Each pass leaves the canvas as it was and takes the counters where its definition above says. -/

theorem execRsite_ctr {i : BitVec 4} {y x : BitVec 16} {s t : State} (h : execRsite i y x s = .next t) :
    t.canvas = s.canvas ∧ t.ctr = s.ctr := by
  have hf := execRsite_frame h
  unfold SameButGridDp at hf
  rw [hf]
  exact ⟨rfl, rfl⟩

theorem remapSite_ctr {site : Nat × Nat × Nat} {s t : State} (h : remapSite site s = .next t) :
    t.canvas = s.canvas ∧ t.ctr = remapPass s.canvas site s.ctr := by
  unfold remapSite at h
  exact execRsite_ctr h

theorem fillChannel_ctr {c : Nat} {s t : State} (h : fillChannel c s = .next t) :
    t.canvas = s.canvas ∧ t.ctr = fillChannelPass s.canvas c s.ctr := by
  unfold fillChannel at h
  obtain ⟨_, a, b, _, _, rfl⟩ := execFillc_eq_next.1 h
  exact ⟨rfl, rfl⟩

theorem fillVisit_ctr {cell : Nat × Nat} {s t : State} (h : fillVisit cell s = .next t) :
    t.canvas = s.canvas ∧ t.ctr = fillVisitPass s.canvas cell s.ctr := by
  unfold fillVisit at h
  dsimp only at h
  split at h
  next gap =>
    rcases Nat.eq_zero_or_eq_succ_pred s.canvas.cc.toNat with hcc | hcc
    · rw [hcc] at h
      cases h
      simp [fillVisitPass, hcc]
    · rw [hcc, List.range_succ] at h
      obtain ⟨hcan, hctr⟩ := forEach_counters (pass := fillChannelPass) (fun _ _ _ => fillChannel_ctr) (fun _ _ => rfl) h
      refine ⟨hcan, hctr.trans ?_⟩
      rw [fillVisitPass, if_pos ⟨gap, by omega⟩]
      rfl
  next gap =>
    cases h
    simp [fillVisitPass, gap]

theorem cropValue_ctr {v : Nat × Nat × Nat} {s t : State} (h : cropValue v s = .next t) :
    t.canvas = s.canvas ∧ t.ctr = cropPass s.canvas v s.ctr := by
  unfold cropValue at h
  obtain ⟨_, w, _, rfl⟩ := execCmov_eq_next.1 h
  exact ⟨rfl, rfl⟩

theorem presentValue_ctr {n : Nat} {s t : State} (h : presentValue n s = .next t) :
    t.canvas = s.canvas ∧ t.ctr = emitPass s.canvas n s.ctr := by
  unfold presentValue at h
  obtain ⟨v, _, h⟩ := andThen_eq_next.1 h
  cases h
  exact ⟨rfl, rfl⟩

/-! ### The stages -/

/-- The number of the last of `n` passes, in a counter that holds it. -/
theorem toNat_last_add_one {w n : Nat} (h0 : 0 < n) (h : n ≤ 2 ^ w) : (BitVec.ofNat w (n - 1)).toNat + 1 = n := by
  rw [BitVec.toNat_ofNat, Nat.mod_eq_of_lt (by omega)]
  omega

theorem execRemap_ctr {s t : State} (h : execRemap s = .next t) :
    (s.geom.height.toNat = 0 ∨ s.geom.width.toNat = 0 → t.ctr = s.ctr) ∧
    (0 < s.geom.height.toNat → 0 < s.geom.width.toNat → t.ctr =
      remapPass s.canvas (fieldCountNat s.geom.nf - 1, s.geom.height.toNat - 1, s.geom.width.toNat - 1) s.ctr) := by
  obtain ⟨u, hu, _, rfl⟩ := execRemap_frame h
  constructor
  · intro h0
    have : remapSites (fieldCountNat s.geom.nf) s.geom.height.toNat s.geom.width.toNat = [] := by
      rcases h0 with h0 | h0 <;> simp [remapSites, h0]
    rw [this] at hu
    cases hu
    rfl
  · intro hh hw
    obtain ⟨l, hl⟩ := remapSites_eq_concat (nf := fieldCountNat s.geom.nf) (by cases s.geom.nf <;> decide) hh hw
    rw [hl] at hu
    exact (forEach_counters (pass := remapPass) (fun _ _ _ => remapSite_ctr) (fun _ _ => rfl) hu).2

theorem execFill_ctr {s t : State} (h : execFill s = .next t) :
    (s.canvas.wout.toNat ≤ 1 ∨ s.canvas.hout.toNat ≤ 1 → t.ctr = s.ctr) ∧
    (1 < s.canvas.wout.toNat → 1 < s.canvas.hout.toNat → t.ctr = fillVisitPass s.canvas (1, 1) s.ctr) := by
  obtain ⟨u, hu, _, rfl⟩ := execFill_frame h
  constructor
  · intro h0
    have : fillVisits s.canvas.wout.toNat s.canvas.hout.toNat = [] := by
      rcases h0 with h0 | h0 <;> simp [fillVisits, Nat.sub_eq_zero_of_le h0, downTo1]
    rw [this] at hu
    cases hu
    rfl
  · intro hw hh
    obtain ⟨l, hl⟩ := fillVisits_eq_concat hw hh
    rw [hl] at hu
    refine (forEach_counters (pass := fillVisitPass) (fun _ _ _ => fillVisit_ctr) (fun b c => ?_) hu).2
    by_cases hcc : s.canvas.cc.toNat = 0 <;> simp [fillVisitPass, hcc]

theorem execCrop_ctr {s t : State} (h : execCrop s = .next t) :
    (s.canvas.outW = 0 ∨ s.canvas.outH = 0 ∨ s.canvas.cc = 0 → t.ctr = s.ctr) ∧
    (0 < s.canvas.outW.toNat → 0 < s.canvas.outH.toNat → 0 < s.canvas.cc.toNat → t.ctr =
      cropPass s.canvas (s.canvas.outW.toNat - 1, s.canvas.outH.toNat - 1, s.canvas.cc.toNat - 1) s.ctr) := by
  obtain ⟨u, hu, _, rfl⟩ := execCrop_frame h
  constructor
  · intro h0
    have : cropValues s.canvas.outW.toNat s.canvas.outH.toNat s.canvas.cc.toNat = [] := by
      rcases h0 with h0 | h0 | h0 <;> simp [cropValues, h0]
    rw [this] at hu
    cases hu
    rfl
  · intro hw hh hc
    obtain ⟨l, hl⟩ := cropValues_eq_concat hw hh hc
    rw [hl] at hu
    exact (forEach_counters (pass := cropPass) (fun _ _ _ => cropValue_ctr) (fun _ _ => rfl) hu).2

theorem execEmit_ctr {s t : State} (h : execEmit s = .next t) : t.ctr = afterLinear (outSize s) s.ctr := by
  unfold execEmit at h
  obtain ⟨u, hu, h⟩ := andThen_eq_next.1 h
  cases h
  show u.ctr = _
  rcases Nat.eq_zero_or_eq_succ_pred (outSize s) with h0 | hn
  · rw [h0] at hu ⊢
    cases hu
    rfl
  · rw [hn, List.range_succ] at hu
    rw [afterLinear, if_neg (by omega)]
    exact (forEach_counters (pass := emitPass) (fun _ _ _ => presentValue_ctr) (fun _ _ => rfl) hu).2

/-- What the linear index counter holds after a loop over `n` values. -/
theorem afterLinear_spec (n : Nat) (c : Counters) :
    (n = 0 → afterLinear n c = c) ∧
    (0 < n → n ≤ 2 ^ 38 → afterLinear n c = { c with lin := (afterLinear n c).lin } ∧ (afterLinear n c).lin.toNat + 1 = n) := by
  constructor
  · intro h
    exact if_pos h
  · intro h0 hn
    rw [afterLinear, if_neg (by omega)]
    exact ⟨rfl, toNat_last_add_one h0 hn⟩

/-- Settles O41: each stage leaves the counters of its last pass, and these hold the numbers of that pass. -/
theorem loopCountersHoldTheLastPass : Obligations.LoopCountersHoldTheLastPass := by
  refine ⟨fun s t h => ?_, fun s t h => ?_, fun s t h => ?_, fun s t h => ?_, fun s t h => ?_, fun s t h => ?_⟩
  · cases h
    rfl
  · cases h
    exact afterLinear_spec (gridSize s) s.ctr
  · obtain ⟨hnone, hlast⟩ := execRemap_ctr h
    refine ⟨hnone, fun hh hw => ?_⟩
    rw [hlast hh hw]
    have hy := s.geom.height.isLt
    have hx := s.geom.width.isLt
    exact ⟨rfl, by cases s.geom.nf <;> rfl, toNat_last_add_one hh (by omega), toNat_last_add_one hw (by omega)⟩
  · obtain ⟨hnone, hlast⟩ := execFill_ctr h
    refine ⟨hnone, fun hw hh => ?_⟩
    rw [hlast hw hh]
    refine ⟨rfl, fun hcc => by simp [fillVisitPass, hcc], fun h0 h4 => ?_⟩
    rw [fillVisitPass, if_pos ⟨rfl, by omega⟩]
    exact toNat_last_add_one h0 h4
  · obtain ⟨hnone, hlast⟩ := execCrop_ctr h
    refine ⟨hnone, fun hw hh hc => ?_⟩
    rw [hlast hw hh hc]
    have hy := s.canvas.outH.isLt
    have hx := s.canvas.outW.isLt
    exact ⟨rfl, toNat_last_add_one hh (by omega), toNat_last_add_one hw (by omega), fun h4 => toNat_last_add_one hc h4⟩
  · rw [execEmit_ctr h]
    exact afterLinear_spec (outSize s) s.ctr

end Sys2Proof.Machine
end

section
/-!
The host's side of 10_state.md: what it may write and read, and what reset leaves (rules R30, R41, R42).
-/

namespace Sys2Proof.Machine

/-! ### Writes of the host -/

theorem hostWriteInput_idle {s : State} (h : s.phase = .idle) (t : State) : hostWriteInput s t = .next t := if_pos h

theorem hostWriteInput_denied {s : State} (h : s.phase ≠ .idle) (t : State) : hostWriteInput s t = .refused .hostMoveDenied := if_neg h

/-- What every location of a memory holds after the host has loaded one. -/
theorem memRead_loaded {w : Nat} (m : Mem w) (a : Nat) (v : BitVec w) (n : Nat) :
    memRead (memWrite m a v) n = if n = a then some v else memRead m n := by
  rw [memRead_memWrite]
  simp only [eq_comm]

/-- Settles O48: every input goes through `hostWriteInput`, which looks at PHASE alone. -/
theorem hostWritesInputsInIdleOnly : Obligations.HostWritesInputsInIdleOnly := by
  intro s
  constructor
  · intro h
    refine ⟨fun v => hostWriteInput_idle h _, fun v => hostWriteInput_idle h _, fun v => hostWriteInput_idle h _,
      fun g => hostWriteInput_idle h _, fun a b => ?_, fun a b => ?_⟩
    · exact ⟨_, hostWriteInput_idle h _, rfl, memRead_loaded _ _ _⟩
    · exact ⟨_, hostWriteInput_idle h _, rfl, memRead_loaded _ _ _⟩
  · intro h
    exact ⟨fun v => hostWriteInput_denied h _, fun v => hostWriteInput_denied h _, fun v => hostWriteInput_denied h _,
      fun g => hostWriteInput_denied h _, fun a b => hostWriteInput_denied h _, fun a b => hostWriteInput_denied h _⟩

/-! ### Reads of the host -/

/-- The registers readable at any time, as a list (10_state.md rules R30, R42; log 16). -/
theorem readableAlways_iff (r : CtlReg) :
    readableAlways r = true ↔ r ∈ [.cmd, .status, .cfg, .metaLen, .dumpLen, .phase, .gainR, .gainG, .gainB] := by
  cases r <;> simp [readableAlways]

/-- The registers written before a SizeMismatch, as a list (60_exceptions.md rule R200). -/
theorem writtenBeforeSizeMismatch_iff (r : CtlReg) :
    writtenBeforeSizeMismatch r = true ↔ r ∈ [.width, .height, .wpr, .fieldBytes] := by
  cases r <;> simp [writtenBeforeSizeMismatch]

/-- When the host may read a control register (10_state.md rule R42). -/
theorem mayReadCtl_iff (s : State) (r : CtlReg) : mayReadCtl s r = true ↔
    readableAlways r = true ∨ s.phase = .done ∨
      s.phase = .error ∧ s.status.errcode = .sizeMismatch ∧ writtenBeforeSizeMismatch r = true := by
  simp only [mayReadCtl, Bool.or_eq_true, Bool.and_eq_true, decide_eq_true_eq, or_assoc, and_assoc]

theorem hostReadCtl_allowed {s : State} {r : CtlReg} (h : mayReadCtl s r = true) : hostReadCtl r s = .next (ctlValue s r) := if_pos h

theorem hostReadCtl_always {r : CtlReg} (h : readableAlways r = true) (s : State) : hostReadCtl r s = .next (ctlValue s r) :=
  hostReadCtl_allowed ((mayReadCtl_iff s r).2 (.inl h))

theorem hostReadCtl_done {s : State} (h : s.phase = .done) (r : CtlReg) : hostReadCtl r s = .next (ctlValue s r) :=
  hostReadCtl_allowed ((mayReadCtl_iff s r).2 (.inr (.inl h)))

/-- The registers that CHKSIZE's check leaves written are read at DONE and after a SizeMismatch (60_exceptions.md rule R200). -/
theorem hostReadCtl_written {s : State} (h : s.phase = .done ∨ s.phase = .error ∧ s.status.errcode = .sizeMismatch) {r : CtlReg}
    (hr : writtenBeforeSizeMismatch r = true) : hostReadCtl r s = .next (ctlValue s r) :=
  hostReadCtl_allowed ((mayReadCtl_iff s r).2 (.inr (h.imp_right fun e => ⟨e.1, e.2, hr⟩)))

theorem hostReadCtl_denied {s : State} {r : CtlReg} (h : mayReadCtl s r ≠ true) : hostReadCtl r s = .refused .hostReadDenied := if_neg h

theorem hostReadLut_done {s : State} (h : s.phase = .done) {t : Fin 3} {smp : Sample} {v : Cell16}
    (hv : memRead (tableAt s.lut t.val) smp.toNat = some v) : hostReadLut t smp s = .next v :=
  (if_pos h).trans (readLut_eq_next.2 hv)

theorem hostReadGrid_done {s : State} (h : s.phase = .done) {x y c : Nat} {v : Cell16} (hx : x < s.canvas.wout.toNat)
    (hy : y < s.canvas.hout.toNat) (hc : c < s.canvas.cc.toNat) (hv : memRead s.grid (gridIndex s x y c) = some v) :
    hostReadGrid x y c s = .next v :=
  (if_pos h).trans (readGrid_eq_next.2 ⟨by simp [gridHas, hx, hy, hc], hv⟩)

theorem hostReadOut_done {s : State} (h : s.phase = .done) {x y c : Nat} {v : Cell16} (hx : x < s.canvas.outW.toNat)
    (hy : y < s.canvas.outH.toNat) (hc : c < s.canvas.cc.toNat) (hv : memRead s.out (outIndex s x y c) = some v) :
    hostReadOut x y c s = .next v :=
  (if_pos h).trans (readOut_eq_next.2 ⟨by simp [outHas, hx, hy, hc], hv⟩)

theorem hostReadMeta_done {s : State} (h : s.phase = .done) {a : Nat} {b : Byte} (ha : a < s.metaLen.toNat)
    (hb : memRead s.metaBlob a = some b) : hostReadMeta a s = .next b :=
  (if_pos h).trans (readMeta_eq_next.2 ⟨ha, hb⟩)

theorem hostReadRaw_done {s : State} (h : s.phase = .done) {a : Nat} {b : Byte} (ha : a < s.dumpLen.toNat)
    (hb : memRead s.raw a = some b) : hostReadRaw a s = .next b :=
  (if_pos h).trans (readRaw_eq_next.2 ⟨ha, hb⟩)

/-- Settles O49, from when `mayReadCtl` holds and from what each read of a memory answers at DONE. -/
theorem hostReadsFollowPhase : Obligations.HostReadsFollowPhase := by
  refine ⟨fun s => ?_, fun s h => ?_, fun s h => ?_, fun s r hd ha hs => ?_, fun s h => ?_⟩
  · exact ⟨hostReadCtl_always rfl s, hostReadCtl_always rfl s, hostReadCtl_always rfl s, hostReadCtl_always rfl s,
      hostReadCtl_always rfl s, hostReadCtl_always rfl s, hostReadCtl_always rfl s, hostReadCtl_always rfl s,
      hostReadCtl_always rfl s⟩
  · exact ⟨hostReadCtl_written h rfl, hostReadCtl_written h rfl, hostReadCtl_written h rfl, hostReadCtl_written h rfl⟩
  · have reg := hostReadCtl_done h
    exact ⟨reg .nf, reg .scale, reg .xcrop, reg .ycrop, reg .xoff, reg .yoff, fun k => ⟨reg (.xshift k), reg (.yshift k)⟩,
      reg .wout, reg .hout, reg .cc, reg .outW, reg .outH,
      fun _ _ => ⟨hostReadLut_done h (t := 0), hostReadLut_done h (t := 1), hostReadLut_done h (t := 2)⟩,
      fun _ _ _ _ => hostReadGrid_done h, fun _ _ _ _ => hostReadOut_done h,
      fun _ _ => hostReadMeta_done h, fun _ _ => hostReadRaw_done h⟩
  · refine hostReadCtl_denied fun hmay => ?_
    rw [mayReadCtl_iff, readableAlways_iff, writtenBeforeSizeMismatch_iff] at hmay
    rcases hmay with h | h | h
    · exact ha h
    · exact hd h
    · exact hs h
  · exact ⟨fun _ _ => if_neg h, fun _ _ _ => if_neg h, fun _ _ _ => if_neg h, fun _ => if_neg h, fun _ => if_neg h⟩

end Sys2Proof.Machine
end

section
/-!
PROOF of O8: what `Be16` and `RawWord` answer on loaded bytes, and the number each assembles.
-/

namespace Sys2Proof.Machine

/-- On two loaded bytes within META_LEN `Be16` answers their big-endian pair (20_memory.md rule R61). -/
theorem readBe16_of_bytes {s : State} {a : Nat} {hi lo : Byte} (ha : a + 1 < s.metaLen.toNat)
    (h0 : memRead s.metaBlob a = some hi) (h1 : memRead s.metaBlob (a + 1) = some lo) :
    readBe16 a s = .next (bigEndian hi lo) :=
  have hhi : readMeta a s = .next hi := readMeta_eq_next.2 ⟨Nat.lt_of_succ_lt ha, h0⟩
  have hlo : readMeta (a + 1) s = .next lo := readMeta_eq_next.2 ⟨ha, h1⟩
  readBe16_eq_next.2 ⟨hi, lo, hhi, hlo, rfl⟩

/-- Settles O8: each read answers the assembled word, whose number the lemmas on the two byte orders give. -/
theorem wordsAssembleInTheirByteOrder : Obligations.WordsAssembleInTheirByteOrder := by
  refine ⟨fun s a hi lo ha h0 h1 => ?be16, fun s k b0 b1 b2 b3 hk h0 h1 h2 h3 => ?rawWord⟩
  case be16 => exact ⟨bigEndian hi lo, readBe16_of_bytes ha h0 h1, toNat_bigEndian hi lo⟩
  case rawWord =>
    have hread : readRawWord k s = .next (littleEndian b0 b1 b2 b3) :=
      readRawWord_eq_next.2 ⟨hk, b0, b1, b2, b3, h0, h1, h2, h3, rfl⟩
    exact ⟨littleEndian b0 b1 b2 b3, hread, toNat_littleEndian b0 b1 b2 b3⟩

end Sys2Proof.Machine
end

section
/-!
Decoding and encoding (30_encoding.md rules R101, R103, R104, R105): the stage operation of each phase, and which words of each format
decode. From them: the two directions of the round trip, the printed and the reserved codes, and what a step fetches.
-/

namespace Sys2Proof.Machine

/-! ### The round trip of an operation -/

/-- Settles O1, by cases on the operation: the family `RoundTrip` holds a lemma for each. -/
theorem decodeInvertsEncode : Obligations.DecodeInvertsEncode := by
  intro i
  cases i with
  | start => exact Laws.RoundTrip.start
  | idle => exact Laws.RoundTrip.idle
  | ldgeom => exact Laws.RoundTrip.ldgeom
  | chksize => exact Laws.RoundTrip.chksize
  | gsel => exact Laws.RoundTrip.gsel
  | lutbld => exact Laws.RoundTrip.lutbld
  | gclr => exact Laws.RoundTrip.gclr
  | remap => exact Laws.RoundTrip.remap
  | fill => exact Laws.RoundTrip.fill
  | crop => exact Laws.RoundTrip.crop
  | emit => exact Laws.RoundTrip.emit
  | done => exact Laws.RoundTrip.done
  | error => exact Laws.RoundTrip.error
  | unpk i p y x => exact Laws.RoundTrip.unpk i p y x
  | xform i y x => exact Laws.RoundTrip.xform i y x
  | lutrd c smp => exact Laws.RoundTrip.lutrd c smp
  | rsite i y x => exact Laws.RoundTrip.rsite i y x
  | avg2 a b => exact Laws.RoundTrip.avg2 a b
  | fillc x y c => exact Laws.RoundTrip.fillc x y c
  | cmov x y c => exact Laws.RoundTrip.cmov x y c

/-- The encoding of a well-formed operation decodes to it, whatever form the word is written in. -/
theorem decode_of_encode {i : Instr} {w : CodeWord} (hw : encode i = w) (hi : i.wellFormed = true) : decode w = .ok i :=
  hw ▸ decodeInvertsEncode i hi

/-- Settles O3: each printed word is the encoding of its operation. -/
theorem printedCodesDecode : Obligations.PrintedCodesDecode :=
  ⟨decode_of_encode rfl rfl, decode_of_encode rfl rfl, decode_of_encode rfl rfl, decode_of_encode rfl rfl, decode_of_encode rfl rfl,
    decode_of_encode rfl rfl, decode_of_encode rfl rfl, decode_of_encode rfl rfl, decode_of_encode rfl rfl, decode_of_encode rfl rfl,
    decode_of_encode rfl rfl, decode_of_encode rfl rfl, decode_of_encode rfl rfl, decode_of_encode rfl rfl, decode_of_encode rfl rfl,
    decode_of_encode rfl rfl, decode_of_encode rfl rfl, decode_of_encode rfl rfl, decode_of_encode rfl rfl, decode_of_encode rfl rfl⟩

/-! ### Format C -/

theorem decodeCommand_eq_ok {v : BitVec 8} {i : Instr} : decodeCommand v = .ok i ↔ v = 0x01#8 ∧ i = .start := by
  unfold decodeCommand
  split
  · next h => exact ⟨fun e => by cases e; exact ⟨h, rfl⟩, fun e => by rw [e.2]⟩
  · next h => exact ⟨fun e => (by cases e), fun e => absurd e.1 h⟩

theorem decodeCommand_reserved {v : BitVec 8} (h : v ≠ 0x01#8) : decodeCommand v = .error .reservedCommand := if_neg h

/-! ### Format S -/

/-- The stage operation whose code is the code of PHASE (30_encoding.md rule R103). -/
def stageInstr : Phase → Instr
  | .idle => .idle
  | .ldgeom => .ldgeom
  | .chksize => .chksize
  | .gsel => .gsel
  | .lutbld => .lutbld
  | .gclr => .gclr
  | .remap => .remap
  | .fill => .fill
  | .crop => .crop
  | .emit => .emit
  | .done => .done
  | .error => .error

theorem encode_stageInstr (p : Phase) : encode (stageInstr p) = .stage (phaseCode p) := by
  cases p <;> rfl

theorem wellFormed_stageInstr (p : Phase) : (stageInstr p).wellFormed = true := by
  cases p <;> rfl

theorem decodeStage_phaseCode (p : Phase) : decodeStage (phaseCode p) = .ok (stageInstr p) :=
  decode_of_encode (encode_stageInstr p) (wellFormed_stageInstr p)

/-- The codes below 12 are the codes of the phases. -/
theorem exists_phaseCode_eq {c : BitVec 4} (h : c.toNat < 12) : ∃ p, phaseCode p = c := by
  have inverse : (phaseOfCode c).map phaseCode = some c := by
    revert c
    decide
  obtain ⟨p, -, hp⟩ := Option.map_eq_some_iff.1 inverse
  exact ⟨p, hp⟩

theorem decodeStage_reserved {c : BitVec 4} (h : 12 ≤ c.toNat) : decodeStage c = .error .reservedStage := by
  revert c
  decide

theorem decodeStage_eq_ok {c : BitVec 4} {i : Instr} : decodeStage c = .ok i ↔ ∃ p, c = phaseCode p ∧ i = stageInstr p := by
  constructor
  · intro h
    rcases Nat.lt_or_ge c.toNat 12 with hc | hc
    · obtain ⟨p, rfl⟩ := exists_phaseCode_eq hc
      rw [decodeStage_phaseCode] at h
      cases h
      exact ⟨p, rfl, rfl⟩
    · rw [decodeStage_reserved hc] at h
      cases h
  · rintro ⟨p, rfl, rfl⟩
    exact decodeStage_phaseCode p

/-! ### Format P -/

theorem encode_of_unpkOfLanes {i p y x : BitVec 18} {j : Instr} (h : unpkOfLanes i p y x = some j) :
    encode j = .primitive 1#4 [i, p, y, x] := by
  unfold unpkOfLanes at h
  split at h <;> cases h
  next hi hp hy hx =>
    rw [fromLane_eq_some (by decide)] at hi hp hy hx
    rw [hi, hp, hy, hx, encode]

theorem encode_of_xformOfLanes {i y x : BitVec 18} {j : Instr} (h : xformOfLanes i y x = some j) :
    encode j = .primitive 2#4 [i, y, x] := by
  unfold xformOfLanes at h
  split at h <;> cases h
  next hi hy hx =>
    rw [fromLane_eq_some (by decide)] at hi hy hx
    rw [hi, hy, hx, encode]

theorem encode_of_lutrdOfLanes {c s : BitVec 18} {j : Instr} (h : lutrdOfLanes c s = some j) :
    encode j = .primitive 3#4 [c, s] := by
  unfold lutrdOfLanes at h
  split at h <;> cases h
  next hc hs =>
    rw [fromLane_eq_some (by decide)] at hc hs
    rw [hc, hs, encode]

theorem encode_of_rsiteOfLanes {i y x : BitVec 18} {j : Instr} (h : rsiteOfLanes i y x = some j) :
    encode j = .primitive 4#4 [i, y, x] := by
  unfold rsiteOfLanes at h
  split at h <;> cases h
  next hi hy hx =>
    rw [fromLane_eq_some (by decide)] at hi hy hx
    rw [hi, hy, hx, encode]

theorem encode_of_avg2OfLanes {a b : BitVec 18} {j : Instr} (h : avg2OfLanes a b = some j) :
    encode j = .primitive 5#4 [a, b] := by
  unfold avg2OfLanes at h
  split at h <;> cases h
  next ha hb =>
    rw [fromLane_eq_some (by decide)] at ha hb
    rw [ha, hb, encode]

theorem encode_of_fillcOfLanes {x y c : BitVec 18} {j : Instr} (h : fillcOfLanes x y c = some j) :
    encode j = .primitive 6#4 [x, y, c] := by
  unfold fillcOfLanes at h
  split at h <;> cases h
  next hx hc =>
    rw [fromLane_eq_some (by decide)] at hx hc
    rw [hx, hc, encode]

theorem encode_of_cmovOfLanes {x y c : BitVec 18} {j : Instr} (h : cmovOfLanes x y c = some j) :
    encode j = .primitive 7#4 [x, y, c] := by
  unfold cmovOfLanes at h
  split at h <;> cases h
  next hx hc =>
    rw [fromLane_eq_some (by decide)] at hx hc
    rw [hx, hc, encode]

/-- An accepted operation is well formed, and its encoding is what the reading of its lanes says. -/
theorem encode_of_checked {o : Option Instr} {i : Instr} {c d : BitVec 4} {lanes : List (BitVec 18)}
    (ho : ∀ {j}, o = some j → encode j = .primitive d lanes) (hc : c.toNat = d.toNat) (h : checked o = .ok i) :
    encode i = .primitive c lanes ∧ i.wellFormed = true := by
  obtain ⟨hsome, hwf⟩ := checked_eq_ok.1 h
  exact ⟨BitVec.eq_of_toNat_eq hc ▸ ho hsome, hwf⟩

/-- A word of format P that decodes is the encoding of what it decodes to, which is well formed. -/
theorem encode_of_decodePrimitive {c : BitVec 4} {lanes : List (BitVec 18)} {i : Instr} (h : decodePrimitive c lanes = .ok i) :
    encode i = .primitive c lanes ∧ i.wellFormed = true := by
  unfold decodePrimitive at h
  split at h
  next hc => exact encode_of_checked encode_of_unpkOfLanes hc h
  next hc => exact encode_of_checked encode_of_xformOfLanes hc h
  next hc => exact encode_of_checked encode_of_lutrdOfLanes hc h
  next hc => exact encode_of_checked encode_of_rsiteOfLanes hc h
  next hc => exact encode_of_checked encode_of_avg2OfLanes hc h
  next hc => exact encode_of_checked encode_of_fillcOfLanes hc h
  next hc => exact encode_of_checked encode_of_cmovOfLanes hc h
  next => split at h <;> cases h

theorem decodePrimitive_reserved {c : BitVec 4} (lanes : List (BitVec 18)) (h : c.toNat = 0 ∨ 8 ≤ c.toNat) :
    decodePrimitive c lanes = .error .reservedPrimitive := by
  unfold decodePrimitive
  split
  case h_8 => exact if_neg (by omega)
  all_goals omega

/-! ### The statements about words -/

/-- Settles O2, by cases on the format of the word. -/
theorem encodeInvertsDecode : Obligations.EncodeInvertsDecode := by
  intro w i h
  cases w with
  | command v =>
    obtain ⟨rfl, rfl⟩ := decodeCommand_eq_ok.1 h
    exact ⟨rfl, rfl⟩
  | stage c =>
    obtain ⟨p, rfl, rfl⟩ := decodeStage_eq_ok.1 h
    exact ⟨encode_stageInstr p, wellFormed_stageInstr p⟩
  | primitive c lanes => exact encode_of_decodePrimitive h

/-- Settles O4, one format at a time. -/
theorem reservedCodesDecodeToNothing : Obligations.ReservedCodesDecodeToNothing :=
  ⟨fun _ h => decodeCommand_reserved h, fun _ h => decodeStage_reserved h, fun _ lanes h => decodePrimitive_reserved lanes h⟩

/-! ### What a step fetches -/

theorem fetchWord_start {s : State} (h : s.phase = .idle) (hc : s.cmd = 0x01#8) : fetchWord s = .command 0x01#8 := by
  unfold fetchWord
  rw [if_pos ⟨h, hc⟩, hc]

/-- Unless a START is pending in IDLE the code of PHASE is fetched. -/
theorem fetchWord_stage {s : State} (h : ¬(s.phase = .idle ∧ s.cmd = 0x01#8)) : fetchWord s = .stage (phaseCode s.phase) := if_neg h

/-- Settles O5: the step is that of the decoded operation, and the code of every phase decodes to its stage operation. -/
theorem stepRunsFetchedOperation : Obligations.StepRunsFetchedOperation := by
  refine ⟨fun s i => step_of_decode, fun s hidle hcmd => ?start, fun s h => ⟨stageInstr s.phase, ?stage, encode_stageInstr s.phase⟩⟩
  case start =>
    rw [fetchWord_start hidle hcmd]
    exact decodeCommand_eq_ok.2 ⟨rfl, rfl⟩
  case stage =>
    rw [fetchWord_stage h]
    exact decodeStage_phaseCode s.phase

end Sys2Proof.Machine
end

section
/-!
Bit layouts of 30_encoding.md: STATUS (rule R102) and the packed word (rules R92, R93).
-/

namespace Sys2Proof.Machine

/-- STATUS as a number: each field at its weight, nothing at bit 5 or above. -/
theorem toNat_statusBits (st : Status) :
    (statusBits st).toNat = (errCodeBits st.errcode).toNat * 8 + st.err.toNat * 4 + st.done.toNat * 2 + st.busy.toNat := by
  simp only [statusBits, toNat_append_of, BitVec.toNat_ofBool, BitVec.toNat_ofNat]
  ring

/-- The flags are the lowest three bits of the concatenation. -/
theorem statusBits_eq_concat (st : Status) :
    statusBits st = (((0#3 ++ errCodeBits st.errcode).concat st.err).concat st.done).concat st.busy := rfl

theorem toNat_statusBits_code (st : Status) : (statusBits st).toNat / 8 = (errCodeBits st.errcode).toNat := by
  have hb := st.busy.toNat_le
  have hd := st.done.toNat_le
  have he := st.err.toNat_le
  rw [toNat_statusBits]
  omega

/-- Settles O6: the flags are read from the concatenation, the code and the zero bits from STATUS as a number. -/
theorem statusBitLayout : Obligations.StatusBitLayout := by
  intro st
  have hlt : (errCodeBits st.errcode).toNat < 4 := (errCodeBits st.errcode).isLt
  have hcode := toNat_statusBits_code st
  refine ⟨?busy, ?done, ?err, ?code, by omega⟩
  case busy => rw [statusBits_eq_concat, BitVec.getLsbD_concat_zero]
  case done => rw [statusBits_eq_concat, BitVec.getLsbD_concat_succ, BitVec.getLsbD_concat_zero]
  case err => rw [statusBits_eq_concat, BitVec.getLsbD_concat_succ, BitVec.getLsbD_concat_succ, BitVec.getLsbD_concat_zero]
  case code =>
    rw [hcode, Nat.mod_eq_of_lt hlt]
    cases st.errcode <;> rfl

/-- A sample lies in the low 30 bits of its word (30_encoding.md rules R92, R93). -/
theorem toNat_extractSample_low (w : PackedWord) (x : Nat) :
    (extractSample w x).toNat = w.toNat % 2 ^ 30 % (2 ^ (x % 3 * 10) * 1024) / 2 ^ (x % 3 * 10) := by
  have hdvd : 2 ^ (x % 3 * 10) * 1024 ∣ 2 ^ 30 := by
    rw [show 1024 = 2 ^ 10 from rfl, ← Nat.pow_add]
    exact Nat.pow_dvd_pow 2 (by omega)
  rw [toNat_extractSample, Nat.mod_mod_of_dvd _ hdvd, Nat.mod_mul_right_div_self]

/-- Settles O23: a sample is a function of the low 30 bits. -/
theorem unusedWordBitsReachNoSample : Obligations.UnusedWordBitsReachNoSample := by
  intro v w x h
  apply BitVec.eq_of_toNat_eq
  rw [toNat_extractSample_low, toNat_extractSample_low, h]

end Sys2Proof.Machine
end

section
/-!
PHASE along the fixed sequence (30_encoding.md rule R107, 46_setup_and_output.md rule R192): the successor each operation names, what a
move of the host does to PHASE, and that a primitive leaves it.
-/

namespace Sys2Proof.Machine

open Sys2Proof.Claims

/-! ### Successors -/

theorem execStart_phase {s t : State} (hp : s.phase = .idle) (h : execStart s = .next t) : t.phase = .ldgeom := by
  unfold execStart at h
  rw [if_pos hp] at h
  cases h
  rfl

theorem execLdgeom_phase {s t : State} (h : execLdgeom s = .next t) :
    t.phase = .chksize ∨ t.phase = .error ∧ t.status.errcode = .metadataUnavailable := by
  rcases execLdgeom_eq_next.1 h with ⟨_, rfl⟩ | ⟨_, _, _, _, _, rfl⟩
  · exact .inr ⟨rfl, rfl⟩
  · exact .inl rfl

theorem execChksize_phase {s t : State} (h : execChksize s = .next t) :
    t.phase = .gsel ∨ t.phase = .error ∧ t.status.errcode = .sizeMismatch := by
  rw [execChksize_eq] at h
  cases h
  split
  · exact .inl rfl
  · exact .inr ⟨rfl, rfl⟩

/-- FILL follows REMAP for the profiles with gaps, 1 and 4 fields (30_encoding.md rule R107). -/
theorem afterRemap_eq (nf : FieldCount) : afterRemap nf = if nf = .one ∨ nf = .four then .fill else .crop := by
  cases nf <;> rfl

theorem execRemap_phase {s t : State} (h : execRemap s = .next t) :
    t.phase = if s.geom.nf = .one ∨ s.geom.nf = .four then .fill else .crop := by
  obtain ⟨u, _, _, rfl⟩ := execRemap_frame h
  exact afterRemap_eq s.geom.nf

theorem execFill_phase {s t : State} (h : execFill s = .next t) : t.phase = .crop := by
  obtain ⟨u, _, _, rfl⟩ := execFill_frame h
  rfl

theorem execCrop_phase {s t : State} (h : execCrop s = .next t) : t.phase = .emit := by
  obtain ⟨u, _, _, rfl⟩ := execCrop_frame h
  rfl

theorem execEmit_phase {s t : State} (h : execEmit s = .next t) : t.phase = .done := by
  rw [execEmit_frame h]

/-! ### The host and the primitives -/

theorem hostWriteCmd_phase {v : BitVec 8} {s t : State} (h : hostWriteCmd v s = .next t) :
    t.phase = s.phase ∨ v = 0x01#8 ∧ s.phase = .idle ∧ t.phase = .ldgeom := by
  unfold hostWriteCmd at h
  split at h
  next hstart => exact .inr ⟨hstart.2, hstart.1, execStart_phase (s := { s with cmd := v }) hstart.1 h⟩
  next =>
    cases h
    exact .inl rfl

/-- A write of an input answers with the state it was given. -/
theorem hostWriteInput_eq_next {s t u : State} : hostWriteInput s t = .next u ↔ s.phase = .idle ∧ t = u := by
  by_cases hidle : s.phase = .idle
  · simp [hostWriteInput_idle hidle, hidle]
  · simp [hostWriteInput_denied hidle, hidle]

theorem hostMove_phase {m : HostMove} {s t : State} (h : hostMove m s = .next t) :
    t.phase = s.phase ∨ (m = .reset ∧ t.phase = .idle) ∨ (m = .writeCmd 0x01#8 ∧ s.phase = .idle ∧ t.phase = .ldgeom) := by
  cases m with
  | writeCmd v =>
    rcases hostWriteCmd_phase h with hp | ⟨rfl, hstart⟩
    · exact .inl hp
    · exact .inr (.inr ⟨rfl, hstart⟩)
  | reset =>
    cases h
    exact .inr (.inl ⟨rfl, rfl⟩)
  | _ =>
    obtain ⟨_, rfl⟩ := hostWriteInput_eq_next.1 h
    exact .inl rfl

theorem primitive_phase {i : Instr} {s t : State} (hi : isPrimitive i = true) (h : exec i s = .next t) : t.phase = s.phase := by
  rw [(primitivesWriteOnlyTheirData i s t hi h).1]

/-- Settles O40: a step by cases on PHASE, each by the successor its operation names. -/
theorem phaseFollowsFixedSequence : Obligations.PhaseFollowsFixedSequence := by
  refine ⟨fun s t h => ?_, fun m s t => hostMove_phase, fun i s t => primitive_phase⟩
  cases hp : s.phase with
  | idle =>
    by_cases hc : s.cmd = 0x01#8
    · exact (execStart_phase hp (step_start hp hc ▸ h)).trans (if_pos hc).symm
    · rw [step_idle hp hc] at h
      cases h
      exact hp.trans (if_neg hc).symm
  | ldgeom => exact execLdgeom_phase (step_ldgeom hp ▸ h)
  | chksize => exact execChksize_phase (step_chksize hp ▸ h)
  | gsel =>
    rw [step_gsel hp, execGsel_eq] at h
    cases h
    rfl
  | lutbld =>
    rw [step_lutbld hp, execLutbld_eq] at h
    cases h
    rfl
  | gclr =>
    rw [step_gclr hp, execGclr_eq] at h
    cases h
    rfl
  | remap => exact execRemap_phase (step_remap hp ▸ h)
  | fill => exact execFill_phase (step_fill hp ▸ h)
  | crop => exact execCrop_phase (step_crop hp ▸ h)
  | emit => exact execEmit_phase (step_emit hp ▸ h)
  | done =>
    rw [step_done hp] at h
    cases h
    rfl
  | error =>
    rw [step_error hp] at h
    cases h
    rfl

end Sys2Proof.Machine
end

section
/-!
The sample unpacker (40_sample_unpacker.md): what UNPK fetches and extracts (rule R121), the extraction on the bytes of a word (rule
R124), and what the primitives answer outside their operand ranges (rule R122; log 7).
-/

namespace Sys2Proof.Machine

/-! ### The operand ranges -/

theorem isSite_iff {s : State} {i : BitVec 4} {y x : BitVec 16} : isSite s i y x = true ↔
    i.toNat < fieldCountNat s.geom.nf ∧ y.toNat < s.geom.height.toNat ∧ x.toNat < s.geom.width.toNat := by
  simp only [isSite, Bool.and_eq_true, decide_eq_true_eq, and_assoc]

theorem isGapCell_iff {s : State} {x y c : Nat} : isGapCell s x y c = true ↔
    1 ≤ x ∧ x < s.canvas.wout.toNat ∧ 1 ≤ y ∧ y < s.canvas.hout.toNat ∧ (x + y) % 2 = 0 ∧ c < s.canvas.cc.toNat := by
  simp only [isGapCell, gridHas, Bool.and_eq_true, decide_eq_true_eq]
  tauto

theorem outHas_iff {s : State} {x y c : Nat} : outHas s x y c = true ↔
    x < s.canvas.outW.toNat ∧ y < s.canvas.outH.toNat ∧ c < s.canvas.cc.toNat := by
  simp only [outHas, Bool.and_eq_true, decide_eq_true_eq, and_assoc]

/-! ### UNPK -/

/-- On four loaded bytes within DUMP_LEN `RawWord` answers their little-endian word (20_memory.md rule R62). -/
theorem readRawWord_of_bytes {s : State} {k : Nat} {b0 b1 b2 b3 : Byte} (hk : 4 * k + 3 < s.dumpLen.toNat)
    (h0 : memRead s.raw (4 * k) = some b0) (h1 : memRead s.raw (4 * k + 1) = some b1)
    (h2 : memRead s.raw (4 * k + 2) = some b2) (h3 : memRead s.raw (4 * k + 3) = some b3) :
    readRawWord k s = .next (littleEndian b0 b1 b2 b3) :=
  readRawWord_eq_next.2 ⟨hk, b0, b1, b2, b3, h0, h1, h2, h3, rfl⟩

/-- Settles O21: on the four loaded bytes UNPK puts their word in W32 and the word's sample in S[p]. -/
theorem unpkExtractsSample : Obligations.UnpkExtractsSample := by
  intro s i p y x b0 b1 b2 b3 hi hy hx k hk h0 h1 h2 h3
  have hword : readRawWord (sampleWord s i p y x) s = .next (littleEndian b0 b1 b2 b3) :=
    readRawWord_of_bytes hk h0 h1 h2 h3
  refine ⟨_, execUnpk_eq_next.2 ⟨isSite_iff.2 ⟨hi, hy, hx⟩, _, hword, rfl⟩, rfl, toNat_littleEndian b0 b1 b2 b3, fun q => ?_⟩
  split
  next hq =>
    obtain rfl : q = ⟨p.toNat, p.isLt⟩ := Fin.ext hq
    exact (congrArg BitVec.toNat (Vector.getElem_set_self p.isLt)).trans (toNat_extractSample _ _)
  next hq => exact Vector.getElem_set_ne p.isLt q.isLt (Ne.symm hq)

/-! ### The extraction on bytes -/

/-- Settles O22: in each column the sample is a quotient and remainder of the word's number, and that number is a sum over its bytes. -/
theorem sampleOnBytes : Obligations.SampleOnBytes := by
  intro b0 b1 b2 b3 x
  have h0 := b0.isLt
  have h1 := b1.isLt
  have h2 := b2.isLt
  rw [toNat_extractSample, toNat_littleEndian]
  refine ⟨fun hx => ?_, fun hx => ?_, fun hx => ?_⟩ <;> rw [hx] <;> omega

/-! ### Outside the ranges -/

/-- Outside the range RSITE stops in its first part, XFORM (43_field_remapper.md rule R158; log 7). -/
theorem execRsite_refused {s : State} {i : BitVec 4} {y x : BitVec 16} (h : ¬isSite s i y x = true) :
    execRsite i y x s = .refused (.operandRange "XFORM") := by
  have hx : execXform i y x s = .refused (.operandRange "XFORM") := if_neg h
  rw [execRsite, hx, andThen_refused]

/-- Settles O24: each primitive checks its range before anything else, RSITE by way of XFORM. -/
theorem operandsOutsideRangesAreRefused : Obligations.OperandsOutsideRangesAreRefused := by
  refine ⟨fun s i p y x h => ?site, fun s x y c => ⟨fun h => ?fillc, fun h => ?cmov⟩⟩
  case site =>
    rw [← isSite_iff] at h
    exact ⟨if_neg h, if_neg h, execRsite_refused h⟩
  case fillc =>
    rw [← isGapCell_iff] at h
    exact if_neg h
  case cmov =>
    rw [← outHas_iff] at h
    exact if_neg h

end Sys2Proof.Machine
end

section
/-!
The tone curves (41_tone_curve.md): the rounding of the linear curve, the logarithmic table against the real power (log 13), and what LUTBLD
and LUTRD leave.
-/

namespace Sys2Proof.Machine

/-! ### The linear curve -/

/-- Settles O14: the half is brought over the denominator, and the floor of a quotient of natural numbers is their division. -/
theorem linearCurveIsRoundedRational : Obligations.LinearCurveIsRoundedRational := by
  intro g smp
  have hden : (g.den : ℚ) ≠ 0 := Nat.cast_ne_zero.2 g.den_pos.ne'
  have hfrac : (g.num : ℚ) / g.den * smp.toNat * 65535 / 1023 + 1 / 2 =
      ((2 * g.num * smp.toNat * 65535 + 1023 * g.den : ℕ) : ℚ) / (2 * 1023 * g.den : ℕ) := by
    push_cast
    field_simp
    ring
  rw [toNat_linear, hfrac, Nat.floor_div_eq_div]

/-- Settles O15: the sample stands in the numerator, and division and the clamp keep the order. -/
theorem linearCurveDoesNotDecrease : Obligations.LinearCurveDoesNotDecrease := by
  intro g a b hab
  rw [toNat_linear, toNat_linear]
  gcongr

/-! ### The logarithmic table and the real power -/

/-- A power of 10 with the exponent `-s / k` is compared with natural numbers by `k`-th powers. -/
theorem natCast_le_mul_rpow_iff {m n s k : ℕ} (hk : k ≠ 0) :
    (m : ℝ) ≤ n * (10 : ℝ) ^ (-(s : ℝ) / k) ↔ m ^ k * 10 ^ s ≤ n ^ k := by
  have hpow : ((10 : ℝ) ^ (-(s : ℝ) / k)) ^ k = ((10 : ℝ) ^ s)⁻¹ := by
    rw [← Real.rpow_mul_natCast (by norm_num), div_mul_cancel₀ _ (Nat.cast_ne_zero.2 hk), Real.rpow_neg (by norm_num),
      Real.rpow_natCast]
  rw [← pow_le_pow_iff_left₀ (by positivity) (by positivity) hk, mul_pow, hpow, ← div_eq_mul_inv, le_div_iff₀ (by positivity)]
  exact_mod_cast Iff.rfl

/-- `round` (00_scope.md rule R11) of `n × 10^(-s/k)`, from two comparisons of whole numbers. -/
theorem floor_mul_rpow_add_half {n s k v : ℕ} (hk : k ≠ 0) (hlo : (2 * v - 1) ^ k * 10 ^ s ≤ (2 * n) ^ k)
    (hhi : (2 * n) ^ k < (2 * v + 1) ^ k * 10 ^ s) : ⌊n * (10 : ℝ) ^ (-(s : ℝ) / k) + 1 / 2⌋₊ = v := by
  have hl := (natCast_le_mul_rpow_iff hk).2 hlo
  have hh := not_le.1 (mt (natCast_le_mul_rpow_iff hk).1 hhi.not_ge)
  have hv : (2 * v : ℝ) ≤ (2 * v - 1 : ℕ) + 1 := by exact_mod_cast le_tsub_add
  push_cast at hl hh
  rw [Nat.floor_eq_iff (by positivity)]
  constructor <;> linarith

/-- Every printed entry (47_log_curve_table.md rule R139) is less than half from the power, as whole numbers say it. -/
theorem logDensity_near_power : ∀ n < 1024, (2 * (logDensity (BitVec.ofNat 10 n)).toNat - 1) ^ 500 * 10 ^ n ≤ (2 * 65535) ^ 500 ∧
    (2 * 65535) ^ 500 < (2 * (logDensity (BitVec.ofNat 10 n)).toNat + 1) ^ 500 * 10 ^ n := by
  decide +kernel

/-- The table is the printed formula (41_tone_curve.md rule R133). -/
theorem toNat_logDensity (smp : Sample) :
    (logDensity smp).toNat = ⌊65535 * (10 : ℝ) ^ (-(smp.toNat : ℝ) / 500) + 1 / 2⌋₊ := by
  obtain ⟨hlo, hhi⟩ := logDensity_near_power smp.toNat smp.isLt
  rw [BitVec.ofNat_toNat, BitVec.setWidth_eq] at hlo hhi
  exact_mod_cast (floor_mul_rpow_add_half (by decide) hlo hhi).symm

/-- The falls of the printed table, in natural numbers (41_tone_curve.md rule R134). -/
theorem logDensity_falls : ∀ n < 1023,
    (logDensity (BitVec.ofNat 10 (n + 1))).toNat + (if n < 1006 then 3 else 2) ≤ (logDensity (BitVec.ofNat 10 n)).toNat ∧
    (logDensity (BitVec.ofNat 10 n)).toNat ≤ (logDensity (BitVec.ofNat 10 (n + 1))).toNat + 301 := by
  decide +kernel

/-- Settles O17, from the falls of the table. -/
theorem logCurveFalls : Obligations.LogCurveFalls := by
  refine ⟨fun n hn => ?_, by decide, by decide⟩
  obtain ⟨hleast, hmost⟩ := logDensity_falls n hn
  split at hleast <;> refine ⟨?_, ?_, fun _ => ?_⟩ <;> omega

/-! ### LUTBLD -/

/-- LUTBLD's tables are those of the mode and the gains (41_tone_curve.md rule R130). -/
theorem exec_lutbld_lut {s t : State} (h : exec .lutbld s = .next t) : t.lut = buildTables s.cfg s.gains := by
  cases (execLutbld_eq s).symm.trans h
  rfl

/-- In logarithmic mode a table holds the logarithmic curve (41_tone_curve.md rule R130). -/
theorem curve_of_log {cfg : BitVec 3} (h : modeLog cfg = true) (g : Gain) (smp : Sample) : curve cfg g smp = logDensity smp := if_pos h

/-- Settles O16: the table is the power, and in logarithmic mode no table reads its gain. -/
theorem logCurveIsRoundedPower : Obligations.LogCurveIsRoundedPower := by
  refine ⟨toNat_logDensity, fun s t hlog h => ?_⟩
  have same : ∀ g g', buildTable s.cfg g = buildTable s.cfg g' := buildTable_of_log hlog hlog
  rw [exec_lutbld_lut h]
  refine ⟨same _ _, same _ _, fun smp => ?entry, fun g t' h' => ?gains⟩
  case entry => exact (memRead_buildTable _ _ smp).trans (congrArg some (curve_of_log hlog _ smp))
  case gains =>
    rw [exec_lutbld_lut h', buildTables, same g.red s.gains.red, same g.green s.gains.green, same g.blue s.gains.blue, buildTables]

/-- Settles O18: every sample has its entry in a built table. -/
theorem lutbldWritesEveryEntry : Obligations.LutbldWritesEveryEntry := fun s =>
  ⟨_, execLutbld_eq s, rfl, fun smp => ⟨memRead_buildTable _ _ smp, memRead_buildTable _ _ smp, memRead_buildTable _ _ smp⟩⟩

/-- Settles O19: each table depends on the mode and its gain. -/
theorem tablesDependOnModeAndGainsOnly : Obligations.TablesDependOnModeAndGainsOnly := by
  intro s s' t t' h h' hmode hgains
  have same : ∀ g, buildTable s.cfg g = buildTable s'.cfg g := buildTable_congr hmode
  rw [exec_lutbld_lut h, exec_lutbld_lut h', hgains, buildTables, same, same, same, buildTables]

/-! ### LUTRD -/

/-- Settles O20: the entry read is put in T[c], the other tones stay. -/
theorem lutrdReadsItsTable : Obligations.LutrdReadsItsTable := by
  intro s c smp v hv
  rw [← tableAt_tableOfChannel] at hv
  refine ⟨_, execLutrd_eq_next.2 ⟨v, hv, rfl⟩, rfl, fun d => ?_⟩
  split
  next hd =>
    obtain rfl : d = ⟨c.toNat, c.isLt⟩ := Fin.ext hd
    exact Vector.getElem_set_self c.isLt
  next hd => exact Vector.getElem_set_ne c.isLt d.isLt (Ne.symm hd)

end Sys2Proof.Machine
end

section
/-!
The geometry profile (42_geometry_profile.md): GSEL's registers against the printed table of rule R146 and the printed sizes of rule R147,
and what the sizes depend on.
-/

namespace Sys2Proof.Machine

open Sys2Proof.Claims

/-! ### The profile registers -/

/-- The model's row of the profile table, read as numbers, is the printed row (42_geometry_profile.md rule R146). -/
theorem profileTable_eq (nf : FieldCount) : profileTable nf =
    ((profileRow nf).scale.toNat, ((profileRow nf).xCrop.toNat, (profileRow nf).yCrop.toNat),
      ((profileRow nf).xOffset.toInt, (profileRow nf).yOffset.toInt),
      (profileRow nf).shifts.map fun shift => (shift.1.toNat, shift.2.toNat)) := by
  cases nf <;> rfl

theorem length_shifts (nf : FieldCount) : (profileRow nf).shifts.length = fieldCountNat nf := by
  cases nf <;> rfl

/-- The shift registers below NF hold the printed pairs (42_geometry_profile.md rule R146). -/
theorem selectProfile_shifts_printed (nf : FieldCount) (p : ProfileRegs) {i : Nat} (hi : i < fieldCountNat nf) (h8 : i < 8) :
    (profileTable nf).2.2.2[i]? =
      some (((selectProfile nf p).xshift[i]).toNat, ((selectProfile nf p).yshift[i]).toNat) := by
  have hlen : i < (profileRow nf).shifts.length := by rwa [length_shifts]
  have hpair := selectProfile_shifts nf p hi h8
  rw [List.getD_eq_getElem _ _ hlen] at hpair
  simp [profileTable_eq, List.getElem?_eq_getElem hlen, ← hpair]

/-- The shift registers at or beyond NF stay (42_geometry_profile.md rule R145). -/
theorem selectProfile_shifts_beyond (nf : FieldCount) (p : ProfileRegs) {i : Nat} (hi : fieldCountNat nf ≤ i) (h8 : i < 8) :
    (selectProfile nf p).xshift[i] = p.xshift[i] ∧ (selectProfile nf p).yshift[i] = p.yshift[i] := by
  have hlen : (profileRow nf).shifts.length ≤ i := by rwa [length_shifts]
  simp [selectProfile, getElem_loadShifts, List.getElem?_eq_none hlen]

/-! ### The size registers -/

/-- With the profile selected, the formula for WOUT is the printed size (42_geometry_profile.md rule R147). -/
theorem canvasWidth_selectProfile (nf : FieldCount) (p : ProfileRegs) {width : Nat} (hw : 1 ≤ width) :
    canvasWidth (selectProfile nf p) width = canvasColumns nf width := by
  cases nf <;> simp [canvasWidth, selectProfile, profileRow, canvasColumns] <;> omega

/-- With the profile selected, the formula for HOUT is the printed size (42_geometry_profile.md rule R147). -/
theorem canvasHeight_selectProfile (nf : FieldCount) (p : ProfileRegs) {height : Nat} (hh : 1 ≤ height) :
    canvasHeight (selectProfile nf p) height = canvasRows nf height := by
  cases nf <;> simp [canvasHeight, selectProfile, profileRow, canvasRows] <;> omega

theorem canvasColumns_bounds (nf : FieldCount) {width : Nat} (hw : 1 ≤ width) (hw' : width < 2 ^ 16) :
    1 ≤ canvasColumns nf width ∧ canvasColumns nf width < 2 ^ 17 := by
  cases nf <;> simp only [canvasColumns] <;> omega

theorem canvasRows_bounds (nf : FieldCount) {height : Nat} (hh : 1 ≤ height) (hh' : height < 2 ^ 16) :
    1 ≤ canvasRows nf height ∧ canvasRows nf height < 2 ^ 18 := by
  cases nf <;> simp only [canvasRows] <;> omega

/-- A size that fits its register is held as it is, and one less than it does not wrap. -/
theorem toNat_size {w n : Nat} (h1 : 1 ≤ n) (hn : n < 2 ^ w) :
    (BitVec.ofInt w n).toNat = n ∧ (BitVec.ofInt w n - 1).toNat + 1 = (BitVec.ofInt w n).toNat := by
  have hsize : (BitVec.ofInt w n).toNat = n := by rw [BitVec.ofInt_natCast, BitVec.toNat_ofNat, Nat.mod_eq_of_lt hn]
  have hone : (1 : BitVec w).toNat = 1 := (BitVec.toNat_ofNat 1 w).trans (Nat.mod_eq_of_lt (by omega))
  refine ⟨hsize, ?_⟩
  rw [BitVec.toNat_sub_of_le (by rw [BitVec.le_def]; omega)]
  omega

theorem toNat_channelCount (cfg : BitVec 3) : (channelCount cfg).toNat = if cfg.getLsbD 1 then 4 else 3 := by
  unfold channelCount channels4
  split <;> rfl

/-- CH4 alone decides CC (42_geometry_profile.md rule R148). -/
theorem channelCount_congr {cfg cfg' : BitVec 3} (h : cfg.getLsbD 1 = cfg'.getLsbD 1) : channelCount cfg = channelCount cfg' := by
  rw [← BitVec.toNat_inj, toNat_channelCount, toNat_channelCount, h]

/-! ### GSEL -/

/-- Settles O12: the row is the printed row, and each size formula is a printed size that fits its register. -/
theorem gselLoadsPrintedProfile : Obligations.GselLoadsPrintedProfile := by
  intro s hw hh
  obtain ⟨hcols, hcols'⟩ := canvasColumns_bounds s.geom.nf hw s.geom.width.isLt
  obtain ⟨hrows, hrows'⟩ := canvasRows_bounds s.geom.nf hh s.geom.height.isLt
  obtain ⟨hwout, houtW⟩ := toNat_size hcols hcols'
  obtain ⟨hhout, houtH⟩ := toNat_size hrows hrows'
  rw [← canvasWidth_selectProfile s.geom.nf s.prof hw] at hwout houtW
  rw [← canvasHeight_selectProfile s.geom.nf s.prof hh] at hhout houtH
  refine ⟨_, execGsel_eq s, rfl, ?scale, ?xcrop, ?ycrop, ?xoff, ?yoff, fun i => ⟨fun hi => ?below, fun hi => ?beyond⟩,
    hwout, hhout, toNat_channelCount s.cfg, houtW, houtH⟩
  case below => exact selectProfile_shifts_printed s.geom.nf s.prof hi i.isLt
  case beyond => exact selectProfile_shifts_beyond s.geom.nf s.prof hi i.isLt
  case scale | xcrop | ycrop | xoff | yoff =>
    rw [profileTable_eq]
    rfl

/-- GSEL's size registers are those of its sizes, its profile and CFG (42_geometry_profile.md rules R145, R147). -/
theorem exec_gsel_canvas {s t : State} (h : exec .gsel s = .next t) :
    t.canvas = sizeCanvas (selectProfile s.geom.nf s.prof) s.geom.width.toNat s.geom.height.toNat s.cfg := by
  cases (execGsel_eq s).symm.trans h
  rfl

/-- Settles O13: no register of the profile before GSEL enters a size. -/
theorem canvasSizeDependsOnGeometryOnly : Obligations.CanvasSizeDependsOnGeometryOnly := by
  intro s s' t t' h h'
  rw [exec_gsel_canvas h, exec_gsel_canvas h']
  refine ⟨fun hw hh hnf => ?_, channelCount_congr⟩
  rw [hw, hh, hnf]
  exact ⟨rfl, rfl, rfl, rfl⟩

end Sys2Proof.Machine
end

section
/-!
The geometry of the remapper (43_field_remapper.md rules R160, R161): the position of a site written out for each profile, from which it
follows that no cell takes two sites, and which cells take one.
-/

namespace Sys2Proof.Machine

open Sys2Proof.Claims

/-! ### The position of a site, profile by profile -/

/-- One field: the transform with the row of 42_geometry_profile.md rule R146 put in. -/
theorem siteTarget_one_iff {i y x : Nat} (hi : i < fieldCountNat .one) {X Y : Int} : siteTarget .one i y x = (X, Y) ↔
    X = x ∧ Y = 2 * y + (x + 1) % 2 := by
  obtain rfl : i = 0 := Nat.lt_one_iff.1 hi
  simp [siteTarget, profileRow, transformX, transformY, eq_comm]

/-- Two fields: the second is one row lower. -/
theorem siteTarget_two_iff {i y x : Nat} (hi : i < fieldCountNat .two) {X Y : Int} : siteTarget .two i y x = (X, Y) ↔
    X = x ∧ Y = 2 * y + (x + 1) % 2 + i := by
  simp only [fieldCountNat] at hi
  interval_cases i <;> simp [siteTarget, profileRow, transformX, transformY, eq_comm]

/-- Four fields: 0 and 2 take even columns and odd rows, 1 and 3 odd columns and even rows. -/
theorem siteTarget_four_iff {i y x : Nat} (hi : i < fieldCountNat .four) {X Y : Int} : siteTarget .four i y x = (X, Y) ↔
    i = 0 ∧ X = 2 * x ∧ Y = 4 * y + 2 * ((x + 1) % 2) - 1 ∨
    i = 1 ∧ X = 2 * x - 1 ∧ Y = 4 * y + 2 * ((x + 1) % 2) ∨
    i = 2 ∧ X = 2 * x ∧ Y = 4 * y + 2 * ((x + 1) % 2) + 1 ∨
    i = 3 ∧ X = 2 * x + 1 ∧ Y = 4 * y + 2 * ((x + 1) % 2) := by
  simp only [fieldCountNat] at hi
  interval_cases i <;> simp [siteTarget, profileRow, transformX, transformY] <;> omega

/-- Eight fields: two of them for each parity of column and row. -/
theorem siteTarget_eight_iff {i y x : Nat} (hi : i < fieldCountNat .eight) {X Y : Int} : siteTarget .eight i y x = (X, Y) ↔
    i = 0 ∧ X = 2 * x + 1 ∧ Y = 4 * y + 2 * ((x + 1) % 2) ∨
    i = 1 ∧ X = 2 * x ∧ Y = 4 * y + 2 * ((x + 1) % 2) ∨
    i = 2 ∧ X = 2 * x - 1 ∧ Y = 4 * y + 2 * ((x + 1) % 2) + 1 ∨
    i = 3 ∧ X = 2 * x ∧ Y = 4 * y + 2 * ((x + 1) % 2) + 1 ∨
    i = 4 ∧ X = 2 * x + 1 ∧ Y = 4 * y + 2 * ((x + 1) % 2) + 1 ∨
    i = 5 ∧ X = 2 * x + 2 ∧ Y = 4 * y + 2 * ((x + 1) % 2) + 1 ∨
    i = 6 ∧ X = 2 * x + 1 ∧ Y = 4 * y + 2 * ((x + 1) % 2) + 2 ∨
    i = 7 ∧ X = 2 * x ∧ Y = 4 * y + 2 * ((x + 1) % 2) + 2 := by
  simp only [fieldCountNat] at hi
  interval_cases i <;> simp [siteTarget, profileRow, transformX, transformY] <;> omega

/-! ### No two sites on one cell -/

/-- The cell determines the site: the field and the column by the parities of the cell, then the row by the residue of `Y` modulo 4. -/
theorem site_unique {nf : FieldCount} {i y x i' y' x' : Nat} {X Y : Int} (hi : i < fieldCountNat nf) (hi' : i' < fieldCountNat nf)
    (h : siteTarget nf i y x = (X, Y)) (h' : siteTarget nf i' y' x' = (X, Y)) : i = i' ∧ y = y' ∧ x = x' := by
  cases nf with
  | one =>
    rw [siteTarget_one_iff hi] at h
    rw [siteTarget_one_iff hi'] at h'
    simp only [fieldCountNat] at hi hi'
    omega
  | two =>
    rw [siteTarget_two_iff hi] at h
    rw [siteTarget_two_iff hi'] at h'
    simp only [fieldCountNat] at hi hi'
    omega
  | four =>
    rw [siteTarget_four_iff hi] at h
    rw [siteTarget_four_iff hi'] at h'
    omega
  | eight =>
    rw [siteTarget_eight_iff hi] at h
    rw [siteTarget_eight_iff hi'] at h'
    omega

/-- Settles O27: the cell on which both sites land determines its site. -/
theorem sitesNeverCollide : Obligations.SitesNeverCollide :=
  fun _ _ _ _ _ _ _ hi hi' h => site_unique hi hi' h rfl

/-! ### The cells the sites cover -/

/-- Does a site of the run land on the cell? -/
def Covered (nf : FieldCount) (width height X Y : Nat) : Prop :=
  ∃ i y x, Site nf width height i y x ∧ siteTarget nf i y x = ((X : Int), (Y : Int))

section covered

variable {width height X Y : Nat}

/-- One field covers the cells of odd sum (43_field_remapper.md rule R161). -/
theorem covered_one_iff (hX : X < canvasColumns .one width) (hY : Y < canvasRows .one height) :
    Covered .one width height X Y ↔ (X + Y) % 2 = 1 := by
  simp only [canvasColumns, canvasRows] at hX hY
  constructor
  · rintro ⟨i, y, x, ⟨hi, _⟩, h⟩
    rw [siteTarget_one_iff hi] at h
    omega
  · intro hodd
    exact ⟨0, Y / 2, X, ⟨by decide, by omega, hX⟩, (siteTarget_one_iff (by decide)).2 (by omega)⟩

/-- Two fields: the first covers the cells of odd sum, the second those of even sum below row 0 (43_field_remapper.md rule R161). -/
theorem covered_two_iff (hX : X < canvasColumns .two width) (hY : Y < canvasRows .two height) :
    Covered .two width height X Y ↔ (X + Y) % 2 = 1 ∨ 1 ≤ Y := by
  simp only [canvasColumns, canvasRows] at hX hY
  constructor
  · rintro ⟨i, y, x, ⟨hi, _⟩, h⟩
    rw [siteTarget_two_iff hi] at h
    simp only [fieldCountNat] at hi
    omega
  · intro h
    rcases Nat.mod_two_eq_zero_or_one (X + Y) with heven | hodd
    · exact ⟨1, (Y - 1) / 2, X, ⟨by decide, by omega, hX⟩, (siteTarget_two_iff (by decide)).2 (by omega)⟩
    · exact ⟨0, Y / 2, X, ⟨by decide, by omega, hX⟩, (siteTarget_two_iff (by decide)).2 (by omega)⟩

/-- Four fields cover the cells of odd sum: an even column by fields 0 and 2, an odd one by fields 1 and 3
(43_field_remapper.md rule R161). -/
theorem covered_four_iff (hX : X < canvasColumns .four width) (hY : Y < canvasRows .four height) :
    Covered .four width height X Y ↔ (X + Y) % 2 = 1 := by
  simp only [canvasColumns, canvasRows] at hX hY
  constructor
  · rintro ⟨i, y, x, ⟨hi, _⟩, h⟩
    rw [siteTarget_four_iff hi] at h
    omega
  · intro hodd
    obtain ⟨k, rfl | rfl⟩ := Nat.even_or_odd' X
    · by_cases hY4 : (Y + 1) % 4 = 2 * ((k + 1) % 2)
      · exact ⟨0, (Y + 1) / 4, k, ⟨by decide, by omega, by omega⟩, (siteTarget_four_iff (by decide)).2 (by omega)⟩
      · exact ⟨2, Y / 4, k, ⟨by decide, by omega, by omega⟩, (siteTarget_four_iff (by decide)).2 (by omega)⟩
    · by_cases hY4 : Y % 4 = 2 * ((k + 1) % 2)
      · exact ⟨3, Y / 4, k, ⟨by decide, by omega, by omega⟩, (siteTarget_four_iff (by decide)).2 (by omega)⟩
      · exact ⟨1, Y / 4, k + 1, ⟨by decide, by omega, by omega⟩, (siteTarget_four_iff (by decide)).2 (by omega)⟩

/-- Eight fields cover every cell off row 0 and column 0: for each parity of column and row one of two fields, by the residue of the row
modulo 4 (43_field_remapper.md rule R161). -/
theorem covered_eight_of_pos (hX : X < canvasColumns .eight width) (hY : Y < canvasRows .eight height) (hX1 : 1 ≤ X) (hY1 : 1 ≤ Y) :
    Covered .eight width height X Y := by
  simp only [canvasColumns, canvasRows] at hX hY
  obtain ⟨k, rfl | rfl⟩ := Nat.even_or_odd' X <;> obtain ⟨j, rfl | rfl⟩ := Nat.even_or_odd' Y
  case inl.inl =>
    by_cases hj : j % 2 = (k + 1) % 2
    · exact ⟨1, j / 2, k, ⟨by decide, by omega, by omega⟩, (siteTarget_eight_iff (by decide)).2 (by simp; omega)⟩
    · exact ⟨7, (j - 1) / 2, k, ⟨by decide, by omega, by omega⟩, (siteTarget_eight_iff (by decide)).2 (by simp; omega)⟩
  case inl.inr =>
    by_cases hj : j % 2 = (k + 1) % 2
    · exact ⟨3, j / 2, k, ⟨by decide, by omega, by omega⟩, (siteTarget_eight_iff (by decide)).2 (by simp; omega)⟩
    · exact ⟨5, j / 2, k - 1, ⟨by decide, by omega, by omega⟩, (siteTarget_eight_iff (by decide)).2 (by simp; omega)⟩
  case inr.inl =>
    by_cases hj : j % 2 = (k + 1) % 2
    · exact ⟨0, j / 2, k, ⟨by decide, by omega, by omega⟩, (siteTarget_eight_iff (by decide)).2 (by simp; omega)⟩
    · exact ⟨6, (j - 1) / 2, k, ⟨by decide, by omega, by omega⟩, (siteTarget_eight_iff (by decide)).2 (by simp; omega)⟩
  case inr.inr =>
    by_cases hj : j % 2 = (k + 1) % 2
    · exact ⟨4, j / 2, k, ⟨by decide, by omega, by omega⟩, (siteTarget_eight_iff (by decide)).2 (by simp; omega)⟩
    · exact ⟨2, j / 2, k + 1, ⟨by decide, by omega, by omega⟩, (siteTarget_eight_iff (by decide)).2 (by simp; omega)⟩

/-- Eight fields leave the origin (43_field_remapper.md rule R161). -/
theorem not_covered_eight_origin : ¬Covered .eight width height 0 0 := by
  rintro ⟨i, y, x, ⟨hi, _⟩, h⟩
  rw [siteTarget_eight_iff hi] at h
  omega

end covered

/-- Settles O28, profile by profile. -/
theorem sitesCoverTheCanvas : Obligations.SitesCoverTheCanvas := by
  intro nf width height X Y _ _ hX hY
  refine ⟨fun hnf => ?odd, fun hnf hX1 hY1 => ?inner, fun hnf hY0 => ?rowZero, fun hX0 hY0 => ?origin⟩
  case odd =>
    rcases hnf with rfl | rfl
    · exact covered_one_iff hX hY
    · exact covered_four_iff hX hY
  case inner =>
    rcases hnf with rfl | rfl
    · exact (covered_two_iff hX hY).2 (.inr hY1)
    · exact covered_eight_of_pos hX hY hX1 hY1
  case rowZero =>
    subst hnf hY0
    exact (covered_two_iff hX hY).trans (by omega)
  case origin =>
    subst hX0 hY0
    cases nf with
    | one => exact fun h => absurd ((covered_one_iff hX hY).1 h) (by decide)
    | two => exact fun h => absurd ((covered_two_iff hX hY).1 h) (by decide)
    | four => exact fun h => absurd ((covered_four_iff hX hY).1 h) (by decide)
    | eight => exact not_covered_eight_origin

end Sys2Proof.Machine
end

section
/-!
The remapper (43_field_remapper.md): XFORM's integers in their registers (rule R156), the one site of RSITE (rules R157, R158), and REMAP as
the loop of RSITE over all sites (rule R155).
-/

namespace Sys2Proof.Machine

/-! ### XFORM -/

/-- With GSEL's registers in place there are three or four channels (10_state.md rule R29). -/
theorem ProfileSelected.cc_cases {s : State} (h : ProfileSelected s) : s.canvas.cc = 3 ∨ s.canvas.cc = 4 := by
  rw [h.2]
  exact channelCount_cases s.cfg

theorem onCanvas_iff {wout hout : Nat} {xp yp : Int} :
    onCanvas wout hout xp yp = true ↔ 0 ≤ xp ∧ xp < wout ∧ 0 ≤ yp ∧ yp < hout := by
  simp only [onCanvas, Bool.and_eq_true, decide_eq_true_eq, and_assoc]

/-- With the profile selected, a site is on the canvas when its target is (43_field_remapper.md rule R157). -/
theorem siteOnCanvas_iff {s : State} (hp : s.prof = selectProfile s.geom.nf s.prof) {i : BitVec 4} (hi : i.toNat < fieldCountNat s.geom.nf)
    {y x : BitVec 16} {X Y : Int} (ht : siteTarget s.geom.nf i.toNat y.toNat x.toNat = (X, Y)) :
    siteOnCanvas s i y x = true ↔ 0 ≤ X ∧ X < s.canvas.wout.toNat ∧ 0 ≤ Y ∧ Y < s.canvas.hout.toNat := by
  rw [← sitePosition_eq hp hi, Prod.mk.injEq] at ht
  obtain ⟨rfl, rfl⟩ := ht
  exact onCanvas_iff

/-- Settles O25: XP and YP hold the two integers unwrapped, because the printed bounds fit the registers. -/
theorem xformComputesIntegerPosition : Obligations.XformComputesIntegerPosition := by
  intro s i y x ⟨hp, _⟩ hi hy hx
  have hs : isSite s i y x = true := isSite_iff.2 ⟨hi, hy, hx⟩
  have h8 : i.toNat < 8 := Nat.lt_of_lt_of_le hi (fieldCountNat_le _)
  obtain ⟨hxp, hyp⟩ := toInt_position hp hs
  have hbounds := siteTarget_bounds hi hx hy
  rw [← sitePosition_eq hp hi] at hbounds
  refine ⟨_, execXform_eq_next.2 ⟨hs, rfl⟩, rfl, ⟨h8, ?position⟩, ?inb, ?bounds⟩
  all_goals simp only [State.setDp_dp, hxp, hyp]
  case position => simp [siteX, siteY, transformX, transformY, shiftOf_eq _ _ h8]
  case inb => exact onCanvas_iff
  case bounds => exact hbounds

/-! ### RSITE -/

/-- A word of the dump that lies within DUMP_LEN is what `RawWord` answers (20_memory.md rule R62). -/
theorem readRawWord_of_dumpWord {s : State} {k : Nat} {w : PackedWord} (hk : 4 * k + 3 < s.dumpLen.toNat) (h : dumpWord s.raw k = some w) :
    readRawWord k s = .next w := by
  unfold dumpWord at h
  split at h
  next b0 b1 b2 b3 h0 h1 h2 h3 =>
    cases h
    exact readRawWord_of_bytes hk h0 h1 h2 h3
  next => cases h

/-- Off the canvas RSITE answers what its first part, XFORM, answers (43_field_remapper.md rule R157). -/
theorem execRsite_eq_execXform {s : State} {i : BitVec 4} {y x : BitVec 16} (hs : isSite s i y x = true)
    (h : siteOnCanvas s i y x = false) : execRsite i y x s = execXform i y x s := by
  obtain ⟨d, hd, rfl⟩ := execRsite_off hs h
  exact hd.trans (execXform_eq_next.2 ⟨hs, by rw [h]⟩).symm

/-- Settles O26: off the canvas by `execRsite_eq_execXform`, on it by `execRsite_on`, whose cell is written channel by channel. -/
theorem rsiteProcessesOneSite : Obligations.RsiteProcessesOneSite := by
  intro s i y x hprofile hi hy hx
  have hs : isSite s i y x = true := isSite_iff.2 ⟨hi, hy, hx⟩
  have hp := hprofile.1
  refine ⟨fun X Y ht hoff => ?off, fun X Y word v ht hX hY hword hv => ?on⟩
  case off =>
    rw [← siteOnCanvas_iff hp hi ht, Bool.not_eq_true] at hoff
    obtain ⟨d, hd, rfl⟩ := execRsite_off hs hoff
    exact ⟨_, hd, (execRsite_eq_execXform hs hoff).symm.trans hd, rfl⟩
  case on =>
    have hread : ∀ p : BitVec 2, readRawWord (sampleWord s i p y x) s = .next (word p.toNat) := fun p =>
      readRawWord_of_dumpWord (hword p.toNat p.isLt).1 (hword p.toNat p.isLt).2
    have htone : ∀ c : BitVec 2, c.toNat < s.canvas.cc.toNat → memRead (tableAt s.lut (tableOfChannel c))
        (extractSample (word (planeOfChannel c).toNat) x.toNat).toNat = some (v c.toNat) := fun c hc => by
      rw [tableAt_tableOfChannel, toNat_planeOfChannel, ← hv c.toNat hc]
      simp only [← BitVec.toNat_inj]
      rfl
    obtain ⟨d, hd, hframe, hxp, hyp, hsamples, htones⟩ := execRsite_on hp hs ht hX hY hprofile.cc_cases hread htone
    refine ⟨_, hd, congrArg (fun d => (s.setDp d).setGrid _) hframe, hxp, hyp, fun p => hsamples ⟨p⟩, fun c => htones ⟨c⟩,
      fun c hc => ?cell, fun n hn => ?others⟩
    case cell => exact memRead_writeCell _ _ _ _ _ hc fun a ha b hb h => (cellIndex_inj hX ha hX hb h).2.2
    case others => exact memRead_writeCell_of_ne _ _ _ _ _ hn

/-! ### REMAP -/

/-- At most one site REMAP visits lands on a cell (43_field_remapper.md rule R160). -/
theorem lands_unique {nf : FieldCount} {height width X Y : Nat} {a b : Nat × Nat × Nat}
    (ha : a ∈ remapSites (fieldCountNat nf) height width) (hb : b ∈ remapSites (fieldCountNat nf) height width)
    (hla : lands nf X Y a = true) (hlb : lands nf X Y b = true) : a = b := by
  obtain ⟨i, y, x⟩ := a
  obtain ⟨i', y', x'⟩ := b
  obtain ⟨rfl, rfl, rfl⟩ :=
    site_unique (mem_remapSites.1 ha).1 (mem_remapSites.1 hb).1 (of_decide_eq_true hla) (of_decide_eq_true hlb)
  rfl

/-- What a value of the canvas holds when `site` is the site that has landed on its cell. -/
def valueAfter (s : State) (site : Option (Nat × Nat × Nat)) (X Y c : Nat) : Option Cell16 :=
  match site with
  | some site => siteValue s site c
  | none => memRead s.grid (gridIndex s X Y c)

/-- The state `u` of REMAP's loop, begun in `s`, after the visited sites. -/
structure RemapVisited (s : State) (visited : List (Nat × Nat × Nat)) (u : State) : Prop where
  sites : visited ⊆ remapSites (fieldCountNat s.geom.nf) s.geom.height.toNat s.geom.width.toNat
  frame : SameButGridDpCtr s u
  canvas : ∀ X Y c, X < s.canvas.wout.toNat → Y < s.canvas.hout.toNat → c < s.canvas.cc.toNat →
    memRead u.grid (gridIndex s X Y c) = valueAfter s (visited.find? (lands s.geom.nf X Y)) X Y c
  beyond : ∀ n, gridSize s ≤ n → memRead u.grid n = memRead s.grid n

theorem RemapVisited.start (s : State) : RemapVisited s [] s where
  sites := List.nil_subset _
  frame := rfl
  canvas := fun _ _ _ _ _ _ => rfl
  beyond := fun _ _ => rfl

/-- The site found on a cell after one more visit. No site already visited is there when the new one lands (rule R160). -/
theorem find?_lands_concat {nf : FieldCount} {height width X Y : Nat} {visited : List (Nat × Nat × Nat)} {a : Nat × Nat × Nat}
    (hv : visited ⊆ remapSites (fieldCountNat nf) height width) (ha : a ∈ remapSites (fieldCountNat nf) height width) :
    (visited ++ [a]).find? (lands nf X Y) = if lands nf X Y a = true then some a else visited.find? (lands nf X Y) := by
  rw [List.find?_append]
  split
  next hl =>
    cases hb : visited.find? (lands nf X Y) with
    | none => simp [hl]
    | some b => simp [lands_unique (hv (List.mem_of_find?_eq_some hb)) ha (List.find?_some hb) hl]
  next hl => simp [hl]

/-- One pass of REMAP carries the loop's invariant on. -/
theorem RemapVisited.concat {s u : State} (hr : RemapReady s) {visited : List (Nat × Nat × Nat)} (hu : RemapVisited s visited u)
    {a : Nat × Nat × Nat} (ha : a ∈ remapSites (fieldCountNat s.geom.nf) s.geom.height.toNat s.geom.width.toNat) :
    ∃ t, remapSite a u = .next t ∧ RemapVisited s (visited ++ [a]) t := by
  obtain ⟨t, ht, hframe, hcanvas, hbeyond⟩ := remapSite_completes hr hu.frame ha
  refine ⟨t, ht, List.append_subset.2 ⟨hu.sites, List.cons_subset.2 ⟨ha, List.nil_subset _⟩⟩, hframe,
    fun X Y c hX hY hc => ?_, fun n hn => ?_⟩
  · rw [hcanvas X Y c hX hY hc, find?_lands_concat hu.sites ha, hu.canvas X Y c hX hY hc]
    split
    next => rfl
    next => rfl
  · exact (hbeyond n hn).trans (hu.beyond n hn)

/-- Settles O29: the loop's invariant after all the sites. -/
theorem remapMapsEverySite : Obligations.RemapMapsEverySite := by
  intro s hsizes hprofile htables hloaded
  have hr : RemapReady s := ⟨hsizes, hprofile, htables, hloaded⟩
  obtain ⟨u, hloop, hu⟩ := forEach_visits (RemapVisited s) (fun _ _ ha _ hv => hv.concat hr ha) (RemapVisited.start s)
  have hexec : exec .remap s = .next (u.setPhase (afterRemap s.geom.nf)) := by
    show execRemap s = _
    rw [execRemap, hloop, andThen_next]
  refine ⟨_, hexec, ?_, hu.canvas, hu.beyond⟩
  rw [← afterRemap_eq]
  exact hu.frame.setPhase_eq _

end Sys2Proof.Machine
end

section
/-!
The gap filler (44_gap_filler.md): AVG2 (rule R174), FILLC (rule R173), FILL as the loop over its visits (rules R170, R175), and why neither a
second FILL nor another order of the visits changes GRID: a visit writes a cell of even sum and reads two of odd sum (rule R176).
-/

namespace Sys2Proof.Machine

/-! ### AVG2 -/

/-- Settles O31: the average is the truncated half of the sum, by `toNat_average`. -/
theorem avg2TruncatesWithoutWrapping : Obligations.Avg2TruncatesWithoutWrapping := by
  intro s a b
  have hv := toNat_average a b
  exact ⟨average a b, rfl, hv, by omega, by omega⟩

/-! ### FILLC -/

theorem gridHas_iff {s : State} {x y c : Nat} : gridHas s x y c = true ↔
    x < s.canvas.wout.toNat ∧ y < s.canvas.hout.toNat ∧ c < s.canvas.cc.toNat := by
  simp only [gridHas, Bool.and_eq_true, decide_eq_true_eq, and_assoc]

/-- Settles O32: both neighbours are on the canvas, so FILLC reads them and writes their average. -/
theorem fillcAveragesAboveAndLeft : Obligations.FillcAveragesAboveAndLeft := by
  intro s x y c above left hx hx' hy hy' heven hc habove hleft
  have hgap : isGapCell s x.toNat y.toNat c.toNat = true := isGapCell_iff.2 ⟨hx, hx', hy, hy', heven, hc⟩
  have hreadAbove : readGrid x.toNat (y.toNat - 1) c.toNat s = .next above :=
    readGrid_eq_next.2 ⟨gridHas_iff.2 ⟨hx', by omega, hc⟩, habove⟩
  have hreadLeft : readGrid (x.toNat - 1) y.toNat c.toNat s = .next left :=
    readGrid_eq_next.2 ⟨gridHas_iff.2 ⟨by omega, hy', hc⟩, hleft⟩
  exact ⟨_, average above left, execFillc_eq_next.2 ⟨hgap, above, left, hreadAbove, hreadLeft, rfl⟩, toNat_average above left, rfl,
    memRead_memWrite_self _ _ _, fun n hn => memRead_memWrite_of_ne _ _ hn.symm⟩

/-! ### FILL -/

/-- What a value of the canvas holds after the visited cells: a visited cell of even sum its average, every other cell its old value. -/
def cellAfterVisits (s : State) (visited : List (Nat × Nat)) (X Y c : Nat) : Cell16 :=
  if (X, Y) ∈ visited ∧ (X + Y) % 2 = 0 then gapValue s X Y c else cellOf s X Y c

/-- A cell of odd sum is left alone (44_gap_filler.md rule R172). -/
theorem cellAfterVisits_of_odd {s : State} {visited : List (Nat × Nat)} {X Y : Nat} (c : Nat) (h : (X + Y) % 2 = 1) :
    cellAfterVisits s visited X Y c = cellOf s X Y c :=
  if_neg fun hgap => by omega

/-- After all visits the gap cells hold their averages (44_gap_filler.md rule R170). -/
theorem cellAfterVisits_fillVisits {s : State} {X Y : Nat} (c : Nat) (hX : X < s.canvas.wout.toNat) (hY : Y < s.canvas.hout.toNat) :
    cellAfterVisits s (fillVisits s.canvas.wout.toNat s.canvas.hout.toNat) X Y c =
      if 1 ≤ X ∧ 1 ≤ Y ∧ (X + Y) % 2 = 0 then gapValue s X Y c else cellOf s X Y c := by
  unfold cellAfterVisits
  exact if_congr (by rw [mem_fillVisits]; tauto) rfl rfl

/-- One more visit gives its own cell the average, when the sum is even (44_gap_filler.md rule R172). -/
theorem cellAfterVisits_concat (s : State) (visited : List (Nat × Nat)) (X Y A B c : Nat) :
    cellAfterVisits s (visited ++ [(X, Y)]) A B c =
      if A = X ∧ B = Y ∧ (X + Y) % 2 = 0 then gapValue s X Y c else cellAfterVisits s visited A B c := by
  unfold cellAfterVisits
  by_cases hcell : A = X ∧ B = Y
  · obtain ⟨rfl, rfl⟩ := hcell
    by_cases heven : (A + B) % 2 = 0 <;> simp [heven]
  · have hother : ¬(A = X ∧ B = Y ∧ (X + Y) % 2 = 0) := fun h => hcell ⟨h.1, h.2.1⟩
    rw [if_neg hother]
    exact if_congr (by simp [hcell]) rfl rfl

/-- The visits matter as a set (44_gap_filler.md rule R176). -/
theorem cellAfterVisits_perm {visited order : List (Nat × Nat)} (h : order.Perm visited) (s : State) (X Y c : Nat) :
    cellAfterVisits s order X Y c = cellAfterVisits s visited X Y c := by
  unfold cellAfterVisits
  exact if_congr (by rw [h.mem_iff]) rfl rfl

/-- The state `u` of FILL's loop, begun in `s`, after the visited cells. -/
structure FillVisited (s : State) (visited : List (Nat × Nat)) (u : State) : Prop where
  frame : SameButGridDpCtr s u
  canvas : ∀ X Y c, X < s.canvas.wout.toNat → Y < s.canvas.hout.toNat → c < s.canvas.cc.toNat →
    memRead u.grid (gridIndex s X Y c) = some (cellAfterVisits s visited X Y c)
  beyond : ∀ n, gridSize s ≤ n → memRead u.grid n = memRead s.grid n

theorem FillVisited.start {s : State} (hg : GridWritten s) : FillVisited s [] s where
  frame := rfl
  canvas := fun X Y c hX hY hc => by
    rw [memRead_cellOf hg hX hY hc, cellAfterVisits, if_neg fun h => List.not_mem_nil h.1]
  beyond := fun _ _ => rfl

/-- One visit carries the loop's invariant on, whatever was visited before: the two values it reads are of odd sum (rule R176). -/
theorem FillVisited.concat {s u : State} (hg : GridWritten s) (hcc : s.canvas.cc.toNat ≤ 4) {visited : List (Nat × Nat)}
    (hu : FillVisited s visited u) {a : Nat × Nat} (ha : a ∈ fillVisits s.canvas.wout.toNat s.canvas.hout.toNat) :
    ∃ t, fillVisit a u = .next t ∧ FillVisited s (visited ++ [a]) t := by
  obtain ⟨X, Y⟩ := a
  obtain ⟨hX, hX', hY, hY'⟩ := mem_fillVisits.1 ha
  obtain ⟨t, ht, hframe, hcanvas, hbeyond⟩ := fillVisit_completes hg hcc hu.frame hX hX' hY hY' fun A B c hA hB hc hodd => by
    rw [hu.canvas A B c hA hB hc, cellAfterVisits_of_odd c hodd, memRead_cellOf hg hA hB hc]
  refine ⟨t, ht, hframe, fun A B c hA hB hc => ?_, fun n hn => (hbeyond n hn).trans (hu.beyond n hn)⟩
  rw [hcanvas A B c hA hB hc, cellAfterVisits_concat, hu.canvas A B c hA hB hc, apply_ite some]

/-- FILL's loop completes in every order of its visits. -/
theorem forEach_fillVisit {s : State} (hg : GridWritten s) (hcc : s.canvas.cc.toNat ≤ 4) {order : List (Nat × Nat)}
    (horder : order ⊆ fillVisits s.canvas.wout.toNat s.canvas.hout.toNat) :
    ∃ u, forEach order fillVisit s = .next u ∧ FillVisited s order u :=
  forEach_visits (FillVisited s) (fun _ _ ha _ hu => hu.concat hg hcc (horder ha)) (.start hg)

/-- FILL completes, and what GRID holds is the invariant after all visits (44_gap_filler.md rule R170). -/
theorem execFill_completes {s : State} (hg : GridWritten s) (hcc : s.canvas.cc.toNat ≤ 4) :
    ∃ u, exec .fill s = .next (u.setPhase .crop) ∧ FillVisited s (fillVisits s.canvas.wout.toNat s.canvas.hout.toNat) u := by
  obtain ⟨u, hloop, hu⟩ := forEach_fillVisit hg hcc (List.Subset.refl _)
  refine ⟨u, ?_, hu⟩
  show execFill s = _
  rw [execFill, hloop, andThen_next]

/-- Settles O33: the loop's invariant after all the visits. -/
theorem fillAveragesGapCells : Obligations.FillAveragesGapCells := by
  intro s hg hcc
  obtain ⟨u, hexec, hu⟩ := execFill_completes hg hcc
  refine ⟨_, hexec, hu.frame.setPhase_eq _, fun X Y c hX hY hc => ?_, hu.beyond⟩
  have hcell := hu.canvas X Y c hX hY hc
  rw [cellAfterVisits_fillVisits c hX hY] at hcell
  constructor
  · intro hgap
    rw [if_pos hgap] at hcell
    exact ⟨_, _, memRead_cellOf hg hX (by omega) hc, memRead_cellOf hg (by omega) hY hc, hcell⟩
  · intro hother
    rw [if_neg hother] at hcell
    exact hcell.trans (memRead_cellOf hg hX hY hc).symm

/-! ### A second FILL, and other orders -/

/-- Two memories that agree on the values of the canvas and beyond it agree everywhere (20_memory.md rule R66). -/
theorem memRead_eq_of_cells {s : State} {m m' : Mem 16}
    (hcanvas : ∀ X Y c, X < s.canvas.wout.toNat → Y < s.canvas.hout.toNat → c < s.canvas.cc.toNat →
      memRead m (gridIndex s X Y c) = memRead m' (gridIndex s X Y c))
    (hbeyond : ∀ n, gridSize s ≤ n → memRead m n = memRead m' n) (n : Nat) : memRead m n = memRead m' n := by
  rcases Nat.lt_or_ge n (gridSize s) with hn | hn
  · obtain ⟨X, Y, c, hX, hY, hc, rfl⟩ := exists_cellIndex_eq hn
    exact hcanvas X Y c hX hY hc
  · exact hbeyond n hn

section
variable {s u : State} {visited : List (Nat × Nat)}

/-- The visits leave the canvas, and so the place of every value. -/
theorem FillVisited.canvas_eq (hu : FillVisited s visited u) : u.canvas = s.canvas := by
  obtain ⟨_, _, _, _, _, _, _, _, hcanvas, _, _⟩ := hu.frame.fields
  exact hcanvas

theorem FillVisited.gridWritten (hu : FillVisited s visited u) : GridWritten u := by
  intro n hn
  rw [gridSize, hu.canvas_eq] at hn
  obtain ⟨X, Y, c, hX, hY, hc, rfl⟩ := exists_cellIndex_eq hn
  exact Option.isSome_of_eq_some (hu.canvas X Y c hX hY hc)

theorem FillVisited.cellOf_eq (hu : FillVisited s visited u) {X Y c : Nat} (hX : X < s.canvas.wout.toNat)
    (hY : Y < s.canvas.hout.toNat) (hc : c < s.canvas.cc.toNat) : cellOf u X Y c = cellAfterVisits s visited X Y c := by
  have hread := hu.canvas X Y c hX hY hc
  rw [gridIndex, ← hu.canvas_eq] at hread
  rw [cellOf, gridIndex, hread, Option.getD_some]

/-- The average a gap cell takes does not change while FILL visits: both neighbours are of odd sum (44_gap_filler.md rule R176). -/
theorem FillVisited.gapValue_eq (hu : FillVisited s visited u) {X Y c : Nat} (hX : X < s.canvas.wout.toNat)
    (hY : Y < s.canvas.hout.toNat) (hc : c < s.canvas.cc.toNat) (hgap : 1 ≤ X ∧ 1 ≤ Y ∧ (X + Y) % 2 = 0) :
    gapValue u X Y c = gapValue s X Y c := by
  rw [gapValue, hu.cellOf_eq hX (by omega) hc, hu.cellOf_eq (by omega) hY hc, cellAfterVisits_of_odd c (by omega),
    cellAfterVisits_of_odd c (by omega), gapValue]

/-- Where FILL has visited every cell, a second FILL gives each value what it holds (44_gap_filler.md rule R176). -/
theorem FillVisited.refill_eq (hu : FillVisited s (fillVisits s.canvas.wout.toNat s.canvas.hout.toNat) u) {X Y c : Nat}
    (hX : X < s.canvas.wout.toNat) (hY : Y < s.canvas.hout.toNat) (hc : c < s.canvas.cc.toNat) :
    cellAfterVisits u (fillVisits u.canvas.wout.toNat u.canvas.hout.toNat) X Y c = cellOf u X Y c := by
  rw [cellAfterVisits_fillVisits c (by rwa [hu.canvas_eq]) (by rwa [hu.canvas_eq])]
  split
  next hgap => rw [hu.gapValue_eq hX hY hc hgap, hu.cellOf_eq hX hY hc, cellAfterVisits_fillVisits c hX hY, if_pos hgap]
  next => rfl

end

/-- Settles O34: a second FILL gives each gap cell the same average, which the cell already holds. -/
theorem fillIsIdempotent : Obligations.FillIsIdempotent := by
  intro s t hg hcc hfill
  obtain ⟨u, hexec, hu⟩ := execFill_completes hg hcc
  obtain rfl : u.setPhase .crop = t := Host.Outcome.next.inj (hexec.symm.trans hfill)
  have hg' : GridWritten (u.setPhase .crop) := hu.gridWritten
  have hcan : (u.setPhase .crop).canvas = s.canvas := hu.canvas_eq
  obtain ⟨v, hexec', hv⟩ := execFill_completes hg' (by rwa [hcan])
  refine ⟨_, hexec', memRead_eq_of_cells (fun X Y c hX hY hc => ?_) hv.beyond⟩
  have hsame : cellAfterVisits (u.setPhase .crop) (fillVisits u.canvas.wout.toNat u.canvas.hout.toNat) X Y c =
      cellOf (u.setPhase .crop) X Y c := hu.refill_eq (hcan ▸ hX) (hcan ▸ hY) (hcan ▸ hc)
  exact (hv.canvas X Y c hX hY hc).trans ((congrArg some hsame).trans (memRead_cellOf hg' hX hY hc).symm)

/-- Settles O35: the invariant after the visits depends on which cells were visited, not on their order. -/
theorem fillOrderIsImmaterial : Obligations.FillOrderIsImmaterial := by
  intro s t order hg hcc hperm hfill
  obtain ⟨u, hexec, hu⟩ := execFill_completes hg hcc
  obtain rfl : u.setPhase .crop = t := Host.Outcome.next.inj (hexec.symm.trans hfill)
  obtain ⟨v, hloop, hv⟩ := forEach_fillVisit hg hcc hperm.subset
  refine ⟨v, hloop, memRead_eq_of_cells (s := s) (fun X Y c hX hY hc => ?_) fun n hn => ?_⟩
  · exact (hv.canvas X Y c hX hY hc).trans
      ((congrArg some (cellAfterVisits_perm hperm s X Y c)).trans (hu.canvas X Y c hX hY hc).symm)
  · exact (hv.beyond n hn).trans (hu.beyond n hn).symm

end Sys2Proof.Machine
end

section
/-!
The border cropper (45_cropper.md): CMOV (rule R181), and CROP as the loop over the values of OUT (rules R180, R182).
-/

namespace Sys2Proof.Machine

/-! ### CMOV -/

/-- Settles O36: the value one row and one column further is on the canvas, so CMOV reads it and writes it to OUT. -/
theorem cmovCopiesOneValue : Obligations.CmovCopiesOneValue := by
  intro s x y c v hx hy hc hwidth hheight hv
  have hread : readGrid (x.toNat + 1) (y.toNat + 1) c.toNat s = .next v :=
    readGrid_eq_next.2 ⟨gridHas_iff.2 ⟨by omega, by omega, hc⟩, hv⟩
  exact ⟨_, execCmov_eq_next.2 ⟨outHas_iff.2 ⟨hx, hy, hc⟩, v, hread, rfl⟩, rfl, memRead_memWrite_self _ _ _,
    fun n hn => memRead_memWrite_of_ne _ _ hn.symm⟩

/-! ### CROP -/

/-- The state `u` of CROP's loop, begun in `s`, after the visited values of OUT. -/
structure CropVisited (s : State) (visited : List (Nat × Nat × Nat)) (u : State) : Prop where
  values : visited ⊆ cropValues s.canvas.outW.toNat s.canvas.outH.toNat s.canvas.cc.toNat
  frame : SameButOutCtr s u
  moved : ∀ x y c, (x, y, c) ∈ visited → memRead u.out (outIndex s x y c) = some (cellOf s (x + 1) (y + 1) c)
  beyond : ∀ n, outSize s ≤ n → memRead u.out n = memRead s.out n

theorem CropVisited.start (s : State) : CropVisited s [] s where
  values := List.nil_subset _
  frame := rfl
  moved := nofun
  beyond := fun _ _ => rfl

/-- One pass carries the loop's invariant on: it writes its own value of OUT, and no other visited value has that index (rule R67). -/
theorem CropVisited.concat {s u : State} (hg : GridWritten s) (hcc : s.canvas.cc.toNat ≤ 4)
    (hwidth : s.canvas.outW.toNat + 1 = s.canvas.wout.toNat) (hheight : s.canvas.outH.toNat + 1 = s.canvas.hout.toNat)
    {visited : List (Nat × Nat × Nat)} (hu : CropVisited s visited u) {a : Nat × Nat × Nat}
    (ha : a ∈ cropValues s.canvas.outW.toNat s.canvas.outH.toNat s.canvas.cc.toNat) :
    ∃ t, cropValue a u = .next t ∧ CropVisited s (visited ++ [a]) t := by
  obtain ⟨x, y, c⟩ := a
  obtain ⟨hx, hy, hc⟩ := mem_cropValues.1 ha
  obtain ⟨t, ht, hframe, hout⟩ := cropValue_completes hg hcc hwidth hheight hu.frame hx hy hc
  have hvalues : visited ++ [(x, y, c)] ⊆ cropValues s.canvas.outW.toNat s.canvas.outH.toNat s.canvas.cc.toNat :=
    List.append_subset.2 ⟨hu.values, List.cons_subset.2 ⟨ha, List.nil_subset _⟩⟩
  refine ⟨t, ht, hvalues, hframe, fun x' y' c' hmem => ?_, fun n hn => ?_⟩
  · rw [hout]
    split
    next hsame =>
      obtain ⟨hx', _, hc'⟩ := mem_cropValues.1 (hvalues hmem)
      obtain ⟨rfl, rfl, rfl⟩ := cellIndex_inj hx' hc' hx hc hsame
      rfl
    next hother =>
      have hne : (x', y', c') ∉ [(x, y, c)] := fun h => hother (by cases List.mem_singleton.1 h; rfl)
      exact hu.moved x' y' c' ((List.mem_append.1 hmem).resolve_right hne)
  · rw [hout, if_neg fun h => ?_, hu.beyond n hn]
    have hlt : outIndex s x y c < outSize s := cellIndex_lt hx hy hc
    omega

/-- Settles O37: the loop's invariant after all the values of OUT. -/
theorem cropRemovesRowAndColumnZero : Obligations.CropRemovesRowAndColumnZero := by
  intro s hg hcc hwidth hheight
  obtain ⟨u, hloop, hu⟩ := forEach_visits (CropVisited s) (fun _ _ ha _ hv => hv.concat hg hcc hwidth hheight ha) (.start s)
  have hexec : exec .crop s = .next (u.setPhase .emit) := by
    show execCrop s = _
    rw [execCrop, hloop, andThen_next]
  refine ⟨_, hexec, hu.frame.setPhase_eq _, fun x y c hx hy hc => ?_, hu.beyond⟩
  exact (hu.moved x y c (mem_cropValues.2 ⟨hx, hy, hc⟩)).trans (memRead_cellOf hg (by omega) (by omega) hc).symm

end Sys2Proof.Machine
end

section
/-!
The ends of the sequence (46_setup_and_output.md): START (rule R185), LDGEOM (rule R186), CHKSIZE (rule R187), GCLR (rule R188), EMIT as
the loop over the values of OUT (rule R189), and the terminal phases (rule R190, 60_exceptions.md rule R206).
-/

namespace Sys2Proof.Machine

/-! ### START -/

/-- START in IDLE writes STATUS and PHASE (46_setup_and_output.md rule R185). -/
theorem execStart_idle {s : State} (h : s.phase = .idle) :
    execStart s = .next { s with status := startStatus, phase := .ldgeom } := if_pos h

theorem execStart_ignored {s : State} (h : s.phase ≠ .idle) : execStart s = .next s := if_neg h

/-- The state in which a run begins: START has been written to CMD in IDLE (46_setup_and_output.md rule R185). -/
def started (s : State) : State := { s with cmd := Config.startCode, status := startStatus, phase := .ldgeom }

theorem hostWriteCmd_start {s : State} (h : s.phase = .idle) : hostWriteCmd Config.startCode s = .next (started s) :=
  (if_pos ⟨h, rfl⟩).trans (execStart_idle (s := { s with cmd := Config.startCode }) h)

theorem hostWriteCmd_ignored {s : State} {v : BitVec 8} (h : ¬(s.phase = .idle ∧ v = 0x01#8)) : hostWriteCmd v s = .next s := if_neg h

/-- Settles O7, the host's write and the operation each by whether PHASE is IDLE. -/
theorem startIsAcceptedInIdleOnly : Obligations.StartIsAcceptedInIdleOnly := fun _ =>
  ⟨fun hidle => ⟨⟨Config.startCode, hostWriteCmd_start hidle⟩, execStart_idle hidle⟩, execStart_ignored,
    fun _ => hostWriteCmd_ignored, rfl⟩

/-! ### LDGEOM -/

/-- When there is no usable blob (60_exceptions.md rule R201). -/
theorem metadataMissing_iff {s : State} : metadataMissing s = true ↔ s.cfg.getLsbD 2 = false ∨ s.metaLen.toNat < 16 := by
  simp [metadataMissing, metaPresent]

theorem metadataMissing_eq_false {s : State} (hpresent : s.cfg.getLsbD 2 = true) (hlen : 16 ≤ s.metaLen.toNat) :
    metadataMissing s = false := by
  simp [metadataMissing, metaPresent, hpresent, hlen]

/-- Settles O9: without a usable blob LDGEOM traps, with one both reads answer. -/
theorem ldgeomReadsGeometryOrTraps : Obligations.LdgeomReadsGeometryOrTraps := by
  intro s
  refine ⟨fun hmissing => execLdgeom_eq_next.2 (.inl ⟨metadataMissing_iff.2 hmissing, rfl⟩),
    fun wh wl hh hl hpresent hlen hwh hwl hhh hhl => ?_⟩
  have hwidth : readBe16 0xA s = .next (wh ++ wl) := readBe16_of_bytes (by omega) hwh hwl
  have hheight : readBe16 0xE s = .next (hh ++ hl) := readBe16_of_bytes (by omega) hhh hhl
  exact execLdgeom_eq_next.2 (.inr ⟨metadataMissing_eq_false hpresent hlen, _, _, hwidth, hheight, rfl⟩)

/-! ### CHKSIZE -/

/-- FIELD_BYTES in the printed form of 46_setup_and_output.md rule R187. -/
theorem fieldBytesOf_wordsPerRow (height width : Nat) :
    fieldBytesOf height (wordsPerRow width) = 16 * height * ((width + 2) / 3) := by
  simp only [fieldBytesOf, wordsPerRow]
  ring

/-- FIELD_BYTES holds the printed product (46_setup_and_output.md rule R187). -/
theorem toNat_fieldBytes_printed (h w : BitVec 16) :
    (BitVec.ofNat 35 (fieldBytesOf h.toNat (wordsPerRow w.toNat))).toNat = 16 * h.toNat * ((w.toNat + 2) / 3) :=
  (toNat_fieldBytes h w).trans (fieldBytesOf_wordsPerRow _ _)

/-- Settles O10: neither register wraps, and the dump length selects the field count or none. -/
theorem chksizeInfersFieldCountOrTraps : Obligations.ChksizeInfersFieldCountOrTraps := by
  intro s wpr fb
  have hf := toNat_fieldBytes_printed s.geom.height s.geom.width
  have hexec := execChksize_eq s
  dsimp only at hexec
  rw [hf] at hexec
  refine ⟨_, _, toNat_wpr s.geom.width, hf, fun nf hfb hlen => ?fits, fun hnone => ?traps⟩
  case fits =>
    rw [inferFieldCount_eq_some.2 ⟨hfb, hlen⟩] at hexec
    exact hexec
  case traps =>
    rw [inferFieldCount_eq_none.2 hnone] at hexec
    exact hexec

/-! ### GCLR -/

/-- Settles O30: filling writes zero below the size of GRID and keeps the rest. -/
theorem gclrZeroesTheCanvas : Obligations.GclrZeroesTheCanvas := fun s =>
  ⟨_, execGclr_eq s, rfl, fun n hn => (memRead_memFill _ _ _ n).trans (if_pos hn),
    fun n hn => (memRead_memFill _ _ _ n).trans (if_neg (Nat.not_lt.2 hn))⟩

/-! ### EMIT -/

/-- The state `u` of EMIT's loop, begun in `s`, after the visited numbers. -/
structure EmitVisited (s : State) (visited : List Nat) (u : State) : Prop where
  frame : u = { s with emitted := u.emitted, ctr := u.ctr }
  presented : u.emitted.map some = s.emitted.map some ++ visited.map (memRead s.out)

theorem EmitVisited.start (s : State) : EmitVisited s [] s where
  frame := rfl
  presented := (List.append_nil _).symm

/-- One pass carries the loop's invariant on: it reads a written value of OUT and appends it (46_setup_and_output.md rule R189). -/
theorem EmitVisited.concat {s u : State} (hout : OutWritten s) {visited : List Nat} (hu : EmitVisited s visited u) {n : Nat}
    (hn : n ∈ List.range (outSize s)) : ∃ t, presentValue n u = .next t ∧ EmitVisited s (visited ++ [n]) t := by
  have hn := List.mem_range.1 hn
  obtain ⟨v, hv⟩ := Option.isSome_iff_exists.1 (hout n hn)
  have hread : readOutNumber n u = .next v := by
    rw [hu.frame]
    exact readOutNumber_eq_next.2 ⟨hn, hv⟩
  refine ⟨_, by rw [presentValue, hread, andThen_next], ?_, ?_⟩
  · rw [hu.frame]
    rfl
  · rw [State.setEmitted_emitted, List.map_append, hu.presented, List.map_append, List.append_assoc, List.map_singleton,
      List.map_singleton, hv]

/-- Settles O38: the loop's invariant after all the numbers of OUT. -/
theorem emitPresentsOutInOrder : Obligations.EmitPresentsOutInOrder := by
  intro s hout
  obtain ⟨u, hloop, hu⟩ := forEach_visits (EmitVisited s) (fun _ _ hn _ hv => hv.concat hout hn) (.start s)
  have hexec : exec .emit s = enterDone u := by
    show execEmit s = _
    rw [execEmit, hloop, andThen_next]
  rw [enterDone_eq] at hexec
  exact ⟨_, hexec, execEmit_frame hexec, hu.presented⟩

/-! ### DONE and ERROR -/

/-- With STATUS as it fits, a run that has ended rests (46_setup_and_output.md rule R190, 60_exceptions.md rule R206). -/
theorem step_ended {s : State} (hstatus : StatusFits s) (hended : Ended s) : step s = .next s := by
  rcases hended with hp | hp
  · exact (step_done hp).trans (execDone_eq_self hp hstatus)
  · exact (step_error hp).trans (execError_eq_self hp hstatus)

/-- Settles O39: the two operations are those of the entries, and a run that has ended rests. -/
theorem doneAndErrorAreTerminal : Obligations.DoneAndErrorAreTerminal :=
  fun s => ⟨enterDone_eq s, raise_eq s.status.errcode s, step_ended⟩

end Sys2Proof.Machine
end

section
/-!
RUN (46_setup_and_output.md rule R191): the two exceptions, and on legal inputs the stages one after another, from the geometry LDGEOM reads
to the presented values, with what each leaves for the next.
-/

namespace Sys2Proof.Machine

open Sys2Proof.Claims

/-! ### Sequences of steps -/

theorem runSteps_succ {s t : State} (h : step s = .next t) (n : Nat) : runSteps (n + 1) s = runSteps n t := by
  rw [runSteps, h, andThen_next]

theorem runSteps_append {s t : State} {m : Nat} (h : runSteps m s = .next t) (n : Nat) : runSteps (m + n) s = runSteps n t := by
  induction m generalizing s with
  | zero =>
    cases h
    rw [Nat.zero_add]
  | succ m ih =>
    obtain ⟨u, hu, hm⟩ := andThen_eq_next.1 h
    rw [Nat.add_right_comm, runSteps_succ hu, ih hm]

/-- Steps from a state that its step leaves alone. -/
theorem runSteps_resting {s : State} (h : step s = .next s) (n : Nat) : runSteps n s = .next s := by
  induction n with
  | zero => rfl
  | succ n ih => rw [runSteps_succ h, ih]

/-- RUN answers the state in which the run ends, when that is reached within its nine steps (30_encoding.md rule R107). -/
theorem execRun_of_ended {s t : State} {n : Nat} (hidle : s.phase = .idle) (hsteps : runSteps n (started s) = .next t) (hn : n ≤ 9)
    (hstatus : StatusFits t) (hended : Ended t) : execRun s = .next t := by
  obtain ⟨k, hk⟩ := Nat.exists_eq_add_of_le hn
  rw [execRun, hostWriteCmd_start hidle, andThen_next, hk, runSteps_append hsteps, runSteps_resting (step_ended hstatus hended)]

/-! ### STATUS as it is read at the three ends of a run (30_encoding.md rule R102) -/

theorem toNat_statusBits_metadataUnavailable : (statusBits ⟨false, false, true, .metadataUnavailable⟩).toNat = 0x0C := by decide

theorem toNat_statusBits_sizeMismatch : (statusBits ⟨false, false, true, .sizeMismatch⟩).toNat = 0x14 := by decide

theorem toNat_statusBits_done : (statusBits ⟨false, true, false, .none⟩).toNat = 0x02 := by decide

/-! ### The two exceptions -/

/-- Settles O52: LDGEOM traps at once. -/
theorem runWithoutMetadataTraps : Obligations.RunWithoutMetadataTraps := by
  intro s hidle hmissing
  have hldgeom := (step_ldgeom (s := started s) rfl).trans ((ldgeomReadsGeometryOrTraps (started s)).1 hmissing)
  exact ⟨_, execRun_of_ended hidle (runSteps_succ hldgeom 0) (by decide) (.inl rfl) (.inr rfl), rfl,
    toNat_statusBits_metadataUnavailable, rfl, rfl, rfl, rfl, rfl⟩

/-- The state `s` after LDGEOM has read the sizes `w` and `h` (46_setup_and_output.md rule R186). -/
def measured (s : State) (w h : BitVec 16) : State :=
  { s with geom := { s.geom with width := w, height := h }, phase := .chksize }

/-- LDGEOM on a usable blob takes its two sizes. -/
theorem step_ldgeom_measured {s : State} {w h : BitVec 16} (hp : s.phase = .ldgeom) (hblob : metadataMissing s = false)
    (hw : readBe16 0xA s = .next w) (hh : readBe16 0xE s = .next h) : step s = .next (measured s w h) :=
  (step_ldgeom hp).trans (execLdgeom_eq_next.2 (.inr ⟨hblob, w, h, hw, hh, rfl⟩))

/-- Settles O53: LDGEOM takes the sizes and CHKSIZE traps. -/
theorem runWithWrongLengthTraps : Obligations.RunWithWrongLengthTraps := by
  intro s w h hidle hblob hw hh fb hwrong
  have hldgeom := step_ldgeom_measured (s := started s) rfl hblob hw hh
  obtain ⟨_, f, _, hf, _, htraps⟩ := chksizeInfersFieldCountOrTraps (measured (started s) w h)
  have hnone : fb = 0 ∨ ∀ nf : FieldCount, s.dumpLen.toNat ≠ fieldCountNat nf * fb := by
    refine hwrong.imp_right fun hlen nf => ?_
    simp only [List.mem_cons, List.not_mem_nil, or_false, not_or] at hlen
    cases nf <;> simp only [fieldCountNat] <;> omega
  have hchksize := (step_chksize rfl).trans (htraps hnone)
  exact ⟨_, execRun_of_ended hidle ((runSteps_succ hldgeom 1).trans (runSteps_succ hchksize 0)) (by decide) (.inr rfl) (.inr rfl),
    rfl, toNat_statusBits_sizeMismatch, rfl, rfl, hf, rfl, rfl, rfl, rfl, rfl⟩

/-! ### Legal inputs, and the setup stages -/

/-- The inputs of a run to DONE with the sizes `w` and `h` and the field count `nf` (46_setup_and_output.md rule R191 case 3). -/
structure Legal (s : State) (w h : BitVec 16) (nf : FieldCount) : Prop where
  blob : metadataMissing s = false
  loaded : ∀ a < s.dumpLen.toNat, (memRead s.raw a).isSome
  width : readBe16 0xA s = .next w
  height : readBe16 0xE s = .next h
  field : 16 * h.toNat * ((w.toNat + 2) / 3) ≠ 0
  length : s.dumpLen.toNat = fieldCountNat nf * (16 * h.toNat * ((w.toNat + 2) / 3))

section
variable {s : State} {w h : BitVec 16} {nf : FieldCount}

/-- A field of legal inputs has a row and a column (46_setup_and_output.md rule R187). -/
theorem Legal.sizes_pos (hl : Legal s w h nf) : 1 ≤ w.toNat ∧ 1 ≤ h.toNat := by
  obtain ⟨hh, hw⟩ := Nat.mul_ne_zero_iff.1 hl.field
  omega

/-- LDGEOM and CHKSIZE take the sizes and infer the field count. -/
theorem Legal.sizes_inferred (hl : Legal s w h nf) (hp : s.phase = .ldgeom) :
    ∃ t, runSteps 2 s = .next t ∧ SizesInferred t ∧ t.geom.width = w ∧ t.geom.height = h ∧ t.geom.nf = nf ∧
      t = { s with geom := t.geom, phase := .gsel } := by
  have hldgeom := step_ldgeom_measured hp hl.blob hl.width hl.height
  obtain ⟨wpr, f, hwpr, hf, hfits, _⟩ := chksizeInfersFieldCountOrTraps (measured s w h)
  have hchksize := (step_chksize rfl).trans (hfits nf hl.field hl.length)
  refine ⟨_, (runSteps_succ hldgeom 1).trans (runSteps_succ hchksize 0), ⟨hwpr, ?_, ?_⟩, rfl, rfl, rfl, rfl⟩
  · rw [hf, hwpr, ← fieldBytesOf_wordsPerRow]
    rfl
  · rw [hf]
    exact inferFieldCount_eq_some.2 ⟨hl.field, hl.length⟩

end

/-- What the stages before REMAP leave for it (46_setup_and_output.md rule R191). -/
structure Prepared (s : State) : Prop where
  phase : s.phase = .remap
  ready : RemapReady s
  zero : ∀ n < gridSize s, memRead s.grid n = some 0

/-- The state `s` after GSEL (42_geometry_profile.md rule R145). -/
def profiled (s : State) : State :=
  { s with
    prof := selectProfile s.geom.nf s.prof
    canvas := sizeCanvas (selectProfile s.geom.nf s.prof) s.geom.width.toNat s.geom.height.toNat s.cfg
    phase := .lutbld }

/-- The state `s` after LUTBLD (41_tone_curve.md rule R130). -/
def tabled (s : State) : State :=
  { s with lut := buildTables s.cfg s.gains, ctr := { s.ctr with lt := 2, li := 1023 }, phase := .gclr }

/-- The state `s` after GCLR (46_setup_and_output.md rule R188). -/
def cleared (s : State) : State :=
  { s with grid := memFill (gridSize s) 0 s.grid, ctr := afterLinear (gridSize s) s.ctr, phase := .remap }

/-- GSEL, LUTBLD and GCLR select the profile, build the tables and clear GRID. -/
theorem exists_prepared {s : State} (hp : s.phase = .gsel) (hsizes : SizesInferred s)
    (hloaded : ∀ a < s.dumpLen.toNat, (memRead s.raw a).isSome) :
    ∃ t, runSteps 3 s = .next t ∧ Prepared t ∧
      t = { s with prof := t.prof, canvas := t.canvas, lut := t.lut, grid := t.grid, ctr := t.ctr, phase := .remap } := by
  have hgsel : step s = .next (profiled s) := (step_gsel hp).trans (execGsel_eq s)
  have hlutbld : step (profiled s) = .next (tabled (profiled s)) := (step_lutbld rfl).trans (execLutbld_eq _)
  have hgclr : step (tabled (profiled s)) = .next (cleared (tabled (profiled s))) := (step_gclr rfl).trans (execGclr_eq _)
  have hsteps := (runSteps_succ hgsel 2).trans ((runSteps_succ hlutbld 1).trans (runSteps_succ hgclr 0))
  have hprofile : ProfileSelected (cleared (tabled (profiled s))) := ⟨(selectProfile_idem _ _).symm, rfl⟩
  exact ⟨_, hsteps, ⟨rfl, ⟨hsizes, hprofile, rfl, hloaded⟩, fun n hn => (memRead_memFill _ _ _ n).trans (if_pos hn)⟩, rfl⟩

/-- On legal inputs the setup stages complete. -/
theorem Legal.prepared {s : State} {w h : BitVec 16} {nf : FieldCount} (hl : Legal s w h nf) (hp : s.phase = .ldgeom) :
    ∃ t, runSteps 5 s = .next t ∧ Prepared t ∧ t.geom.width = w ∧ t.geom.height = h ∧ t.geom.nf = nf ∧
      t = { s with
        geom := t.geom, prof := t.prof, canvas := t.canvas, lut := t.lut, grid := t.grid, ctr := t.ctr, phase := .remap } := by
  obtain ⟨u, hinfer, hsizes, hwidth, hheight, hnf, huframe⟩ := hl.sizes_inferred hp
  obtain ⟨t, hprepare, hprepared, htframe⟩ := exists_prepared (by rw [huframe]) hsizes (by rw [huframe]; exact hl.loaded)
  have hgeom : t.geom = u.geom := by rw [htframe]
  exact ⟨t, (runSteps_append hinfer 3).trans hprepare, hprepared, hgeom ▸ hwidth, hgeom ▸ hheight, hgeom ▸ hnf,
    htframe.trans (by rw [hgeom, huframe])⟩

/-! ### The image -/

/-- Every value of GRID is the function `value` of its place on the canvas. -/
def GridHolds (s : State) (value : Nat → Nat → Nat → Option Cell16) : Prop :=
  ∀ X Y c, X < s.canvas.wout.toNat → Y < s.canvas.hout.toNat → c < s.canvas.cc.toNat →
    memRead s.grid (gridIndex s X Y c) = value X Y c

/-- A stage that writes GRID by writes alone, and besides it the datapath registers, the counters and PHASE, unwrites no value of GRID. -/
theorem SameButGridDpCtr.gridWritten {s u : State} (hframe : SameButGridDpCtr s u) (hg : GridWritten s)
    (hkeeps : ∀ P : Mem 16 → Prop, (∀ m a v, P m → P (memWrite m a v)) → P s.grid → P u.grid) (p : Phase) :
    GridWritten (u.setPhase p) := by
  rw [hframe.setPhase_eq]
  exact hkeeps (fun m => ∀ n < gridSize s, (memRead m n).isSome) (fun _ a v hm n hn => isSome_memRead_memWrite (hm n hn) a v) hg

theorem execRemap_gridWritten {s t : State} (hg : GridWritten s) (h : execRemap s = .next t) : GridWritten t := by
  obtain ⟨u, hloop, hframe, rfl⟩ := execRemap_frame h
  exact hframe.gridWritten hg (fun _ hP hs => remapLoop_keeps hP hs hloop) _

theorem execFill_gridWritten {s t : State} (hg : GridWritten s) (h : execFill s = .next t) : GridWritten t := by
  obtain ⟨u, hloop, hframe, rfl⟩ := execFill_frame h
  exact hframe.gridWritten hg (fun _ hP hs => fillLoop_keeps hP hs hloop) _

/-- The size registers alone decide where a value stands (20_memory.md rules R66, R67). -/
theorem gridIndex_congr {s t : State} (h : t.canvas = s.canvas) : gridIndex t = gridIndex s := by
  unfold gridIndex
  rw [h]

theorem outIndex_congr {s t : State} (h : t.canvas = s.canvas) : outIndex t = outIndex s := by
  unfold outIndex
  rw [h]

/-- REMAP gives every value of a cleared canvas its remapped value (43_field_remapper.md rule R155). -/
theorem Prepared.remapped {s : State} (hs : Prepared s) :
    ∃ t, step s = .next t ∧ GridWritten t ∧
      t = { s with
        grid := t.grid, dp := t.dp, ctr := t.ctr, phase := if s.geom.nf = .one ∨ s.geom.nf = .four then .fill else .crop } ∧
      GridHolds t (remappedValue s s.geom.nf s.geom.width.toNat s.geom.height.toNat) := by
  obtain ⟨t, hexec, hframe, hcanvas, _⟩ :=
    remapMapsEverySite s hs.ready.sizes hs.ready.profile hs.ready.tables hs.ready.loaded
  have hg : GridWritten s := fun n hn => Option.isSome_of_eq_some (hs.zero n hn)
  have hcan : t.canvas = s.canvas := by rw [hframe]
  refine ⟨t, (step_remap hs.phase).trans hexec, execRemap_gridWritten hg hexec, hframe, fun X Y c hX hY hc => ?_⟩
  rw [hcan] at hX hY hc
  rw [gridIndex_congr hcan, hcanvas X Y c hX hY hc, remappedValue]
  cases siteOf s.geom.nf s.geom.width.toNat s.geom.height.toNat X Y with
  | none => exact hs.zero _ (cellIndex_lt hX hY hc)
  | some site => rfl

/-- The field counts of the profiles with gaps (44_gap_filler.md rule R170). -/
theorem fills_iff (nf : FieldCount) : fills nf = true ↔ nf = .one ∨ nf = .four := by
  cases nf <;> decide

/-- FILL takes the remapped values to the final ones, in a run whose profile has gaps (46_setup_and_output.md rule R191). -/
theorem GridHolds.filled {s r t : State} {nf : FieldCount} {width height : Nat} (hgaps : nf = .one ∨ nf = .four)
    (hr : GridHolds r (remappedValue s nf width height)) (hg : GridWritten r) (hcc : r.canvas.cc.toNat ≤ 4)
    (hexec : exec .fill r = .next t) : GridHolds t (finalValue s nf width height) := by
  obtain ⟨t', hexec', hframe, hcells, _⟩ := fillAveragesGapCells r hg hcc
  obtain rfl : t' = t := Host.Outcome.next.inj (hexec'.symm.trans hexec)
  have hcan : t'.canvas = r.canvas := by rw [hframe]
  intro X Y c hX hY hc
  rw [hcan] at hX hY hc
  rw [gridIndex_congr hcan]
  by_cases hgap : 1 ≤ X ∧ 1 ≤ Y ∧ (X + Y) % 2 = 0
  · obtain ⟨a, b, ha, hb, hv⟩ := (hcells X Y c hX hY hc).1 hgap
    rw [hr X (Y - 1) c hX (by omega) hc] at ha
    rw [hr (X - 1) Y c (by omega) hY hc] at hb
    rw [hv, finalValue, if_pos ⟨(fills_iff nf).2 hgaps, hgap⟩, ha, hb]
  · rw [(hcells X Y c hX hY hc).2 hgap, hr X Y c hX hY hc, finalValue, if_neg fun h => hgap h.2]

/-- The state `t` before CROP of a run prepared in `s`: GRID is written, and holds the final values. -/
structure Imaged (s t : State) : Prop where
  frame : t = { s with grid := t.grid, dp := t.dp, ctr := t.ctr, phase := .crop }
  written : GridWritten t
  values : GridHolds t (finalValue s s.geom.nf s.geom.width.toNat s.geom.height.toNat)

/-- REMAP, and FILL for the profiles with gaps, leave the final values in GRID (46_setup_and_output.md rule R191). -/
theorem Prepared.imaged {s : State} (hs : Prepared s) : ∃ n ≤ 2, ∃ t, runSteps n s = .next t ∧ Imaged s t := by
  obtain ⟨r, hremap, hwritten, hframe, hvalues⟩ := hs.remapped
  by_cases hgaps : s.geom.nf = .one ∨ s.geom.nf = .four
  · rw [if_pos hgaps] at hframe
    have hcc : r.canvas.cc.toNat ≤ 4 := by
      rw [hframe]
      exact hs.ready.profile.cc_le
    obtain ⟨t, hexec, htframe, _⟩ := fillAveragesGapCells r hwritten hcc
    have hfill : step r = .next t := (step_fill (by rw [hframe])).trans hexec
    exact ⟨2, Nat.le_refl 2, t, (runSteps_succ hremap 1).trans (runSteps_succ hfill 0), htframe.trans (by rw [hframe]),
      execFill_gridWritten hwritten hexec, hvalues.filled hgaps hwritten hcc hexec⟩
  · rw [if_neg hgaps] at hframe
    refine ⟨1, by decide, r, runSteps_succ hremap 0, hframe, hwritten, fun X Y c hX hY hc => ?_⟩
    rw [hvalues X Y c hX hY hc, finalValue, if_neg fun h => hgaps ((fills_iff _).1 h.1)]

/-! ### The output -/

/-- CROP and EMIT move GRID without its first row and column to OUT and present OUT (45_cropper.md rule R180, 46_setup_and_output.md rule
R189). -/
theorem output_completes {s : State} (hp : s.phase = .crop) (hg : GridWritten s) (hcc : s.canvas.cc.toNat ≤ 4)
    (hwidth : s.canvas.outW.toNat + 1 = s.canvas.wout.toNat) (hheight : s.canvas.outH.toNat + 1 = s.canvas.hout.toNat) :
    ∃ t, runSteps 2 s = .next t ∧
      t = { s with
        out := t.out, ctr := t.ctr, emitted := t.emitted, status := ⟨false, true, s.status.err, s.status.errcode⟩, phase := .done } ∧
      (∀ x y c, x < t.canvas.outW.toNat → y < t.canvas.outH.toNat → c < t.canvas.cc.toNat →
        memRead t.out (outIndex t x y c) = memRead t.grid (gridIndex t (x + 1) (y + 1) c)) ∧
      t.emitted.map some = s.emitted.map some ++ (List.range (outSize t)).map (memRead t.out) := by
  obtain ⟨u, hcrop, huframe, hmoved, _⟩ := cropRemovesRowAndColumnZero s hg hcc hwidth hheight
  have hucan : u.canvas = s.canvas := by rw [huframe]
  have hwritten : OutWritten u := by
    intro n hn
    rw [outSize, hucan] at hn
    obtain ⟨x, y, c, hx, hy, hc, rfl⟩ := exists_cellIndex_eq hn
    rw [← outIndex, hmoved x y c hx hy hc]
    exact hg _ (cellIndex_lt (by omega) (by omega) hc)
  obtain ⟨t, hemit, htframe, hpresented⟩ := emitPresentsOutInOrder u hwritten
  have hsteps := (runSteps_succ ((step_crop hp).trans hcrop) 1).trans
    (runSteps_succ ((step_emit (by rw [huframe])).trans hemit) 0)
  have hcan : t.canvas = s.canvas := by rw [htframe, hucan]
  have hgrid : t.grid = s.grid := by rw [htframe, huframe]
  have hout : t.out = u.out := by rw [htframe]
  have hemitted : u.emitted = s.emitted := by rw [huframe]
  refine ⟨t, hsteps, htframe.trans (by rw [hout, huframe]), ?_, ?_⟩
  · rw [outIndex_congr hcan, gridIndex_congr hcan, hcan, hgrid, hout]
    exact hmoved
  · rw [hpresented, hemitted, hout, outSize, hcan, hucan]

/-- With the profile selected, the size registers hold the printed sizes (42_geometry_profile.md rule R147). -/
theorem ProfileSelected.printed_sizes {s : State} (hs : ProfileSelected s) (hw : 1 ≤ s.geom.width.toNat) (hh : 1 ≤ s.geom.height.toNat) :
    s.canvas.wout.toNat = canvasColumns s.geom.nf s.geom.width.toNat ∧ s.canvas.hout.toNat = canvasRows s.geom.nf s.geom.height.toNat ∧
      s.canvas.cc.toNat = (if s.cfg.getLsbD 1 then 4 else 3) ∧
      s.canvas.outW.toNat + 1 = s.canvas.wout.toNat ∧ s.canvas.outH.toNat + 1 = s.canvas.hout.toNat := by
  obtain ⟨t, hgsel, _, _, _, _, _, _, _, hsizes⟩ := gselLoadsPrintedProfile s hw hh
  have hcan : t.canvas = s.canvas := by
    rw [exec_gsel_canvas hgsel, ← hs.1]
    exact hs.2.symm
  rwa [hcan] at hsizes

/-- The state `t` in which a run prepared in `s` ends (46_setup_and_output.md rule R191 case 3). -/
structure Finished (s t : State) : Prop where
  frame : t = { s with
    grid := t.grid, out := t.out, dp := t.dp, ctr := t.ctr, emitted := t.emitted, status := ⟨false, true, s.status.err, s.status.errcode⟩
    phase := .done }
  written : GridWritten t
  values : GridHolds t (finalValue s s.geom.nf s.geom.width.toNat s.geom.height.toNat)
  out : ∀ x y c, x < t.canvas.outW.toNat → y < t.canvas.outH.toNat → c < t.canvas.cc.toNat →
    memRead t.out (outIndex t x y c) = memRead t.grid (gridIndex t (x + 1) (y + 1) c)
  presented : t.emitted.map some = s.emitted.map some ++ (List.range (outSize t)).map (memRead t.out)

/-- From REMAP on, a prepared run finishes. -/
theorem Prepared.finished {s : State} (hs : Prepared s) (hwidth : s.canvas.outW.toNat + 1 = s.canvas.wout.toNat)
    (hheight : s.canvas.outH.toNat + 1 = s.canvas.hout.toNat) : ∃ n ≤ 4, ∃ t, runSteps n s = .next t ∧ Finished s t := by
  obtain ⟨n, hn, u, himage, hu⟩ := hs.imaged
  have hcan : u.canvas = s.canvas := by rw [hu.frame]
  have hemitted : u.emitted = s.emitted := by rw [hu.frame]
  obtain ⟨t, houtput, htframe, hout, hpresented⟩ := output_completes (by rw [hu.frame]) hu.written
    (hcan ▸ hs.ready.profile.cc_le) (hcan ▸ hwidth) (hcan ▸ hheight)
  refine ⟨n + 2, by omega, t, (runSteps_append himage 2).trans houtput, ?frame, ?written, ?values, hout, hemitted ▸ hpresented⟩
  case frame =>
    have hgrid : t.grid = u.grid := by rw [htframe]
    have hdp : t.dp = u.dp := by rw [htframe]
    exact htframe.trans (by rw [hgrid, hdp, hu.frame])
  case written =>
    rw [htframe]
    exact hu.written
  case values =>
    rw [htframe]
    exact hu.values

/-! ### What the image depends on -/

section
variable {s t : State} {nf : FieldCount} {width height : Nat}

/-- The samples of every site of a run are the same in both dumps. -/
def SameSamples (s t : State) (nf : FieldCount) (width height : Nat) : Prop :=
  ∀ i p y x, Site nf width height i y x → p < 4 → dumpSample t.raw width height i p y x = dumpSample s.raw width height i p y x

/-- CFG, the gains and the samples of the sites determine the remapped values (46_setup_and_output.md rule R191). -/
theorem remappedValue_congr (hcfg : t.cfg = s.cfg) (hgains : t.gains = s.gains) (hsamples : SameSamples s t nf width height) :
    remappedValue t nf width height = remappedValue s nf width height := by
  funext X Y c
  unfold remappedValue
  cases hsite : siteOf nf width height X Y with
  | none => rfl
  | some site =>
    obtain ⟨i, y, x⟩ := site
    have hmem : Site nf width height i y x := mem_remapSites.1 (List.mem_of_find?_eq_some hsite)
    simp only [hcfg, hgains, hsamples i (3 - c) y x hmem (by omega)]

theorem finalValue_congr (hcfg : t.cfg = s.cfg) (hgains : t.gains = s.gains) (hsamples : SameSamples s t nf width height) :
    finalValue t nf width height = finalValue s nf width height := by
  unfold finalValue
  rw [remappedValue_congr hcfg hgains hsamples]

end

/-! ### The whole run -/

theorem Legal.of_inputs {s : State} {w h : BitVec 16} {nf : FieldCount} (hblob : metadataMissing s = false) (hloaded : InputsLoaded s)
    (hw : readBe16 0xA s = .next w) (hh : readBe16 0xE s = .next h) (hfield : 16 * h.toNat * ((w.toNat + 2) / 3) ≠ 0)
    (hlen : s.dumpLen.toNat = fieldCountNat nf * (16 * h.toNat * ((w.toNat + 2) / 3))) : Legal s w h nf :=
  ⟨hblob, (hloaded hblob).2, hw, hh, hfield, hlen⟩

/-- Settles O54: the setup, the image and the output, each begun where the one before it ends. -/
theorem runComputesTheImage : Obligations.RunComputesTheImage := by
  intro s w h nf hidle hblob hloaded hw hh hfield hlen
  have hl : Legal (started s) w h nf := .of_inputs hblob hloaded hw hh hfield hlen
  obtain ⟨b, hsetup, hprepared, rfl, rfl, rfl, hbframe⟩ := hl.prepared rfl
  obtain ⟨hwpos, hhpos⟩ := hl.sizes_pos
  obtain ⟨hwout, hhout, hcc, houtW, houtH⟩ := hprepared.ready.profile.printed_sizes hwpos hhpos
  obtain ⟨n, hn, t, hfinish, ht⟩ := hprepared.finished houtW houtH
  obtain ⟨hcfg, hgains, hraw, hemitted, hbstatus⟩ :
      b.cfg = s.cfg ∧ b.gains = s.gains ∧ b.raw = s.raw ∧ b.emitted = s.emitted ∧ b.status = startStatus := by
    rw [hbframe]
    exact ⟨rfl, rfl, rfl, rfl, rfl⟩
  have hvalue : finalValue b b.geom.nf b.geom.width.toNat b.geom.height.toNat = finalValue s _ _ _ :=
    finalValue_congr hcfg hgains fun _ _ _ _ _ _ => by rw [hraw]
  have hphase : t.phase = .done := by rw [ht.frame]
  have hstatus : t.status = ⟨false, true, false, .none⟩ := by
    rw [ht.frame, hbstatus]
    rfl
  have hgeom : t.geom = b.geom := by rw [ht.frame]
  have hlut : t.lut = b.lut := by rw [ht.frame]
  have hcan : t.canvas = b.canvas := by rw [ht.frame]
  rw [← hcan] at hwout hhout hcc houtW houtH
  rw [hcfg] at hcc
  have hfits : StatusFits t := by
    rw [StatusFits, hphase]
    exact hstatus
  have htables : t.lut = buildTables s.cfg s.gains := by
    rw [hlut, hprepared.ready.tables, hcfg, hgains]
  refine ⟨t, execRun_of_ended hidle ((runSteps_append hsetup n).trans hfinish) (by omega) hfits (.inl hphase), hphase,
    hstatus ▸ toNat_statusBits_done, hgeom ▸ rfl, htables, hwout, hhout, hcc, houtW, houtH, fun X Y c hX hY hc => ?grid,
    fun x y c hx hy hc => ?out, hemitted ▸ ht.presented⟩
  case grid => exact ⟨ht.written _ (cellIndex_lt hX hY hc), hvalue ▸ ht.values X Y c hX hY hc⟩
  case out => exact hvalue ▸ (ht.out x y c hx hy hc).trans (ht.values (x + 1) (y + 1) c (by omega) (by omega) hc)

/-- On a loaded dump two runs whose packed words agree in their low 30 bits have the same samples (30_encoding.md rule R93). -/
theorem Legal.same_samples {s t : State} {w h : BitVec 16} {nf : FieldCount} (hs : Legal s w h nf) (ht : Legal t w h nf)
    (hbits : ∀ k v v', dumpWord s.raw k = some v → dumpWord t.raw k = some v' → v.toNat % 2 ^ 30 = v'.toNat % 2 ^ 30) :
    SameSamples s t nf w.toNat h.toNat := by
  intro i p y x ⟨hi, hy, hx⟩ hp
  have hlt := wordIndex_lt hi hp hy hx
  rw [fieldBytesOf_wordsPerRow] at hlt
  obtain ⟨v, _, hv⟩ := readRawWord_of_loaded hs.loaded (hs.length ▸ hlt)
  obtain ⟨v', _, hv'⟩ := readRawWord_of_loaded ht.loaded (ht.length ▸ hlt)
  rw [dumpSample, dumpSample, hv, hv', Option.map_some, Option.map_some, unusedWordBitsReachNoSample v v' x (hbits _ v v' hv hv')]

/-- The canvas is determined by the numbers its registers hold. -/
theorem canvas_eq_of_toNat {a b : Canvas} (hwout : a.wout.toNat = b.wout.toNat) (hhout : a.hout.toNat = b.hout.toNat)
    (hcc : a.cc.toNat = b.cc.toNat) (houtW : a.outW.toNat = b.outW.toNat) (houtH : a.outH.toNat = b.outH.toNat) : a = b := by
  cases a
  cases b
  simp only [Canvas.mk.injEq, ← BitVec.toNat_inj]
  exact ⟨hwout, hhout, hcc, houtW, houtH⟩

/-- Settles O55: the value at a place of OUT is a function of the samples, which the unused bits do not reach. -/
theorem outputIgnoresUnusedBits : Obligations.OutputIgnoresUnusedBits := by
  intro s raw' w h nf hidle hblob hloaded hloaded' hw hh hfield hlen hbits
  obtain ⟨t, hrun, hphase, _, _, _, hwout, hhout, hcc, houtW, houtH, hgrid, hout, _⟩ :=
    runComputesTheImage s w h nf hidle hblob hloaded hw hh hfield hlen
  obtain ⟨t', hrun', hphase', _, _, _, hwout', hhout', hcc', houtW', houtH', _, hout', _⟩ :=
    runComputesTheImage { s with raw := raw' } w h nf hidle hblob hloaded' hw hh hfield hlen
  have hcan : t'.canvas = t.canvas :=
    canvas_eq_of_toNat (hwout'.trans hwout.symm) (hhout'.trans hhout.symm) (hcc'.trans hcc.symm) (by omega) (by omega)
  have hvalue : finalValue { s with raw := raw' } nf w.toNat h.toNat = finalValue s nf w.toNat h.toNat :=
    finalValue_congr rfl rfl <| (Legal.of_inputs hblob hloaded hw hh hfield hlen).same_samples
      (Legal.of_inputs hblob hloaded' hw hh hfield hlen) hbits
  refine ⟨t, t', hrun, hrun', hphase, hphase', hcan, fun x y c hx hy hc => ⟨?present, ?same⟩⟩
  case present =>
    obtain ⟨hsome, hvalue⟩ := hgrid (x + 1) (y + 1) c (by omega) (by omega) hc
    rw [hout x y c hx hy hc, ← hvalue]
    exact hsome
  case same => rw [hout' x y c (hcan ▸ hx) (hcan ▸ hy) (hcan ▸ hc), hvalue, hout x y c hx hy hc]

end Sys2Proof.Machine
end

section
/-!
Exceptions (60_exceptions.md): LDGEOM and CHKSIZE alone enter ERROR, and what a trap leaves as it was (rules R200, R204, R205); on loaded
inputs every step from the invariant answers a next state (rule R203).
-/

namespace Sys2Proof.Machine

open Sys2Proof.Claims

/-! ### The two exceptions -/

section
variable {s t : State}

/-- The phases from which a step can answer a state in ERROR (60_exceptions.md rule R204). -/
theorem phase_before_error (h : step s = .next t) (ht : t.phase = .error) :
    s.phase = .ldgeom ∨ s.phase = .chksize ∨ s.phase = .error := by
  have hnext := phaseFollowsFixedSequence.1 s t h
  cases hp : s.phase with
  | ldgeom => exact .inl rfl
  | chksize => exact .inr (.inl rfl)
  | error => exact .inr (.inr rfl)
  | idle =>
    simp only [hp, ht] at hnext
    split at hnext <;> cases hnext
  | remap =>
    simp only [hp, ht] at hnext
    split at hnext <;> cases hnext
  | _ =>
    rw [hp, ht] at hnext
    cases hnext

/-- LDGEOM's trap writes STATUS and PHASE (60_exceptions.md rules R200, R205). -/
theorem execLdgeom_trap (h : execLdgeom s = .next t) (ht : t.phase = .error) :
    t = { s with status := ⟨false, s.status.done, true, .metadataUnavailable⟩, phase := .error } := by
  rcases execLdgeom_eq_next.1 h with ⟨_, htrap⟩ | ⟨_, _, _, _, _, rfl⟩
  · exact htrap
  · cases ht

/-- CHKSIZE's trap writes WPR, FIELD_BYTES, STATUS and PHASE (60_exceptions.md rules R200, R205). -/
theorem execChksize_trap (h : execChksize s = .next t) (ht : t.phase = .error) :
    t = { s with
      geom := { s.geom with wpr := t.geom.wpr, fieldBytes := t.geom.fieldBytes }
      status := ⟨false, s.status.done, true, .sizeMismatch⟩
      phase := .error } := by
  rw [execChksize_eq] at h
  cases h
  split at ht
  next => cases ht
  next => rfl

end

/-- Settles O11: a step that enters ERROR is LDGEOM's trap or CHKSIZE's, each with its own frame. -/
theorem onlySetupRaisesExceptions : Obligations.OnlySetupRaisesExceptions := by
  intro s t h ht hs
  rcases phase_before_error h ht with hp | hp | hp
  · rw [execLdgeom_trap (step_ldgeom hp ▸ h) ht]
    exact ⟨.inl ⟨hp, rfl, rfl⟩, rfl, rfl, rfl⟩
  · rw [execChksize_trap (step_chksize hp ▸ h) ht]
    exact ⟨.inr ⟨hp, rfl, rfl⟩, rfl, rfl, rfl⟩
  · exact absurd hp hs

/-! ### Every operation of a run completes -/

section
variable {s : State}

/-- LDGEOM completes on loaded inputs: it traps, or the four bytes it reads lie within META_LEN and are loaded (46_setup_and_output.md
rule R186). -/
theorem execLdgeom_completes (hinputs : InputsLoaded s) : ∃ t, execLdgeom s = .next t := by
  cases hblob : metadataMissing s with
  | true => exact ⟨_, execLdgeom_eq_next.2 (.inl ⟨hblob, rfl⟩)⟩
  | false =>
    have hlen : ¬(s.cfg.getLsbD 2 = false ∨ s.metaLen.toNat < 16) := fun h => by simp [metadataMissing_iff.2 h] at hblob
    obtain ⟨hbytes, _⟩ := hinputs hblob
    have loaded : ∀ a ∈ [0xA, 0xB, 0xE, 0xF], ∃ b, memRead s.metaBlob a = some b :=
      fun a ha => Option.isSome_iff_exists.1 (hbytes a ha)
    obtain ⟨wh, hwh⟩ := loaded 0xA (by decide)
    obtain ⟨wl, hwl⟩ := loaded 0xB (by decide)
    obtain ⟨hh, hhh⟩ := loaded 0xE (by decide)
    obtain ⟨hl, hhl⟩ := loaded 0xF (by decide)
    have hwidth : readBe16 0xA s = .next (bigEndian wh wl) := readBe16_of_bytes (by omega) hwh hwl
    have hheight : readBe16 0xE s = .next (bigEndian hh hl) := readBe16_of_bytes (by omega) hhh hhl
    exact ⟨_, execLdgeom_eq_next.2 (.inr ⟨hblob, _, _, hwidth, hheight, rfl⟩)⟩

/-- A sensor whose field count was inferred has a row and a column: CHKSIZE passes no field of size zero (46_setup_and_output.md rule
R187). -/
theorem SizesInferred.sizes_pos (h : SizesInferred s) : 1 ≤ s.geom.width.toNat ∧ 1 ≤ s.geom.height.toNat := by
  obtain ⟨hwpr, hfield, hinfer⟩ := h
  obtain ⟨hne, _⟩ := inferFieldCount_eq_some.1 hinfer
  rw [hfield, hwpr, fieldBytesOf_wordsPerRow] at hne
  obtain ⟨hh, hw⟩ := Nat.mul_ne_zero_iff.1 hne
  omega

/-- REMAP completes: its words are loaded and its tables are built (43_field_remapper.md rule R155). -/
theorem Inv.execRemap_completes (hi : Inv s) (hl : InputsLoaded s) (hp : s.phase = .remap) : ∃ t, execRemap s = .next t := by
  have before : reached s.phase 5 = true := by rw [hp]; rfl
  obtain ⟨_, hloaded⟩ := hl (hi.blob (reached_mono before (by decide)))
  obtain ⟨t, hexec, _⟩ := remapMapsEverySite s (hi.sizes (reached_mono before (by decide)))
    (hi.profile (reached_mono before (by decide))) (hi.tables before) hloaded
  exact ⟨t, hexec⟩

/-- FILL completes: every value of GRID is written (44_gap_filler.md rule R170). -/
theorem Inv.execFill_completes (hi : Inv s) (hp : s.phase = .fill) : ∃ t, execFill s = .next t := by
  obtain ⟨t, hexec, _⟩ := fillAveragesGapCells s (hi.grid (by rw [hp]; rfl)) (hi.profile (by rw [hp]; rfl)).cc_le
  exact ⟨t, hexec⟩

/-- CROP completes: every value of GRID is written, and GRID has one row and one column more than OUT (45_cropper.md rule R180). -/
theorem Inv.execCrop_completes (hi : Inv s) (hp : s.phase = .crop) : ∃ t, execCrop s = .next t := by
  have before : reached s.phase 8 = true := by rw [hp]; rfl
  have hprofile := hi.profile (reached_mono before (by decide))
  obtain ⟨hwidth, hheight⟩ := (hi.sizes (reached_mono before (by decide))).sizes_pos
  obtain ⟨_, _, _, houtW, houtH⟩ := hprofile.printed_sizes hwidth hheight
  obtain ⟨t, hexec, _⟩ := cropRemovesRowAndColumnZero s (hi.grid (reached_mono before (by decide))) hprofile.cc_le houtW houtH
  exact ⟨t, hexec⟩

/-- EMIT completes: every value of OUT is written (46_setup_and_output.md rule R189). -/
theorem Inv.execEmit_completes (hi : Inv s) (hp : s.phase = .emit) : ∃ t, execEmit s = .next t := by
  obtain ⟨t, hexec, _⟩ := emitPresentsOutInOrder s (hi.out (by rw [hp]; rfl))
  exact ⟨t, hexec⟩

end

/-- Settles O50, by cases on PHASE: the operation of each phase completes. -/
theorem nothingElseCanFail : Obligations.NothingElseCanFail := by
  intro s hi hl
  cases hp : s.phase with
  | idle =>
    by_cases hc : s.cmd = 0x01#8
    · exact ⟨_, (step_start hp hc).trans (execStart_idle hp)⟩
    · exact ⟨s, step_idle hp hc⟩
  | ldgeom => exact step_ldgeom hp ▸ execLdgeom_completes hl
  | chksize => exact ⟨_, (step_chksize hp).trans (execChksize_eq s)⟩
  | gsel => exact ⟨_, (step_gsel hp).trans (execGsel_eq s)⟩
  | lutbld => exact ⟨_, (step_lutbld hp).trans (execLutbld_eq s)⟩
  | gclr => exact ⟨_, (step_gclr hp).trans (execGclr_eq s)⟩
  | remap => exact step_remap hp ▸ hi.execRemap_completes hl hp
  | fill => exact step_fill hp ▸ hi.execFill_completes hp
  | crop => exact step_crop hp ▸ hi.execCrop_completes hp
  | emit => exact step_emit hp ▸ hi.execEmit_completes hp
  | done => exact ⟨s, step_ended hi.status (.inl hp)⟩
  | error => exact ⟨s, step_ended hi.status (.inr hp)⟩

end Sys2Proof.Machine
end

section
/-!
Reset and the end of every run (70_reset_and_hazards.md rules R230, R238, R240): reset rests in IDLE, and the code of PHASE rises with every
step of a run until the run has ended.
-/

namespace Sys2Proof.Machine

open Sys2Proof.Claims

/-! ### Reset -/

/-- Settles O47: reset leaves IDLE with no command pending, where a step changes nothing. -/
theorem resetReturnsToIdle : Obligations.ResetReturnsToIdle :=
  fun _ => ⟨State.reset, rfl, rfl, rfl, rfl, step_idle rfl (by decide)⟩

/-! ### Progress -/

section
variable {s t : State}

theorem InputsLoaded.of_sameInputs (hl : InputsLoaded s) (h : SameInputs s t) : InputsLoaded t := by
  obtain ⟨_, hcfg, hmetaLen, hdumpLen, _, hmeta, hraw⟩ := h
  unfold InputsLoaded metadataMissing at hl ⊢
  rwa [hcfg, hmetaLen, hdumpLen, hmeta, hraw]

/-- A step writes no input (10_state.md rules R22, R42): it is the step of the operation that is fetched. -/
theorem step_sameInputs (h : step s = .next t) : SameInputs s t := by
  unfold step at h
  split at h
  next i _ => exact operationsNeverWriteInputs i s t h
  next => cases h

theorem running_iff : s.phase ≠ .idle ↔ 1 ≤ (phaseCode s.phase).toNat := by
  cases s.phase <;> decide

theorem ended_iff : Ended s ↔ 10 ≤ (phaseCode s.phase).toNat := by
  unfold Ended
  cases s.phase <;> decide

/-- The progress of a run: a step outside IDLE raises the code of PHASE, until the run has ended (30_encoding.md rules R103, R107). -/
theorem step_raises_phaseCode (h : step s = .next t) (hrun : s.phase ≠ .idle) :
    min ((phaseCode s.phase).toNat + 1) 10 ≤ (phaseCode t.phase).toNat := by
  have hnext := phaseFollowsFixedSequence.1 s t h
  cases hp : s.phase with
  | idle => exact absurd hp hrun
  | ldgeom | chksize =>
    simp only [hp] at hnext
    rcases hnext with ht | ⟨ht, _⟩ <;> rw [ht] <;> decide
  | remap =>
    simp only [hp] at hnext
    split at hnext <;> rw [hnext] <;> decide
  | _ =>
    simp only [hp] at hnext
    rw [hnext]
    decide

/-- After `n` steps of a run the code of PHASE has risen by `n`, unless the run has ended. -/
theorem runSteps_raises_phaseCode (n : Nat) (hi : Inv s) (hl : InputsLoaded s) (hrun : s.phase ≠ .idle) :
    ∃ t, runSteps n s = .next t ∧ min ((phaseCode s.phase).toNat + n) 10 ≤ (phaseCode t.phase).toNat := by
  induction n generalizing s with
  | zero => exact ⟨s, rfl, Nat.min_le_left _ _⟩
  | succ n ih =>
    obtain ⟨u, hstep⟩ := nothingElseCanFail s hi hl
    have hrise := step_raises_phaseCode hstep hrun
    have hrun' : u.phase ≠ .idle := running_iff.2 (by omega)
    obtain ⟨t, hsteps, ht⟩ := ih (stepKeepsInvariant s u hi hstep) (hl.of_sameInputs (step_sameInputs hstep)) hrun'
    exact ⟨t, (runSteps_succ hstep n).trans hsteps, by omega⟩

end

/-- Settles O51: outside IDLE the code of PHASE is at least 1, so nine steps raise it to that of DONE or beyond. -/
theorem everyRunEnds : Obligations.EveryRunEnds := by
  intro s hi hl hrun
  obtain ⟨t, hsteps, hrise⟩ := runSteps_raises_phaseCode 9 hi hl hrun
  have hcode := running_iff.1 hrun
  exact ⟨t, hsteps, ended_iff.2 (by omega)⟩

end Sys2Proof.Machine
end
